-- ==== Sys2Proof/Word.lean ====
section
/-! DEFINITION. The byte, the one fixed-width word of the engine (20_memory.md R36): every other
number of the spec is an unbounded natural (00_scope.md R13, R14). -/

namespace Sys2Proof

/-- An 8-bit byte of IN or OUT (20_memory.md R36). -/
abbrev Byte := BitVec 8

end Sys2Proof
end

