-- ==== Sys2Proof/Machine/Constants.lean ====
section
/-! DEFINITION. The constants of the format (00_scope.md section 5; 10_state.md R33). -/

namespace Sys2Proof.Machine

/-- MAX_CODE_BITS, the longest Huffman code (00_scope.md, constants of the format). -/
def maxCodeBits : Nat := 15

/-- The widest ReadBits call (41_bitreader.md R73). -/
def maxReadBits : Nat := 16

/-- WINDOW, the farthest back-reference (00_scope.md, constants; 20_memory.md R40). -/
def windowSize : Nat := 32768

/-- MIN_MATCH and MAX_MATCH (00_scope.md, constants). -/
def minMatch : Nat := 3
def maxMatch : Nat := 258

/-- The sizes of the three alphabets (00_scope.md, constants). -/
def litLenSymbols : Nat := 288
def distSymbols : Nat := 32
def clSymbols : Nat := 19

/-- CL_ORDER (43_dynamic_header.md R91). -/
def clOrder : List Nat := [16, 17, 18, 0, 8, 7, 9, 6, 10, 5, 11, 4, 12, 3, 13, 2, 14, 1, 15]

/-- A run of symbols of one code length, as R85 lists them: symbols `first` to `last` have codes of `len`
bits (42_huffman.md R85). -/
structure LengthRun where
  first : Nat
  last : Nat
  len : Nat
  deriving DecidableEq, Repr

/-- "8 for symbols 0–143, 9 for 144–255, 7 for 256–279, 8 for 280–287" (42_huffman.md R85). -/
def fixedLitRuns : List LengthRun := [⟨0, 143, 8⟩, ⟨144, 255, 9⟩, ⟨256, 279, 7⟩, ⟨280, 287, 8⟩]

/-- The code length of each symbol of a run. -/
def LengthRun.lengths (r : LengthRun) : List Nat := List.replicate (r.last + 1 - r.first) r.len

/-- The code lengths of the fixed literal/length table, in symbol order (42_huffman.md R85). -/
def fixedLitLengths : List Nat := fixedLitRuns.flatMap LengthRun.lengths

/-- "distance lengths are 5 for all 32 symbols" (42_huffman.md R86). -/
def fixedDistLengths : List Nat := LengthRun.lengths ⟨0, 31, 5⟩

/-- LEN_BASE[s - 257] for s = 257 .. 285 (30_encoding.md R63; all but the first and last entry are
the spec's own general knowledge, notes/assumptions/13.md, PRESUMED by the spec). -/
def lenBase : List Nat :=
  [3, 4, 5, 6, 7, 8, 9, 10, 11, 13, 15, 17, 19, 23, 27, 31, 35, 43, 51, 59, 67, 83, 99, 115, 131,
    163, 195, 227, 258]

/-- LEN_EXTRA[s - 257] for s = 257 .. 285 (30_encoding.md R63; as `lenBase`). -/
def lenExtra : List Nat :=
  [0, 0, 0, 0, 0, 0, 0, 0, 1, 1, 1, 1, 2, 2, 2, 2, 3, 3, 3, 3, 4, 4, 4, 4, 5, 5, 5, 5, 0]

/-- DIST_BASE[d] for d = 0 .. 29 (30_encoding.md R64; all but the first and last entry are the
spec's own general knowledge, notes/assumptions/13.md, PRESUMED by the spec). -/
def distBase : List Nat :=
  [1, 2, 3, 4, 5, 7, 9, 13, 17, 25, 33, 49, 65, 97, 129, 193, 257, 385, 513, 769, 1025, 1537, 2049,
    3073, 4097, 6145, 8193, 12289, 16385, 24577]

/-- DIST_EXTRA[d] for d = 0 .. 29 (30_encoding.md R64; as `distBase`). -/
def distExtra : List Nat :=
  [0, 0, 0, 0, 1, 1, 2, 2, 3, 3, 4, 4, 5, 5, 6, 6, 7, 7, 8, 8, 9, 9, 10, 10, 11, 11, 12, 12, 13, 13]

end Sys2Proof.Machine
end

