-- ==== Sys2Proof/Config.lean ====
section
/-! DEFINITION. The parameters of one engine instance (00_scope.md R11, R12), fixed for its life
(70_reset_and_hazards.md R208). IN_LEN (R10) is not here: it is the length of IN.
The engine has no free value: the spec leaves no result of any element open. -/

namespace Sys2Proof

/-- The two parameters of an instance. A `State` carries them, no step and no host move changes
them, and a statement about every state is a statement about every value of them
(notes/assumptions/4.md; DESIGN CHOICE, safe). -/
structure Config where
  /-- OUT_CAP (00_scope.md R11): `none` is `unbounded`, the default. -/
  outCap : Option Nat
  /-- TRACE (00_scope.md R12): whether the engine has the trace port of 60_exceptions.md R204. -/
  trace : Bool
  deriving DecidableEq, Repr

/-- The parameters that `State.reset` stands for: OUT_CAP at the spec's default, TRACE on
(notes/assumptions/4.md; DESIGN CHOICE for TRACE). -/
def Config.powerOn : Config := { outCap := none, trace := true }

end Sys2Proof
end

