-- ==== Sys2Proof/Machine/Memory.lean ====
section
/-! DEFINITION. A byte memory of the engine, IN or OUT (20_memory.md R36): a list of cells in
canonical form, and the operations over it. -/

namespace Sys2Proof.Machine

/-- A byte memory as (address, byte) cells. An address that is not listed does not exist and reads
as no value (20_memory.md R36, R50): no byte is ever made up for it. -/
abbrev Memory := List Host.Cell

/-- The canonical form: the addresses are 0, 1, 2, … in order (so they rise strictly, and no cell
stands for an address that reads as no value). Both memories are byte-addressed from 0 with no
hole (20_memory.md R36, R50). -/
def Memory.wf (m : Memory) : Bool := m.map Prod.fst == List.range m.length

/-- The number of bytes: IN_LEN for IN, |out| for OUT (20_memory.md R36). -/
def Memory.size (m : Memory) : Nat := m.length

/-- The bytes in address order. -/
def Memory.bytes (m : Memory) : List Byte := m.map Prod.snd

/-- The byte at address `a`, or no value where the address does not exist (00_scope.md R17). -/
def Memory.read : Memory → Nat → Option Byte
  | [], _ => none
  | (k, b) :: rest, a => if k = a then some b else Memory.read rest a

/-- The memory with `v` as its new last byte: `MemWrite(OUT, |out|, 1, v)` (20_memory.md R38). -/
def Memory.append (m : Memory) (v : Byte) : Memory := m ++ [(m.size, v)]

/-- The cells of a byte list placed from address `a` on. -/
def Memory.ofBytesFrom : Nat → List Byte → Memory
  | _, [] => []
  | a, b :: bs => (a, b) :: Memory.ofBytesFrom (a + 1) bs

/-- The memory holding a byte list from address 0 on. -/
def Memory.ofBytes (bs : List Byte) : Memory := Memory.ofBytesFrom 0 bs

/-- The memory with a list of bytes appended one at a time. -/
def Memory.appendAll (m : Memory) : List Byte → Memory
  | [] => m
  | b :: bs => Memory.appendAll (m.append b) bs

end Sys2Proof.Machine
end

