-- ==== Sys2Proof/Machine/State.lean ====
section
/-! DEFINITION. The state of one engine instance (10_state.md R19), the reasons a step can stop, and
the state right after reset (10_state.md R35).

`⊥`, the spec's "holds no value" (10_state.md, opening), is `none`: the spec gives it as the reset
value of those registers and sets them back to it (R34, R35; notes/assumptions/5.md). -/

namespace Sys2Proof.Machine

/-- One assigned code of a table: the code of `len` bits and value `code` stands for `sym`
(42_huffman.md R77). -/
structure HuffEntry where
  len : Nat
  code : Nat
  sym : Nat
  deriving DecidableEq, Repr

/-- A HuffmanTable (42_huffman.md R77): its assigned codes in rising order of symbol, so that two
tables built from one length list are one value. -/
structure HuffmanTable where
  entries : List HuffEntry
  deriving DecidableEq, Repr

/-- STATUS (10_state.md R30, R31). -/
inductive Status where
  | idle
  | busy
  | done
  | error
  deriving DecidableEq, Repr

/-- PHASE (10_state.md R23). -/
inductive Phase where
  | readHeader
  | stored
  | fixed
  | dynamic
  | decoding
  | blockDone
  | halt
  deriving DecidableEq, Repr

/-- The value of ERRCODE (60_exceptions.md R188): no error, or one of the eight errors. -/
inductive ErrCode where
  | noError
  | unexpectedEof
  | reservedBlockType
  | storedLengthMismatch
  | invalidCodeLengths
  | invalidDynamicHeader
  | invalidHuffmanCode
  | invalidDistanceCode
  | invalidDistance
  deriving DecidableEq, Repr

/-- An event of TRACE_LOG (60_exceptions.md R204). -/
inductive TraceEvent where
  | hdr (block bfinal btype : Nat)
  | dyn (block hlit hdist hclen : Nat)
  deriving DecidableEq, Repr

/-- The registers that can hold ⊥ (10_state.md R20, R30, R32), named for the fault of reading one. -/
inductive Reg where
  | bfinal
  | btype
  | litTable
  | distTable
  | hlit
  | hdist
  | hclen
  | clLens
  | clTable
  | lens
  | accCode
  | accLen
  | length
  | distance
  | out
  | errByte
  | errBit
  | errBlock
  | outLen
  | consumed
  deriving DecidableEq, Repr

/-- The reasons a run stops. None of them is one of the eight decode errors: those are taken, as
60_exceptions.md R198 describes, by a next state. Each is safe: the model stops where the spec
gives the engine no next state. -/
inductive Fault where
  /-- Raised by a write to OUT at |out| = OUT_CAP: the engine "is stuck, with STATUS = BUSY"
  (00_scope.md R11, 60_exceptions.md R200; notes/assumptions/3.md). Safe. -/
  | outCapStuck
  /-- Raised by a read of a register, or of OUT, that holds ⊥ (10_state.md R34, R32). No run of the
  engine reaches it; a host read of a result that is not valid does. Safe. -/
  | noValue (r : Reg)
  /-- Raised by a read of an IN address that does not exist (20_memory.md R37). No run reaches it:
  every read is checked first. Safe. -/
  | inAddress
  /-- Raised by a read of an OUT address that does not exist (20_memory.md R39). No run reaches it:
  the distance check comes first. Safe. -/
  | outAddress
  /-- Raised by the decoder for a symbol that the alphabet in force does not have (30_encoding.md
  R66). No run reaches it: a table Build makes has its alphabet's symbols only. Safe. -/
  | symbolOutsideAlphabet
  deriving DecidableEq, Repr

/-- The moves and calls that do not exist. Each is safe: the model does nothing. -/
inductive Refusal where
  /-- Raised by `exec` for an element that has no meaning yet. -/
  | notModelled (mnemonic : String)
  /-- Raised by ReadBits(n) with n > 16: "a model refuses such a call" (41_bitreader.md R73). No
  rule makes one. Safe. -/
  | readBitsTooWide
  /-- Raised by the host's START while STATUS = BUSY (45_decoder_top.md R177, R178). Safe. -/
  | startWhileBusy
  /-- Raised by the host's load of IN while STATUS = BUSY (45_decoder_top.md R178). Safe. -/
  | loadWhileBusy
  /-- Raised by a host read of OUT, or of a register but STATUS, while STATUS = BUSY
  (45_decoder_top.md R178). Safe. -/
  | readWhileBusy
  /-- Raised by a host read of TRACE_LOG when TRACE is false (60_exceptions.md R204). Safe. -/
  | noTracePort
  deriving DecidableEq, Repr

/-- The bit-level front end: the BitReader's buffer and cursor (10_state.md R21; 41_bitreader.md) and
the accumulator of one Decode (10_state.md R28). The decoder reads and writes this part only. -/
structure Front where
  /-- IN (20_memory.md R36). Its size is IN_LEN (00_scope.md R10). -/
  input : Memory
  /-- CUR_BYTE (10_state.md R21). -/
  curByte : Nat
  /-- CUR_BIT (10_state.md R21). -/
  curBit : Nat
  /-- ACC_CODE (10_state.md R28). -/
  accCode : Option Nat
  /-- ACC_LEN (10_state.md R28). -/
  accLen : Option Nat
  deriving DecidableEq, Repr

/-- The whole state of one engine instance (10_state.md R19), with its parameters beside it. -/
structure State extends Front where
  /-- OUT_CAP and TRACE, fixed for the life of the instance (70_reset_and_hazards.md R208). -/
  cfg : Config
  /-- OUT, the output memory and sliding window (20_memory.md R36, R40); ⊥ after an error
  (60_exceptions.md R198). -/
  out : Option Memory
  /-- PHASE (10_state.md R23). -/
  phase : Phase
  /-- BFINAL and BTYPE of the current block (10_state.md R24). -/
  bfinal : Option Nat
  btype : Option Nat
  /-- BLOCK_INDEX (10_state.md R25). -/
  blockIndex : Nat
  /-- LIT_TABLE and DIST_TABLE (10_state.md R26). -/
  litTable : Option HuffmanTable
  distTable : Option HuffmanTable
  /-- HLIT, HDIST, HCLEN, CL_LENS, CL_TABLE and LENS, the dynamic header (10_state.md R27). -/
  hlit : Option Nat
  hdist : Option Nat
  hclen : Option Nat
  clLens : Option (List Nat)
  clTable : Option HuffmanTable
  lens : Option (List Nat)
  /-- LENGTH and DISTANCE, the back-reference (10_state.md R29). -/
  length : Option Nat
  distance : Option Nat
  /-- STATUS, ERRCODE, ERR_BYTE, ERR_BIT, ERR_BLOCK, OUT_LEN and CONSUMED, the host-visible
  registers (10_state.md R30). -/
  status : Status
  errCode : ErrCode
  errByte : Option Nat
  errBit : Option Nat
  errBlock : Option Nat
  outLen : Option Nat
  consumed : Option Nat
  /-- TRACE_LOG, oldest event first (60_exceptions.md R204). -/
  traceLog : List TraceEvent
  deriving DecidableEq, Repr

/-- Every register at its reset value (10_state.md R35), over the given parameters and IN, which
RESET does not change (R35, 70_reset_and_hazards.md R206, R208). -/
def State.resetWith (cfg : Config) (input : Memory) : State where
  input := input
  curByte := 0
  curBit := 0
  accCode := none
  accLen := none
  cfg := cfg
  out := some []
  phase := .halt
  bfinal := none
  btype := none
  blockIndex := 0
  litTable := none
  distTable := none
  hlit := none
  hdist := none
  hclen := none
  clLens := none
  clTable := none
  lens := none
  length := none
  distance := none
  status := .idle
  errCode := .noError
  errByte := none
  errBit := none
  errBlock := none
  outLen := none
  consumed := none
  traceLog := []

/-- The machine right after reset, which is its state after power-on (70_reset_and_hazards.md R206),
with nothing in IN yet (notes/assumptions/6.md; DESIGN CHOICE, unsafe). -/
def State.reset : State := State.resetWith Config.powerOn []

end Sys2Proof.Machine
end

