-- ==== Sys2Proof/Machine/Huffman.lean ====
section
/-! DEFINITION. Canonical Huffman tables: Build and lookup (42_huffman.md R77 to R80), the two fixed
tables (R85, R86). -/

namespace Sys2Proof.Machine

/-- `bl_count[len]`: how many lengths of the list are `len`, zero lengths not counted (42_huffman.md
R78, step 1). -/
def blCount (lengths : List Nat) (len : Nat) : Nat := if len = 0 then 0 else lengths.count len

/-- The sum `Σ_{len=1..15} bl_count[len] << (15 - len)` (42_huffman.md R78, R79). -/
def kraftSum (lengths : List Nat) : Nat :=
  ((List.range maxCodeBits).map fun i => blCount lengths (i + 1) <<< (maxCodeBits - (i + 1))).sum

/-- `next_code[len]` before any code is assigned (42_huffman.md R78, step 2). -/
def nextCode (lengths : List Nat) : Nat → Nat
  | 0 => 0
  | len + 1 => (nextCode lengths len + blCount lengths len) <<< 1

/-- Step 3 of Build (42_huffman.md R78): the codes of the symbols `sym`, `sym + 1`, … whose lengths
are listed, with `next` the array `next_code[0 .. 15]` as it stands. -/
def assignCodes : List Nat → Nat → List Nat → List HuffEntry
  | [], _, _ => []
  | l :: ls, sym, next =>
    if l = 0 then assignCodes ls (sym + 1) next
    else
      { len := l, code := next.getD l 0, sym := sym }
        :: assignCodes ls (sym + 1) (next.set l (next.getD l 0 + 1))

/-- Build(L) (42_huffman.md R78): the table, or `none` where Build raises InvalidCodeLengths. -/
def build (lengths : List Nat) : Option HuffmanTable :=
  if lengths.any (fun l => decide (maxCodeBits < l)) then none
  else if 2 ^ maxCodeBits < kraftSum lengths then none
  else
    some
      { entries := assignCodes lengths 0 ((List.range (maxCodeBits + 1)).map (nextCode lengths)) }

/-- `T.lookup(len, code)` (42_huffman.md R77). -/
def HuffmanTable.lookup (T : HuffmanTable) (len code : Nat) : Option Nat :=
  (T.entries.find? fun e => e.len == len && e.code == code).map HuffEntry.sym

/-- The code (length, value) of a symbol, where it has one (42_huffman.md R77). -/
def HuffmanTable.codeOf (T : HuffmanTable) (sym : Nat) : Option (Nat × Nat) :=
  (T.entries.find? fun e => e.sym == sym).map fun e => (e.len, e.code)

/-- `n` entries for the consecutive symbols from `sym` on, of one length, with consecutive codes. -/
def codeRun : Nat → Nat → Nat → Nat → List HuffEntry
  | 0, _, _, _ => []
  | n + 1, len, code, sym =>
    { len := len, code := code, sym := sym } :: codeRun n len (code + 1) (sym + 1)

/-- FIXED_LIT, the fixed literal/length table, "embedded as a literal table" (42_huffman.md R87)
from the codes 30_encoding.md R65 lists. It is what Build makes of `fixedLitLengths` (R85). -/
def fixedLit : HuffmanTable :=
  { entries := codeRun 144 8 0x30 0 ++ codeRun 112 9 0x190 144 ++ codeRun 24 7 0 256
      ++ codeRun 8 8 0xC0 280 }

/-- FIXED_DIST, the fixed distance table (42_huffman.md R86, R87; 30_encoding.md R65). It is what
Build makes of `fixedDistLengths`. -/
def fixedDist : HuffmanTable := { entries := codeRun 32 5 0 0 }

end Sys2Proof.Machine
end

