-- ==== Sys2Proof/Machine/BitReader.lean ====
section
/-! DEFINITION. The BitReader (41_bitreader.md R70 to R76) and Decode (42_huffman.md R83) over the
front end, and the front end's bit stream as a reader of the spec sees it (00_scope.md R15). -/

namespace Sys2Proof.Machine

/-- What one front-end operation does: it gives a value and the front end after it; or it raises an
error, with the front end as it stands at the `raise`; or it stops by name. -/
inductive Read (α : Type) where
  | ok (a : α) (f : Front)
  | raised (e : ErrCode) (f : Front)
  | fault (r : Fault)
  | refused (r : Refusal)
  deriving DecidableEq, Repr

/-- Run `k` after an operation that gave a value; a raise or a stop ends the whole (00_scope.md
R18). -/
def Read.andThen {α β : Type} (r : Read α) (k : α → Front → Read β) : Read β :=
  match r with
  | .ok a f => k a f
  | .raised e f => .raised e f
  | .fault x => .fault x
  | .refused x => .refused x

/-- `8 * (IN_LEN - CUR_BYTE) - CUR_BIT`, the number of unread bits (10_state.md R22). -/
def Front.bitsRemaining (f : Front) : Nat := 8 * (f.input.size - f.curByte) - f.curBit

/-- The cursor after one more bit (41_bitreader.md R72). -/
def Front.nextBit (f : Front) : Front :=
  if f.curBit = 7 then { f with curByte := f.curByte + 1, curBit := 0 }
  else { f with curBit := f.curBit + 1 }

/-- ReadBit (41_bitreader.md R72). -/
def Front.readBit (f : Front) : Read Nat :=
  if f.bitsRemaining < 1 then .raised .unexpectedEof f
  else
    match f.input.read f.curByte with
    | none => .fault .inAddress
    | some b => .ok ((b.toNat >>> f.curBit) &&& 1) f.nextBit

/-- The loop of ReadBits (41_bitreader.md R73): `n` more bits, the next one of weight `2^i`, onto
`v`. -/
def Front.readBitsLoop : Nat → Nat → Nat → Front → Read Nat
  | 0, _, v, f => .ok v f
  | n + 1, i, v, f => f.readBit.andThen fun b g => Front.readBitsLoop n (i + 1) (v ||| (b <<< i)) g

/-- ReadBits(n) (41_bitreader.md R73): all or nothing (R71); n > 16 is refused. -/
def Front.readBits (n : Nat) (f : Front) : Read Nat :=
  if maxReadBits < n then .refused .readBitsTooWide
  else if f.bitsRemaining < n then .raised .unexpectedEof f
  else Front.readBitsLoop n 0 0 f

/-- AlignToByte (41_bitreader.md R74). -/
def Front.alignToByte (f : Front) : Front :=
  if f.curBit = 0 then f else { f with curByte := f.curByte + 1, curBit := 0 }

/-- BytesRemaining (41_bitreader.md R75). -/
def Front.bytesRemaining (f : Front) : Nat :=
  if f.curBit = 0 then f.input.size - f.curByte else f.input.size - f.curByte - 1

/-- The `n` bytes of a memory from address `a` on, or no value where one of them does not exist. -/
def Memory.slice (m : Memory) : Nat → Nat → Option (List Byte)
  | _, 0 => some []
  | a, n + 1 =>
    match m.read a, Memory.slice m (a + 1) n with
    | some b, some bs => some (b :: bs)
    | _, _ => none

/-- ReadRawBytes(n) (41_bitreader.md R76), run at a byte boundary: all or nothing. -/
def Front.readRawBytes (n : Nat) (f : Front) : Read (List Byte) :=
  if f.bytesRemaining < n then .raised .unexpectedEof f
  else
    match f.input.slice f.curByte n with
    | none => .fault .inAddress
    | some bs => .ok bs { f with curByte := f.curByte + n }

/-- The accumulator at ⊥, as it is between Decodes (10_state.md R28). -/
def Front.clearAcc (f : Front) : Front := { f with accCode := none, accLen := none }

/-- The loop of Decode(T) (42_huffman.md R83). `n` is 15 - ACC_LEN, so that `n = 0` is the rule's
test ACC_LEN = 15: no 16th bit is read. -/
def Front.decodeLoop (T : HuffmanTable) : Nat → Front → Read Nat
  | 0, f => .raised .invalidHuffmanCode f.clearAcc
  | n + 1, f =>
    f.readBit.andThen fun b g =>
      match g.accCode, g.accLen with
      | some c, some l =>
        match T.lookup (l + 1) ((c <<< 1) ||| b) with
        | some s => .ok s g.clearAcc
        | none =>
          Front.decodeLoop T n { g with accCode := some ((c <<< 1) ||| b), accLen := some (l + 1) }
      | _, _ => .fault (.noValue .accCode)

/-- Decode(T) (42_huffman.md R83). -/
def Front.decode (T : HuffmanTable) (f : Front) : Read Nat :=
  Front.decodeLoop T maxCodeBits { f with accCode := some 0, accLen := some 0 }

/-! The bit stream of a front end, in the spec's numbering. The operations above do not use these;
statements do. -/

/-- The number of the next stream bit, `8 * CUR_BYTE + CUR_BIT` (10_state.md R21). -/
def Front.pos (f : Front) : Nat := 8 * f.curByte + f.curBit

/-- The front end with its cursor `n` stream bits further on (10_state.md R21). -/
def Front.advance (n : Nat) (f : Front) : Front :=
  { f with curByte := (f.pos + n) / 8, curBit := (f.pos + n) % 8 }

/-- Stream bit `k`: bit `k mod 8` of input byte `k div 8` (00_scope.md R15); `false` where there is
no such byte. -/
def Front.streamBit (f : Front) (k : Nat) : Bool :=
  match f.input.read (k / 8) with
  | some b => b.getLsbD (k % 8)
  | none => false

/-- The unread bits in stream order (10_state.md R22, 00_scope.md R15). -/
def Front.unread (f : Front) : List Bool :=
  (List.range f.bitsRemaining).map fun i => f.streamBit (f.pos + i)

/-- The number a byte list spells, its first byte lowest: `Σ_j byte_j << (8 j)` (41_bitreader.md
R73). -/
def bytesToNat : List Byte → Nat
  | [] => 0
  | b :: bs => b.toNat + 256 * bytesToNat bs

/-- The next `n` stream bits as a number, its first bit lowest: the closed form of ReadBits(n)
(41_bitreader.md R73). -/
def Front.peek (n : Nat) (f : Front) : Nat := (bytesToNat f.input.bytes >>> f.pos) % 2 ^ n

/-- The cursor invariant (10_state.md R21) over an input memory in canonical form. -/
def Front.ok (f : Front) : Prop :=
  f.input.wf = true ∧ f.curByte ≤ f.input.size ∧ f.curBit < 8 ∧
    (f.curBit ≠ 0 → f.curByte < f.input.size)

end Sys2Proof.Machine
end

