-- ==== Sys2Proof/Syntax.lean ====
section
/-! DEFINITION. The elements of the compressed stream (30_encoding.md R66), one constructor for each
row of spec/opcode_table.json. An element holds what its row's own bits hold: BFINAL of a block
header, the byte of LIT, the length of CL_LEN. The ReadBits fields that follow a symbol are read by
the element's rule, because R96 and R107 put checks between them (notes/assumptions/7.md; DESIGN
CHOICE, safe). -/

namespace Sys2Proof

/-- One element, or sub-element, of a compressed stream. -/
inductive Instr where
  /-- BLOCK_STORED, H = `00f`, with f = BFINAL (44_block_decoder.md R103). -/
  | blockStored (bfinal : Nat)
  /-- BLOCK_FIXED, H = `01f` (R104). -/
  | blockFixed (bfinal : Nat)
  /-- BLOCK_DYNAMIC, H = `10f` (R105). -/
  | blockDynamic (bfinal : Nat)
  /-- BLOCK_RESERVED, H = `11f` (R106). -/
  | blockReserved (bfinal : Nat)
  /-- STORED_BODY, selected by PHASE = STORED (R107). -/
  | storedBody
  /-- FIXED_TABLES, selected by PHASE = FIXED, no bits (R108). -/
  | fixedTables
  /-- DYN_HEADER, selected by PHASE = DYNAMIC (43_dynamic_header.md R89). -/
  | dynHeader
  /-- LIT, literal/length symbols 0 .. 255 (44_block_decoder.md R110). -/
  | lit (sym : Nat)
  /-- EOB, literal/length symbol 256 (R111). -/
  | eob
  /-- LEN_257, literal/length symbol 257 (R117). -/
  | len257
  /-- LEN_258, literal/length symbol 258 (R118). -/
  | len258
  /-- LEN_259, literal/length symbol 259 (R119). -/
  | len259
  /-- LEN_260, literal/length symbol 260 (R120). -/
  | len260
  /-- LEN_261, literal/length symbol 261 (R121). -/
  | len261
  /-- LEN_262, literal/length symbol 262 (R122). -/
  | len262
  /-- LEN_263, literal/length symbol 263 (R123). -/
  | len263
  /-- LEN_264, literal/length symbol 264 (R124). -/
  | len264
  /-- LEN_265, literal/length symbol 265 (R125). -/
  | len265
  /-- LEN_266, literal/length symbol 266 (R126). -/
  | len266
  /-- LEN_267, literal/length symbol 267 (R127). -/
  | len267
  /-- LEN_268, literal/length symbol 268 (R128). -/
  | len268
  /-- LEN_269, literal/length symbol 269 (R129). -/
  | len269
  /-- LEN_270, literal/length symbol 270 (R130). -/
  | len270
  /-- LEN_271, literal/length symbol 271 (R131). -/
  | len271
  /-- LEN_272, literal/length symbol 272 (R132). -/
  | len272
  /-- LEN_273, literal/length symbol 273 (R133). -/
  | len273
  /-- LEN_274, literal/length symbol 274 (R134). -/
  | len274
  /-- LEN_275, literal/length symbol 275 (R135). -/
  | len275
  /-- LEN_276, literal/length symbol 276 (R136). -/
  | len276
  /-- LEN_277, literal/length symbol 277 (R137). -/
  | len277
  /-- LEN_278, literal/length symbol 278 (R138). -/
  | len278
  /-- LEN_279, literal/length symbol 279 (R139). -/
  | len279
  /-- LEN_280, literal/length symbol 280 (R140). -/
  | len280
  /-- LEN_281, literal/length symbol 281 (R141). -/
  | len281
  /-- LEN_282, literal/length symbol 282 (R142). -/
  | len282
  /-- LEN_283, literal/length symbol 283 (R143). -/
  | len283
  /-- LEN_284, literal/length symbol 284 (R144). -/
  | len284
  /-- LEN_285, literal/length symbol 285 (R145). -/
  | len285
  /-- LITLEN_RESERVED_286, literal/length symbol 286 (R112). -/
  | litlenReserved286
  /-- LITLEN_RESERVED_287, literal/length symbol 287 (R112). -/
  | litlenReserved287
  /-- DIST_0, distance symbol 0 (R146). -/
  | dist0
  /-- DIST_1, distance symbol 1 (R147). -/
  | dist1
  /-- DIST_2, distance symbol 2 (R148). -/
  | dist2
  /-- DIST_3, distance symbol 3 (R149). -/
  | dist3
  /-- DIST_4, distance symbol 4 (R150). -/
  | dist4
  /-- DIST_5, distance symbol 5 (R151). -/
  | dist5
  /-- DIST_6, distance symbol 6 (R152). -/
  | dist6
  /-- DIST_7, distance symbol 7 (R153). -/
  | dist7
  /-- DIST_8, distance symbol 8 (R154). -/
  | dist8
  /-- DIST_9, distance symbol 9 (R155). -/
  | dist9
  /-- DIST_10, distance symbol 10 (R156). -/
  | dist10
  /-- DIST_11, distance symbol 11 (R157). -/
  | dist11
  /-- DIST_12, distance symbol 12 (R158). -/
  | dist12
  /-- DIST_13, distance symbol 13 (R159). -/
  | dist13
  /-- DIST_14, distance symbol 14 (R160). -/
  | dist14
  /-- DIST_15, distance symbol 15 (R161). -/
  | dist15
  /-- DIST_16, distance symbol 16 (R162). -/
  | dist16
  /-- DIST_17, distance symbol 17 (R163). -/
  | dist17
  /-- DIST_18, distance symbol 18 (R164). -/
  | dist18
  /-- DIST_19, distance symbol 19 (R165). -/
  | dist19
  /-- DIST_20, distance symbol 20 (R166). -/
  | dist20
  /-- DIST_21, distance symbol 21 (R167). -/
  | dist21
  /-- DIST_22, distance symbol 22 (R168). -/
  | dist22
  /-- DIST_23, distance symbol 23 (R169). -/
  | dist23
  /-- DIST_24, distance symbol 24 (R170). -/
  | dist24
  /-- DIST_25, distance symbol 25 (R171). -/
  | dist25
  /-- DIST_26, distance symbol 26 (R172). -/
  | dist26
  /-- DIST_27, distance symbol 27 (R173). -/
  | dist27
  /-- DIST_28, distance symbol 28 (R174). -/
  | dist28
  /-- DIST_29, distance symbol 29 (R175). -/
  | dist29
  /-- DIST_RESERVED_30, distance symbol 30 (R116). -/
  | distReserved30
  /-- DIST_RESERVED_31, distance symbol 31 (R116). -/
  | distReserved31
  /-- CL_LEN, code-length symbols 0 .. 15 (43_dynamic_header.md R95). -/
  | clLen (len : Nat)
  /-- CL_REP16, code-length symbol 16 (R96). -/
  | clRep16
  /-- CL_ZERO17, code-length symbol 17 (R97). -/
  | clZero17
  /-- CL_ZERO18, code-length symbol 18 (R98). -/
  | clZero18
  deriving DecidableEq, Repr

end Sys2Proof
end

