-- ==== Sys2Proof/WellFormed.lean ====
section
/-! DEFINITION. Which elements a stream can hold: each operand in the range its field has
(30_encoding.md R62, R66). -/

namespace Sys2Proof

/-- An element whose operands are in range: BFINAL is one bit (30_encoding.md R56), a literal is a
symbol 0 .. 255 (44_block_decoder.md R110), a code length is 0 .. 15 (43_dynamic_header.md R95).
Every other element has no operand of its own and is well formed. -/
def Instr.wellFormed : Instr → Bool
  | .blockStored f | .blockFixed f | .blockDynamic f | .blockReserved f => decide (f ≤ 1)
  | .lit s => decide (s ≤ 255)
  | .clLen n => decide (n ≤ 15)
  | .storedBody | .fixedTables | .dynHeader | .eob => true
  | .len257 | .len258 | .len259 | .len260 | .len261 | .len262 | .len263 | .len264 => true
  | .len265 | .len266 | .len267 | .len268 | .len269 | .len270 | .len271 | .len272 => true
  | .len273 | .len274 | .len275 | .len276 | .len277 | .len278 | .len279 | .len280 => true
  | .len281 | .len282 | .len283 | .len284 | .len285 => true
  | .litlenReserved286 | .litlenReserved287 => true
  | .dist0 | .dist1 | .dist2 | .dist3 | .dist4 | .dist5 | .dist6 | .dist7 => true
  | .dist8 | .dist9 | .dist10 | .dist11 | .dist12 | .dist13 | .dist14 | .dist15 => true
  | .dist16 | .dist17 | .dist18 | .dist19 | .dist20 | .dist21 | .dist22 | .dist23 => true
  | .dist24 | .dist25 | .dist26 | .dist27 | .dist28 | .dist29 => true
  | .distReserved30 | .distReserved31 => true
  | .clRep16 | .clZero17 | .clZero18 => true

end Sys2Proof
end

