-- ==== Sys2Proof/Decode.lean ====
section
/-! DEFINITION. The decoder and, after it, the encoder (30_encoding.md).

What a bit string stands for depends on the alphabet in force, which PHASE and the tables choose and
the bits do not (30_encoding.md R66, R68): the decoder takes that choice as a `Selector`. It is total:
on any input it gives an element, raises one of the errors the spec names for the bits, or rejects a
symbol that the alphabet does not have by the name `symbolOutsideAlphabet`. -/

namespace Sys2Proof

open Sys2Proof.Machine

/-- What selects the next element: a PHASE, and for a symbol the table in force (30_encoding.md
R66). -/
inductive Selector where
  | header
  | storedBody
  | fixedTables
  | dynHeader
  | clSym (T : HuffmanTable)
  | litLen (T : HuffmanTable)
  | dist (T : HuffmanTable)
  deriving DecidableEq, Repr

/-- The place of an element in the opcode map (30_encoding.md R66): its alphabet and the number the
map matches on, H for a header (R56) and the symbol for the rest. -/
inductive OpcodeRow where
  | header (h : Nat)
  | storedBody
  | fixedTables
  | dynHeader
  | litLen (s : Nat)
  | dist (d : Nat)
  | clSym (c : Nat)
  deriving DecidableEq, Repr

/-- LEN_257 .. LEN_285 and the two reserved symbols, in symbol order (30_encoding.md R66). -/
def lengthInstrs : List Instr :=
  [.len257, .len258, .len259, .len260, .len261, .len262, .len263, .len264, .len265, .len266,
    .len267, .len268, .len269, .len270, .len271, .len272, .len273, .len274, .len275, .len276,
    .len277, .len278, .len279, .len280, .len281, .len282, .len283, .len284, .len285,
    .litlenReserved286, .litlenReserved287]

/-- DIST_0 .. DIST_29 and the two reserved symbols, in symbol order (30_encoding.md R66). -/
def distInstrs : List Instr :=
  [.dist0, .dist1, .dist2, .dist3, .dist4, .dist5, .dist6, .dist7, .dist8, .dist9, .dist10,
    .dist11, .dist12, .dist13, .dist14, .dist15, .dist16, .dist17, .dist18, .dist19, .dist20,
    .dist21, .dist22, .dist23, .dist24, .dist25, .dist26, .dist27, .dist28, .dist29,
    .distReserved30, .distReserved31]

/-- A block header from H = BFINAL + (BTYPE << 1) (30_encoding.md R56, R66; BTYPE read as the
ReadBits(2) value, notes/assumptions/14.md). -/
def headerInstr (h : Nat) : Option Instr :=
  match h / 2 with
  | 0 => some (.blockStored (h % 2))
  | 1 => some (.blockFixed (h % 2))
  | 2 => some (.blockDynamic (h % 2))
  | 3 => some (.blockReserved (h % 2))
  | _ => none

/-- The literal/length alphabet, symbols 0 .. 287 (30_encoding.md R66). -/
def litLenInstr (s : Nat) : Option Instr :=
  if s ≤ 255 then some (.lit s) else if s = 256 then some .eob else lengthInstrs[s - 257]?

/-- The distance alphabet, symbols 0 .. 31 (30_encoding.md R66). -/
def distInstr (d : Nat) : Option Instr := distInstrs[d]?

/-- The code-length alphabet, symbols 0 .. 18 (30_encoding.md R66). -/
def clInstr (c : Nat) : Option Instr :=
  if c ≤ 15 then some (.clLen c)
  else if c = 16 then some .clRep16
  else if c = 17 then some .clZero17
  else if c = 18 then some .clZero18
  else none

/-- The element at a place of the opcode map (30_encoding.md R66), or none where the map has none. -/
def OpcodeRow.instr : OpcodeRow → Option Instr
  | .header h => headerInstr h
  | .storedBody => some .storedBody
  | .fixedTables => some .fixedTables
  | .dynHeader => some .dynHeader
  | .litLen s => litLenInstr s
  | .dist d => distInstr d
  | .clSym c => clInstr c

/-- The bits that select an element: three header bits, read as BFINAL and then BTYPE
(44_block_decoder.md R102); one Huffman code under the table in force (42_huffman.md R83); none for a
body that PHASE alone selects (30_encoding.md R66). -/
def decodeRow : Selector → Front → Read OpcodeRow
  | .header, f =>
    (f.readBits 1).andThen fun bfinal f =>
      (f.readBits 2).andThen fun btype f => .ok (.header (bfinal + (btype <<< 1))) f
  | .storedBody, f => .ok .storedBody f
  | .fixedTables, f => .ok .fixedTables f
  | .dynHeader, f => .ok .dynHeader f
  | .clSym T, f => (f.decode T).andThen fun c f => .ok (.clSym c) f
  | .litLen T, f => (f.decode T).andThen fun s f => .ok (.litLen s) f
  | .dist T, f => (f.decode T).andThen fun d f => .ok (.dist d) f

/-- The element at the cursor, with the front end past its own bits. -/
def decodeAt (sel : Selector) (f : Front) : Read Instr :=
  (decodeRow sel f).andThen fun row f =>
    match row.instr with
    | some i => .ok i f
    | none => .fault .symbolOutsideAlphabet

/-! ## The encoder -/

/-- The place of each element in the opcode map (30_encoding.md R66). -/
def Instr.row : Instr → OpcodeRow
  | .blockStored f => .header (f + (0 <<< 1))
  | .blockFixed f => .header (f + (1 <<< 1))
  | .blockDynamic f => .header (f + (2 <<< 1))
  | .blockReserved f => .header (f + (3 <<< 1))
  | .storedBody => .storedBody
  | .fixedTables => .fixedTables
  | .dynHeader => .dynHeader
  | .lit s => .litLen s
  | .eob => .litLen 256
  | .len257 => .litLen 257
  | .len258 => .litLen 258
  | .len259 => .litLen 259
  | .len260 => .litLen 260
  | .len261 => .litLen 261
  | .len262 => .litLen 262
  | .len263 => .litLen 263
  | .len264 => .litLen 264
  | .len265 => .litLen 265
  | .len266 => .litLen 266
  | .len267 => .litLen 267
  | .len268 => .litLen 268
  | .len269 => .litLen 269
  | .len270 => .litLen 270
  | .len271 => .litLen 271
  | .len272 => .litLen 272
  | .len273 => .litLen 273
  | .len274 => .litLen 274
  | .len275 => .litLen 275
  | .len276 => .litLen 276
  | .len277 => .litLen 277
  | .len278 => .litLen 278
  | .len279 => .litLen 279
  | .len280 => .litLen 280
  | .len281 => .litLen 281
  | .len282 => .litLen 282
  | .len283 => .litLen 283
  | .len284 => .litLen 284
  | .len285 => .litLen 285
  | .litlenReserved286 => .litLen 286
  | .litlenReserved287 => .litLen 287
  | .dist0 => .dist 0
  | .dist1 => .dist 1
  | .dist2 => .dist 2
  | .dist3 => .dist 3
  | .dist4 => .dist 4
  | .dist5 => .dist 5
  | .dist6 => .dist 6
  | .dist7 => .dist 7
  | .dist8 => .dist 8
  | .dist9 => .dist 9
  | .dist10 => .dist 10
  | .dist11 => .dist 11
  | .dist12 => .dist 12
  | .dist13 => .dist 13
  | .dist14 => .dist 14
  | .dist15 => .dist 15
  | .dist16 => .dist 16
  | .dist17 => .dist 17
  | .dist18 => .dist 18
  | .dist19 => .dist 19
  | .dist20 => .dist 20
  | .dist21 => .dist 21
  | .dist22 => .dist 22
  | .dist23 => .dist 23
  | .dist24 => .dist 24
  | .dist25 => .dist 25
  | .dist26 => .dist 26
  | .dist27 => .dist 27
  | .dist28 => .dist 28
  | .dist29 => .dist 29
  | .distReserved30 => .dist 30
  | .distReserved31 => .dist 31
  | .clLen n => .clSym n
  | .clRep16 => .clSym 16
  | .clZero17 => .clSym 17
  | .clZero18 => .clSym 18

/-- An `n`-bit ReadBits field in stream order: its bit 0 first (20_memory.md R43). -/
def fieldBits (n v : Nat) : List Bool := (List.range n).map fun i => v.testBit i

/-- A Huffman code in stream order: its most significant bit first (20_memory.md R45; 00_scope.md
R16). -/
def codeBits (len code : Nat) : List Bool :=
  (List.range len).map fun i => code.testBit (len - 1 - i)

/-- The code of a symbol under a table, in stream order, where the symbol has one. -/
def symbolBits (T : HuffmanTable) (sym : Nat) : Option (List Bool) :=
  (T.codeOf sym).map fun (len, code) => codeBits len code

/-- The bits that select an element in its alphabet; none where the selector is of another alphabet
or the table in force has no code for the symbol. The ReadBits fields that may follow are
`fieldBits`. -/
def encode (sel : Selector) (i : Instr) : Option (List Bool) :=
  match sel, i.row with
  | .header, .header h => some (fieldBits 3 h)
  | .storedBody, .storedBody => some []
  | .fixedTables, .fixedTables => some []
  | .dynHeader, .dynHeader => some []
  | .clSym T, .clSym c => symbolBits T c
  | .litLen T, .litLen s => symbolBits T s
  | .dist T, .dist d => symbolBits T d
  | _, _ => none

/-- A bit list as a number, its first bit lowest. -/
def bitsToNat : List Bool → Nat
  | [] => 0
  | b :: bs => b.toNat + 2 * bitsToNat bs

/-- The first `n` bytes of a bit stream (00_scope.md R15), zero bits after its end. -/
def packBytes : Nat → List Bool → List Byte
  | 0, _ => []
  | n + 1, bits => BitVec.ofNat 8 (bitsToNat (bits.take 8)) :: packBytes n (bits.drop 8)

/-- A bit stream as the bytes that hold it (00_scope.md R15), zero bits up to the byte boundary. -/
def packBits (bits : List Bool) : List Byte := packBytes ((bits.length + 7) / 8) bits

/-- A front end at the start of a byte list (45_decoder_top.md R177). -/
def Front.atStart (bs : List Byte) : Front :=
  { input := Memory.ofBytes bs, curByte := 0, curBit := 0, accCode := none, accLen := none }

/-! ## Words of the opcode table

A row's match value is H or a symbol, and one value stands in several alphabets. A word is given to
the row whose match value it is; where several rows have that value, to the header's, else the
code-length alphabet's, else the distance alphabet's; a word of more than eight bits that no row has
as its match value is a LIT symbol (notes/assumptions/8.md; DESIGN CHOICE, safe: the engine does not
use these). A symbol is then laid out as its code under a table that has codes for its whole
alphabet. -/

/-- A code-length table with a 5-bit code for each of the 19 symbols. It is what Build makes of 19
lengths 5. -/
def flatClTable : HuffmanTable := { entries := codeRun 19 5 0 0 }

/-- The row a table word is given to. -/
def tableWordRow (nbits w : Nat) : Option OpcodeRow :=
  if 2 ^ nbits ≤ w then none
  else if nbits = 0 then some .fixedTables
  else if nbits ≤ 8 then
    if w = 0 ∨ w = 2 ∨ w = 4 ∨ w = 6 then some (.header w)
    else if w = 16 ∨ w = 17 ∨ w = 18 then some (.clSym w)
    else if w < 32 then some (.dist w)
    else none
  else if 18 ≤ w ∧ w ≤ 29 then some (.dist w)
  else if w < 288 then some (.litLen w)
  else none

/-- The selector of a row, with a table that has codes for its whole alphabet. -/
def OpcodeRow.selector : OpcodeRow → Selector
  | .header _ => .header
  | .storedBody => .storedBody
  | .fixedTables => .fixedTables
  | .dynHeader => .dynHeader
  | .litLen _ => .litLen fixedLit
  | .dist _ => .dist fixedDist
  | .clSym _ => .clSym flatClTable

/-- The stream bits of a row under `OpcodeRow.selector`. -/
def OpcodeRow.bits : OpcodeRow → List Bool
  | .header h => fieldBits 3 h
  | .storedBody => []
  | .fixedTables => []
  | .dynHeader => []
  | .litLen s => (symbolBits fixedLit s).getD []
  | .dist d => (symbolBits fixedDist d).getD []
  | .clSym c => (symbolBits flatClTable c).getD []

/-- The stream of a row's own bits, with zero bits for the fields that may follow: 16 bytes are more
than the longest of them. -/
def OpcodeRow.bytes (row : OpcodeRow) : List Byte := packBits row.bits ++ List.replicate 16 0

/-- The element the decoder reads from a word of the opcode table. -/
def decodeTableWord (nbits w : Nat) : Option Instr :=
  match tableWordRow nbits w with
  | none => none
  | some row =>
    match decodeAt row.selector (Front.atStart row.bytes) with
    | .ok i _ => some i
    | _ => none

end Sys2Proof
end

