-- ==== Sys2Proof/Machine/Ops.lean ====
section
/-! DEFINITION. The shared operations over the state: `raise`, the taking of an error (60_exceptions.md
R198); reads of the front end and of registers; MemRead and MemWrite of OUT (20_memory.md R38, R39);
the copy of a back-reference (44_block_decoder.md R115); the trace (60_exceptions.md R204). -/

namespace Sys2Proof.Machine

/-- What one operation inside an element does: it goes on with a value and a state, or the element
ends with the outcome of the whole step (00_scope.md R17, R18). -/
inductive OpRes (α : Type) where
  | done (a : α) (s : State)
  | stop (o : Host.Outcome State Fault Refusal)

/-- The next statement of a rule, run unless the element has ended (00_scope.md R18). -/
def OpRes.andThen {α β : Type} (r : OpRes α) (k : α → State → OpRes β) : OpRes β :=
  match r with
  | .done a s => k a s
  | .stop o => .stop o

/-- The end of a rule: the state it leaves is the step's next state. -/
def OpRes.outcome {α : Type} : OpRes α → Host.Outcome State Fault Refusal
  | .done _ s => .next s
  | .stop o => o

/-- The number of an error in ERRCODE (60_exceptions.md R188). -/
def ErrCode.code : ErrCode → Nat
  | .noError => 0
  | .unexpectedEof => 1
  | .reservedBlockType => 2
  | .storedLengthMismatch => 3
  | .invalidCodeLengths => 4
  | .invalidDynamicHeader => 5
  | .invalidHuffmanCode => 6
  | .invalidDistanceCode => 7
  | .invalidDistance => 8

/-- The value of STATUS (10_state.md R30). -/
def Status.code : Status → Nat
  | .idle => 0
  | .busy => 1
  | .done => 2
  | .error => 3

/-- `raise E` (60_exceptions.md R198): the one way an error is taken. There is no return from it
(R199). -/
def State.raise (e : ErrCode) (s : State) : State :=
  { s with
    errCode := e
    errByte := some s.curByte
    errBit := some s.curBit
    errBlock := some s.blockIndex
    out := none
    litTable := none
    distTable := none
    hlit := none
    hdist := none
    hclen := none
    clLens := none
    clTable := none
    lens := none
    accCode := none
    accLen := none
    length := none
    distance := none
    bfinal := none
    btype := none
    phase := .halt
    status := .error }

/-- The end of an element in a `raise`: a next state, with the error taken. -/
def raiseError {α : Type} (e : ErrCode) (s : State) : OpRes α := .stop (.next (s.raise e))

/-- The state with its front end replaced. -/
def State.withFront (s : State) (f : Front) : State := { s with toFront := f }

/-- An operation of the front end inside an element. A raise records the cursor as the operation left
it (60_exceptions.md R198; 42_huffman.md R84). -/
def liftRead {α : Type} (s : State) : Read α → OpRes α
  | .ok a f => .done a (s.withFront f)
  | .raised e f => raiseError e (s.withFront f)
  | .fault r => .stop (.fault r)
  | .refused r => .stop (.refused r)

/-- ReadBits(n) inside an element (41_bitreader.md R73). -/
def State.readBits (n : Nat) (s : State) : OpRes Nat := liftRead s (s.toFront.readBits n)

/-- ReadRawBytes(n) inside an element (41_bitreader.md R76). -/
def State.readRawBytes (n : Nat) (s : State) : OpRes (List Byte) :=
  liftRead s (s.toFront.readRawBytes n)

/-- The value of a register, or the fault of reading one at ⊥ (10_state.md R34). -/
def needReg {α : Type} (r : Reg) (v : Option α) (s : State) : OpRes α :=
  match v with
  | some a => .done a s
  | none => .stop (.fault (.noValue r))

/-- Whether a memory of `n` bytes is at OUT_CAP (00_scope.md R11). -/
def outFull (cfg : Config) (n : Nat) : Bool :=
  match cfg.outCap with
  | none => false
  | some cap => decide (cap ≤ n)

/-- `MemWrite(OUT, |out|, 1, v)` (20_memory.md R38): the byte is appended, or at OUT_CAP the engine is
stuck (00_scope.md R11; notes/assumptions/3.md). -/
def memWriteOut (v : Byte) (s : State) : OpRes Unit :=
  match s.out with
  | none => .stop (.fault (.noValue .out))
  | some m =>
    if outFull s.cfg m.size then .stop (.fault .outCapStuck)
    else .done () { s with out := some (m.append v) }

/-- `MemRead(OUT, a, 1)` (20_memory.md R39). -/
def memReadOut (a : Nat) (s : State) : OpRes Byte :=
  match s.out with
  | none => .stop (.fault (.noValue .out))
  | some m =>
    match m.read a with
    | none => .stop (.fault .outAddress)
    | some b => .done b s

/-- `|out|`, the number of bytes produced in this member (20_memory.md R41). -/
def outSize (s : State) : OpRes Nat :=
  match s.out with
  | none => .stop (.fault (.noValue .out))
  | some m => .done m.size s

/-- The bytes of a stored block, appended one at a time (44_block_decoder.md R107). -/
def appendBytes : List Byte → State → OpRes Unit
  | [], s => .done () s
  | b :: bs, s => (memWriteOut b s).andThen fun _ t => appendBytes bs t

/-- The copy of a back-reference (44_block_decoder.md R113, R115): `n` times, the byte `dist` before
the current end is appended, so that later reads see bytes of this same copy. -/
def copyBack : Nat → Nat → State → OpRes Unit
  | 0, _, s => .done () s
  | n + 1, dist, s =>
    (outSize s).andThen fun size s =>
      (memReadOut (size - dist) s).andThen fun b s =>
        (memWriteOut b s).andThen fun _ s => copyBack n dist s

/-- Build(L) inside an element (42_huffman.md R78): an over-subscribed list raises
InvalidCodeLengths. -/
def buildTable (lengths : List Nat) (s : State) : OpRes HuffmanTable :=
  match build lengths with
  | some T => .done T s
  | none => raiseError .invalidCodeLengths s

/-- The state with one more trace event, when TRACE is true (60_exceptions.md R204). -/
def State.traced (s : State) (e : TraceEvent) : State :=
  if s.cfg.trace then { s with traceLog := s.traceLog ++ [e] } else s

end Sys2Proof.Machine
end

