-- ==== Sys2Proof/Machine/Operands.lean ====
section
/-! DEFINITION. Operand assembly (30_encoding.md R62): every number an element reads after its own
bits. -/

namespace Sys2Proof.Machine

/-- `base + ReadBits(extra)`: a length, a distance, a count of a dynamic header or a repeat count
(30_encoding.md R62). -/
def readOffset (base extra : Nat) (s : State) : OpRes Nat :=
  (s.readBits extra).andThen fun x s => .done (base + x) s

/-- hlit, `ReadBits(5) + 257` (43_dynamic_header.md R90). -/
def readHlit (s : State) : OpRes Nat := readOffset 257 5 s

/-- hdist, `ReadBits(5) + 1` (43_dynamic_header.md R90). -/
def readHdist (s : State) : OpRes Nat := readOffset 1 5 s

/-- hclen, `ReadBits(4) + 4` (43_dynamic_header.md R90). -/
def readHclen (s : State) : OpRes Nat := readOffset 4 4 s

/-- One code length of the code-length alphabet, `ReadBits(3)` (43_dynamic_header.md R92). -/
def readClLength (s : State) : OpRes Nat := s.readBits 3

/-- LEN or NLEN, `ReadBits(16)` at a byte boundary: `low + (high << 8)` (20_memory.md R44,
70_reset_and_hazards.md R213). -/
def readLen16 (s : State) : OpRes Nat := s.readBits 16

/-- `~16(v)`, the 16-bit complement, `v xor 0xFFFF` (00_scope.md R14). -/
def complement16 (v : Nat) : Nat := v ^^^ 0xFFFF

/-- A literal as a byte: the symbol value itself (44_block_decoder.md R110). -/
def literalByte (sym : Nat) : Byte := BitVec.ofNat 8 sym

end Sys2Proof.Machine
end

