-- ==== Sys2Proof/Machine/DynHeader.lean ====
section
/-! DEFINITION. The dynamic block header and its code-length symbols (43_dynamic_header.md). The
element DYN_HEADER reads the counts and makes CL_TABLE; each code-length symbol is a step of its own;
`dynEnd` makes the two tables once LENS is complete (notes/assumptions/1.md). -/

namespace Sys2Proof.Machine

/-- The three counts (43_dynamic_header.md R90), written as they are read, then traced
(60_exceptions.md R204), with CL_LENS at its 19 zeros (R92). The value is HCLEN. -/
def readCounts (s : State) : OpRes Nat :=
  (readHlit s).andThen fun a s =>
    (readHdist { s with hlit := some a }).andThen fun b s =>
      (readHclen { s with hdist := some b }).andThen fun c s =>
        .done c
          (({ s with hclen := some c, clLens := some (List.replicate clSymbols 0) }).traced
            (.dyn s.blockIndex a b c))

/-- The code lengths of the code-length alphabet (43_dynamic_header.md R92): one 3-bit value for each
listed CL symbol, placed in CL_LENS. -/
def readClLens : List Nat → State → OpRes Unit
  | [], s => .done () s
  | sym :: rest, s =>
    (readClLength s).andThen fun v s =>
      (needReg .clLens s.clLens s).andThen fun L s =>
        readClLens rest { s with clLens := some (L.set sym v) }

/-- DYN_HEADER (43_dynamic_header.md R89), from the three counts (R90) to CL_TABLE (R93) and the empty
LENS (R94). -/
def execDynHeader (s : State) : Host.Outcome State Fault Refusal :=
  ((readCounts s).andThen fun c s =>
    (readClLens (clOrder.take c) s).andThen fun _ s =>
      (needReg .clLens s.clLens s).andThen fun L s =>
        (buildTable L s).andThen fun T s =>
          .done () { s with clTable := some T, lens := some [] }).outcome

/-- HLIT + HDIST, the number of code lengths of the sequence (43_dynamic_header.md R94). -/
def lensTotal (s : State) : OpRes Nat :=
  (needReg .hlit s.hlit s).andThen fun a s =>
    (needReg .hdist s.hdist s).andThen fun b s => .done (a + b) s

/-- A run of `r` code lengths `v` (43_dynamic_header.md R96, R97, R98): an overshoot raises
InvalidDynamicHeader before any of the run is appended (R99). -/
def appendRun (r v : Nat) (s : State) : OpRes Unit :=
  (lensTotal s).andThen fun total s =>
    (needReg .lens s.lens s).andThen fun L s =>
      if total < L.length + r then raiseError .invalidDynamicHeader s
      else .done () { s with lens := some (L ++ List.replicate r v) }

/-- CL_LEN (43_dynamic_header.md R95). -/
def execClLen (len : Nat) (s : State) : Host.Outcome State Fault Refusal :=
  ((needReg .lens s.lens s).andThen fun L s =>
    .done () { s with lens := some (L ++ [len]) }).outcome

/-- CL_REP16 (43_dynamic_header.md R96): with no previous length it raises before its two extra bits
are read. -/
def execClRep16 (s : State) : Host.Outcome State Fault Refusal :=
  ((needReg .lens s.lens s).andThen fun L s =>
    match L.getLast? with
    | none => raiseError .invalidDynamicHeader s
    | some v => (readOffset 3 2 s).andThen fun r s => appendRun r v s).outcome

/-- CL_ZERO17 (43_dynamic_header.md R97). -/
def execClZero17 (s : State) : Host.Outcome State Fault Refusal :=
  ((readOffset 3 3 s).andThen fun r s => appendRun r 0 s).outcome

/-- CL_ZERO18 (43_dynamic_header.md R98). -/
def execClZero18 (s : State) : Host.Outcome State Fault Refusal :=
  ((readOffset 11 7 s).andThen fun r s => appendRun r 0 s).outcome

/-- The end of DYN_HEADER (43_dynamic_header.md R89, R100): the two tables, literal/length first; the
dynamic header registers back to ⊥ (10_state.md R27); PHASE DECODING. -/
def dynEnd (s : State) : Host.Outcome State Fault Refusal :=
  ((needReg .hlit s.hlit s).andThen fun a s =>
    (needReg .hdist s.hdist s).andThen fun b s =>
      (needReg .lens s.lens s).andThen fun L s =>
        (buildTable (L.take a) s).andThen fun lit s =>
          (buildTable ((L.drop a).take b) s).andThen fun dist s =>
            .done ()
              { s with
                litTable := some lit
                distTable := some dist
                hlit := none
                hdist := none
                hclen := none
                clLens := none
                clTable := none
                lens := none
                phase := .decoding }).outcome

end Sys2Proof.Machine
end

