-- ==== Sys2Proof/Machine/Flags.lean ====
section
/-! DEFINITION. The flags: BFINAL, "the engine's only flag in the sense of a condition code", and
BTYPE beside it (10_state.md R24). They are written by the block header rule only and read at
BLOCK_DONE only. -/

namespace Sys2Proof.Machine

/-- The effect of a block header on BFINAL, BTYPE and the trace (44_block_decoder.md R102). -/
def State.setHeader (bfinal btype : Nat) (s : State) : State :=
  ({ s with bfinal := some bfinal, btype := some btype }).traced
    (.hdr s.blockIndex bfinal btype)

/-- The test of BFINAL at BLOCK_DONE (45_decoder_top.md R181). -/
def testFinal (s : State) : OpRes Bool :=
  (needReg .bfinal s.bfinal s).andThen fun f s => .done (f == 1) s

end Sys2Proof.Machine
end

