-- ==== Sys2Proof/Machine/Control.lean ====
section
/-! DEFINITION. The dispatcher (45_decoder_top.md R180): what the next step is, the fetch of an
element, and the steps that are no element, BlockDone and Finish (R181, R182). -/

namespace Sys2Proof.Machine

/-- What a step does. -/
inductive Action where
  /-- It decodes an element and runs it. -/
  | element (sel : Selector)
  /-- It ends a dynamic header, whose LENS is complete (43_dynamic_header.md R89, R94). -/
  | dynEnd
  /-- It runs BlockDone (45_decoder_top.md R181). -/
  | blockDone
  /-- The engine has no step (45_decoder_top.md R183). -/
  | noStep
  /-- It reads a register at ⊥ (10_state.md R34). -/
  | bottom (r : Reg)
  deriving DecidableEq, Repr

/-- A symbol under the table in force, which must have a value (10_state.md R34). -/
def symbolUnder (r : Reg) (T : Option HuffmanTable) (sel : HuffmanTable → Selector) : Action :=
  match T with
  | some T => .element (sel T)
  | none => .bottom r

/-- The action in PHASE DYNAMIC (43_dynamic_header.md R89): the header while CL_TABLE is ⊥, then the
code-length symbols while |LENS| < HLIT + HDIST, then the end of the header
(notes/assumptions/1.md). -/
def State.dynamicAction (s : State) : Action :=
  match s.clTable with
  | none => .element .dynHeader
  | some T =>
    match s.hlit, s.hdist, s.lens with
    | some a, some b, some L => if L.length < a + b then .element (.clSym T) else .dynEnd
    | none, _, _ => .bottom .hlit
    | _, none, _ => .bottom .hdist
    | _, _, none => .bottom .lens

/-- The action in PHASE DECODING (44_block_decoder.md R109, R113): a literal/length symbol while
LENGTH is ⊥, else the distance symbol that completes the back-reference
(notes/assumptions/1.md). -/
def State.decodingAction (s : State) : Action :=
  match s.length with
  | none => symbolUnder .litTable s.litTable .litLen
  | some _ => symbolUnder .distTable s.distTable .dist

/-- The dispatcher (45_decoder_top.md R180): while STATUS = BUSY, PHASE chooses. -/
def State.action (s : State) : Action :=
  match s.status with
  | .idle | .done | .error => .noStep
  | .busy =>
    match s.phase with
    | .readHeader => .element .header
    | .stored => .element .storedBody
    | .fixed => .element .fixedTables
    | .dynamic => s.dynamicAction
    | .decoding => s.decodingAction
    | .blockDone => .blockDone
    | .halt => .noStep

/-- The element at the cursor. An error of the decoder is taken (60_exceptions.md R198). -/
def fetch (sel : Selector) (s : State) : OpRes Instr := liftRead s (decodeAt sel s.toFront)

/-- Finish (45_decoder_top.md R182). -/
def finish (s : State) : OpRes Unit :=
  (outSize s).andThen fun n s =>
    .done ()
      { s with
        outLen := some n
        consumed := some (s.curByte + if s.curBit ≠ 0 then 1 else 0)
        phase := .halt
        status := .done }

/-- BlockDone (45_decoder_top.md R181). -/
def blockDone (s : State) : Host.Outcome State Fault Refusal :=
  ((testFinal { s with litTable := none, distTable := none }).andThen fun final s =>
    if final then finish s
    else .done () { s with blockIndex := s.blockIndex + 1, phase := .readHeader }).outcome

/-- The state set up so that its next step decodes a row's bits and runs its element: STATUS and
PHASE, the cursor at the start of an IN that holds the bits, and the table and registers that the
dispatcher and the decoder look at (notes/assumptions/9.md). -/
def State.placeRow (row : OpcodeRow) (s : State) : State :=
  let s :=
    { s.withFront { Front.atStart row.bytes with accCode := s.accCode, accLen := s.accLen } with
      status := .busy }
  match row with
  | .header _ => { s with phase := .readHeader }
  | .storedBody => { s with phase := .stored }
  | .fixedTables => { s with phase := .fixed }
  | .dynHeader => { s with phase := .dynamic, clTable := none }
  | .litLen _ => { s with phase := .decoding, length := none, litTable := some fixedLit }
  | .dist _ =>
    { s with
      phase := .decoding
      length := some (s.length.getD minMatch)
      distTable := some fixedDist }
  | .clSym _ =>
    { s with
      phase := .dynamic
      clTable := some flatClTable
      hlit := some 257
      hdist := some 1
      lens := some [] }

end Sys2Proof.Machine
end

