-- ==== Sys2Proof/Machine/Block.lean ====
section
/-! DEFINITION. The block headers, the stored body and the fixed tables (44_block_decoder.md R102 to
R108). The bits of a header have been read by the decoder when its element runs. -/

namespace Sys2Proof.Machine

/-- The block header rule (44_block_decoder.md R102) for a block type that has a body: BFINAL and
BTYPE are written, the header is traced, PHASE selects the body. -/
def startBody (bfinal btype : Nat) (body : Phase) (s : State) :
    Host.Outcome State Fault Refusal :=
  .next { s.setHeader bfinal btype with phase := body }

/-- BLOCK_STORED (44_block_decoder.md R103). -/
def execBlockStored (bfinal : Nat) (s : State) : Host.Outcome State Fault Refusal :=
  startBody bfinal 0 .stored s

/-- BLOCK_FIXED (44_block_decoder.md R104). -/
def execBlockFixed (bfinal : Nat) (s : State) : Host.Outcome State Fault Refusal :=
  startBody bfinal 1 .fixed s

/-- BLOCK_DYNAMIC (44_block_decoder.md R105). -/
def execBlockDynamic (bfinal : Nat) (s : State) : Host.Outcome State Fault Refusal :=
  startBody bfinal 2 .dynamic s

/-- BLOCK_RESERVED (44_block_decoder.md R106): ReservedBlockType, after the trace event of R102 and
with the cursor just after the three header bits. -/
def execBlockReserved (bfinal : Nat) (s : State) : Host.Outcome State Fault Refusal :=
  .next ((s.setHeader bfinal 3).raise .reservedBlockType)

/-- STORED_BODY (44_block_decoder.md R107). -/
def execStoredBody (s : State) : Host.Outcome State Fault Refusal :=
  ((readLen16 (s.withFront s.toFront.alignToByte)).andThen fun len s =>
    (readLen16 s).andThen fun nlen s =>
      if nlen ≠ complement16 len then raiseError .storedLengthMismatch s
      else
        (s.readRawBytes len).andThen fun bs s =>
          (appendBytes bs s).andThen fun _ s => .done () { s with phase := .blockDone }).outcome

/-- FIXED_TABLES (44_block_decoder.md R108). -/
def execFixedTables (s : State) : Host.Outcome State Fault Refusal :=
  .next { s with litTable := some fixedLit, distTable := some fixedDist, phase := .decoding }

end Sys2Proof.Machine
end

