-- ==== Sys2Proof/Machine/Distance.lean ====
section
/-! DEFINITION. The 30 distance symbols and the two reserved ones (44_block_decoder.md R113 to R116,
R146 to R175). -/

namespace Sys2Proof.Machine

/-- The distance part of BackRef (44_block_decoder.md R113): `DISTANCE <- base + ReadBits(extra)`; the
bound (R114); the copy of LENGTH bytes (R115); LENGTH and DISTANCE back to ⊥. -/
def distanceSymbol (base extra : Nat) (s : State) : Host.Outcome State Fault Refusal :=
  ((readOffset base extra s).andThen fun d s =>
    (outSize { s with distance := some d }).andThen fun size s =>
      if size < d then raiseError .invalidDistance s
      else
        (needReg .length s.length s).andThen fun n s =>
          (copyBack n d s).andThen fun _ s =>
            .done () { s with length := none, distance := none }).outcome

/-- DIST_0 (44_block_decoder.md R146): B = 1, E = 0. -/
def execDist0 (s : State) : Host.Outcome State Fault Refusal := distanceSymbol 1 0 s

/-- DIST_1 (44_block_decoder.md R147): B = 2, E = 0. -/
def execDist1 (s : State) : Host.Outcome State Fault Refusal := distanceSymbol 2 0 s

/-- DIST_2 (44_block_decoder.md R148): B = 3, E = 0. -/
def execDist2 (s : State) : Host.Outcome State Fault Refusal := distanceSymbol 3 0 s

/-- DIST_3 (44_block_decoder.md R149): B = 4, E = 0. -/
def execDist3 (s : State) : Host.Outcome State Fault Refusal := distanceSymbol 4 0 s

/-- DIST_4 (44_block_decoder.md R150): B = 5, E = 1. -/
def execDist4 (s : State) : Host.Outcome State Fault Refusal := distanceSymbol 5 1 s

/-- DIST_5 (44_block_decoder.md R151): B = 7, E = 1. -/
def execDist5 (s : State) : Host.Outcome State Fault Refusal := distanceSymbol 7 1 s

/-- DIST_6 (44_block_decoder.md R152): B = 9, E = 2. -/
def execDist6 (s : State) : Host.Outcome State Fault Refusal := distanceSymbol 9 2 s

/-- DIST_7 (44_block_decoder.md R153): B = 13, E = 2. -/
def execDist7 (s : State) : Host.Outcome State Fault Refusal := distanceSymbol 13 2 s

/-- DIST_8 (44_block_decoder.md R154): B = 17, E = 3. -/
def execDist8 (s : State) : Host.Outcome State Fault Refusal := distanceSymbol 17 3 s

/-- DIST_9 (44_block_decoder.md R155): B = 25, E = 3. -/
def execDist9 (s : State) : Host.Outcome State Fault Refusal := distanceSymbol 25 3 s

/-- DIST_10 (44_block_decoder.md R156): B = 33, E = 4. -/
def execDist10 (s : State) : Host.Outcome State Fault Refusal := distanceSymbol 33 4 s

/-- DIST_11 (44_block_decoder.md R157): B = 49, E = 4. -/
def execDist11 (s : State) : Host.Outcome State Fault Refusal := distanceSymbol 49 4 s

/-- DIST_12 (44_block_decoder.md R158): B = 65, E = 5. -/
def execDist12 (s : State) : Host.Outcome State Fault Refusal := distanceSymbol 65 5 s

/-- DIST_13 (44_block_decoder.md R159): B = 97, E = 5. -/
def execDist13 (s : State) : Host.Outcome State Fault Refusal := distanceSymbol 97 5 s

/-- DIST_14 (44_block_decoder.md R160): B = 129, E = 6. -/
def execDist14 (s : State) : Host.Outcome State Fault Refusal := distanceSymbol 129 6 s

/-- DIST_15 (44_block_decoder.md R161): B = 193, E = 6. -/
def execDist15 (s : State) : Host.Outcome State Fault Refusal := distanceSymbol 193 6 s

/-- DIST_16 (44_block_decoder.md R162): B = 257, E = 7. -/
def execDist16 (s : State) : Host.Outcome State Fault Refusal := distanceSymbol 257 7 s

/-- DIST_17 (44_block_decoder.md R163): B = 385, E = 7. -/
def execDist17 (s : State) : Host.Outcome State Fault Refusal := distanceSymbol 385 7 s

/-- DIST_18 (44_block_decoder.md R164): B = 513, E = 8. -/
def execDist18 (s : State) : Host.Outcome State Fault Refusal := distanceSymbol 513 8 s

/-- DIST_19 (44_block_decoder.md R165): B = 769, E = 8. -/
def execDist19 (s : State) : Host.Outcome State Fault Refusal := distanceSymbol 769 8 s

/-- DIST_20 (44_block_decoder.md R166): B = 1025, E = 9. -/
def execDist20 (s : State) : Host.Outcome State Fault Refusal := distanceSymbol 1025 9 s

/-- DIST_21 (44_block_decoder.md R167): B = 1537, E = 9. -/
def execDist21 (s : State) : Host.Outcome State Fault Refusal := distanceSymbol 1537 9 s

/-- DIST_22 (44_block_decoder.md R168): B = 2049, E = 10. -/
def execDist22 (s : State) : Host.Outcome State Fault Refusal := distanceSymbol 2049 10 s

/-- DIST_23 (44_block_decoder.md R169): B = 3073, E = 10. -/
def execDist23 (s : State) : Host.Outcome State Fault Refusal := distanceSymbol 3073 10 s

/-- DIST_24 (44_block_decoder.md R170): B = 4097, E = 11. -/
def execDist24 (s : State) : Host.Outcome State Fault Refusal := distanceSymbol 4097 11 s

/-- DIST_25 (44_block_decoder.md R171): B = 6145, E = 11. -/
def execDist25 (s : State) : Host.Outcome State Fault Refusal := distanceSymbol 6145 11 s

/-- DIST_26 (44_block_decoder.md R172): B = 8193, E = 12. -/
def execDist26 (s : State) : Host.Outcome State Fault Refusal := distanceSymbol 8193 12 s

/-- DIST_27 (44_block_decoder.md R173): B = 12289, E = 12. -/
def execDist27 (s : State) : Host.Outcome State Fault Refusal := distanceSymbol 12289 12 s

/-- DIST_28 (44_block_decoder.md R174): B = 16385, E = 13. -/
def execDist28 (s : State) : Host.Outcome State Fault Refusal := distanceSymbol 16385 13 s

/-- DIST_29 (44_block_decoder.md R175): B = 24577, E = 13. -/
def execDist29 (s : State) : Host.Outcome State Fault Refusal := distanceSymbol 24577 13 s

/-- DIST_RESERVED_30 (44_block_decoder.md R116). -/
def execDistReserved30 (s : State) : Host.Outcome State Fault Refusal :=
  .next (s.raise .invalidDistanceCode)

/-- DIST_RESERVED_31 (44_block_decoder.md R116). -/
def execDistReserved31 (s : State) : Host.Outcome State Fault Refusal :=
  .next (s.raise .invalidDistanceCode)

end Sys2Proof.Machine
end

