-- ==== Sys2Proof/Machine/Length.lean ====
section
/-! DEFINITION. The 29 length symbols (44_block_decoder.md R113, R117 to R145): each writes LENGTH,
and the distance symbol that follows is the next step (notes/assumptions/1.md). -/

namespace Sys2Proof.Machine

/-- The length part of BackRef (44_block_decoder.md R113): `LENGTH <- base + ReadBits(extra)`. -/
def lengthSymbol (base extra : Nat) (s : State) : Host.Outcome State Fault Refusal :=
  ((readOffset base extra s).andThen fun n s => .done () { s with length := some n }).outcome

/-- LEN_257 (44_block_decoder.md R117): B = 3, E = 0. -/
def execLen257 (s : State) : Host.Outcome State Fault Refusal := lengthSymbol 3 0 s

/-- LEN_258 (44_block_decoder.md R118): B = 4, E = 0. -/
def execLen258 (s : State) : Host.Outcome State Fault Refusal := lengthSymbol 4 0 s

/-- LEN_259 (44_block_decoder.md R119): B = 5, E = 0. -/
def execLen259 (s : State) : Host.Outcome State Fault Refusal := lengthSymbol 5 0 s

/-- LEN_260 (44_block_decoder.md R120): B = 6, E = 0. -/
def execLen260 (s : State) : Host.Outcome State Fault Refusal := lengthSymbol 6 0 s

/-- LEN_261 (44_block_decoder.md R121): B = 7, E = 0. -/
def execLen261 (s : State) : Host.Outcome State Fault Refusal := lengthSymbol 7 0 s

/-- LEN_262 (44_block_decoder.md R122): B = 8, E = 0. -/
def execLen262 (s : State) : Host.Outcome State Fault Refusal := lengthSymbol 8 0 s

/-- LEN_263 (44_block_decoder.md R123): B = 9, E = 0. -/
def execLen263 (s : State) : Host.Outcome State Fault Refusal := lengthSymbol 9 0 s

/-- LEN_264 (44_block_decoder.md R124): B = 10, E = 0. -/
def execLen264 (s : State) : Host.Outcome State Fault Refusal := lengthSymbol 10 0 s

/-- LEN_265 (44_block_decoder.md R125): B = 11, E = 1. -/
def execLen265 (s : State) : Host.Outcome State Fault Refusal := lengthSymbol 11 1 s

/-- LEN_266 (44_block_decoder.md R126): B = 13, E = 1. -/
def execLen266 (s : State) : Host.Outcome State Fault Refusal := lengthSymbol 13 1 s

/-- LEN_267 (44_block_decoder.md R127): B = 15, E = 1. -/
def execLen267 (s : State) : Host.Outcome State Fault Refusal := lengthSymbol 15 1 s

/-- LEN_268 (44_block_decoder.md R128): B = 17, E = 1. -/
def execLen268 (s : State) : Host.Outcome State Fault Refusal := lengthSymbol 17 1 s

/-- LEN_269 (44_block_decoder.md R129): B = 19, E = 2. -/
def execLen269 (s : State) : Host.Outcome State Fault Refusal := lengthSymbol 19 2 s

/-- LEN_270 (44_block_decoder.md R130): B = 23, E = 2. -/
def execLen270 (s : State) : Host.Outcome State Fault Refusal := lengthSymbol 23 2 s

/-- LEN_271 (44_block_decoder.md R131): B = 27, E = 2. -/
def execLen271 (s : State) : Host.Outcome State Fault Refusal := lengthSymbol 27 2 s

/-- LEN_272 (44_block_decoder.md R132): B = 31, E = 2. -/
def execLen272 (s : State) : Host.Outcome State Fault Refusal := lengthSymbol 31 2 s

/-- LEN_273 (44_block_decoder.md R133): B = 35, E = 3. -/
def execLen273 (s : State) : Host.Outcome State Fault Refusal := lengthSymbol 35 3 s

/-- LEN_274 (44_block_decoder.md R134): B = 43, E = 3. -/
def execLen274 (s : State) : Host.Outcome State Fault Refusal := lengthSymbol 43 3 s

/-- LEN_275 (44_block_decoder.md R135): B = 51, E = 3. -/
def execLen275 (s : State) : Host.Outcome State Fault Refusal := lengthSymbol 51 3 s

/-- LEN_276 (44_block_decoder.md R136): B = 59, E = 3. -/
def execLen276 (s : State) : Host.Outcome State Fault Refusal := lengthSymbol 59 3 s

/-- LEN_277 (44_block_decoder.md R137): B = 67, E = 4. -/
def execLen277 (s : State) : Host.Outcome State Fault Refusal := lengthSymbol 67 4 s

/-- LEN_278 (44_block_decoder.md R138): B = 83, E = 4. -/
def execLen278 (s : State) : Host.Outcome State Fault Refusal := lengthSymbol 83 4 s

/-- LEN_279 (44_block_decoder.md R139): B = 99, E = 4. -/
def execLen279 (s : State) : Host.Outcome State Fault Refusal := lengthSymbol 99 4 s

/-- LEN_280 (44_block_decoder.md R140): B = 115, E = 4. -/
def execLen280 (s : State) : Host.Outcome State Fault Refusal := lengthSymbol 115 4 s

/-- LEN_281 (44_block_decoder.md R141): B = 131, E = 5. -/
def execLen281 (s : State) : Host.Outcome State Fault Refusal := lengthSymbol 131 5 s

/-- LEN_282 (44_block_decoder.md R142): B = 163, E = 5. -/
def execLen282 (s : State) : Host.Outcome State Fault Refusal := lengthSymbol 163 5 s

/-- LEN_283 (44_block_decoder.md R143): B = 195, E = 5. -/
def execLen283 (s : State) : Host.Outcome State Fault Refusal := lengthSymbol 195 5 s

/-- LEN_284 (44_block_decoder.md R144): B = 227, E = 5. -/
def execLen284 (s : State) : Host.Outcome State Fault Refusal := lengthSymbol 227 5 s

/-- LEN_285 (44_block_decoder.md R145): B = 258, E = 0. -/
def execLen285 (s : State) : Host.Outcome State Fault Refusal := lengthSymbol 258 0 s

end Sys2Proof.Machine
end

