-- ==== Sys2Proof/Machine/Symbol.lean ====
section
/-! DEFINITION. The literal, the end of block and the two reserved literal/length symbols
(44_block_decoder.md R110 to R112). -/

namespace Sys2Proof.Machine

/-- LIT (44_block_decoder.md R110). -/
def execLit (sym : Nat) (s : State) : Host.Outcome State Fault Refusal :=
  (memWriteOut (literalByte sym) s).outcome

/-- EOB (44_block_decoder.md R111). -/
def execEob (s : State) : Host.Outcome State Fault Refusal := .next { s with phase := .blockDone }

/-- LITLEN_RESERVED_286 (44_block_decoder.md R112). -/
def execLitlenReserved286 (s : State) : Host.Outcome State Fault Refusal :=
  .next (s.raise .invalidHuffmanCode)

/-- LITLEN_RESERVED_287 (44_block_decoder.md R112). -/
def execLitlenReserved287 (s : State) : Host.Outcome State Fault Refusal :=
  .next (s.raise .invalidHuffmanCode)

end Sys2Proof.Machine
end

