-- ==== Sys2Proof/Machine/Step.lean ====
section
/-! DEFINITION. One step of the engine (00_scope.md R9, 45_decoder_top.md R180), at the granularity of
one decoded element or sub-element (notes/assumptions/1.md). -/

namespace Sys2Proof.Machine

/-- One step: fetch and run an element, or end a dynamic header, or BlockDone; a halted engine has
no step and stays as it is (45_decoder_top.md R183; notes/assumptions/2.md). -/
def step (s : State) : Host.Outcome State Fault Refusal :=
  match s.action with
  | .element sel =>
    match fetch sel s with
    | .done i t => exec i t
    | .stop o => o
  | .dynEnd => dynEnd s
  | .blockDone => blockDone s
  | .noStep => .next s
  | .bottom r => .fault (.noValue r)

/-- The state whose next step decodes and runs the instruction of an opcode table word
(notes/assumptions/8.md, 9.md). -/
def State.withFetchWord (s : State) (nbits w : Nat) : State :=
  match tableWordRow nbits w with
  | some row => s.placeRow row
  | none => s

end Sys2Proof.Machine
end

