-- ==== Sys2Proof/Machine/Assembly.lean ====
section
/-! DEFINITION. The stream assembly notation (30_encoding.md R69): its statements and the bits they
stand for. The engine does not use it; streams are written in it. -/

namespace Sys2Proof.Machine

/-- The block types of `BLOCK` (30_encoding.md R69). -/
inductive AsmBlockType where
  | stored
  | fixed
  | dynamic
  | reserved
  deriving DecidableEq, Repr

/-- The BTYPE value of a block type (30_encoding.md R56). -/
def AsmBlockType.btype : AsmBlockType → Nat
  | .stored => 0
  | .fixed => 1
  | .dynamic => 2
  | .reserved => 3

/-- A statement of the notation, one element or pseudo-element (30_encoding.md R69). -/
inductive AsmStmt where
  | block (final : Nat) (type : AsmBlockType)
  | stored (len : Nat) (nlen : Option Nat) (data : List Byte)
  | dyn (hlit hdist hclen : Nat) (cl : List Nat)
  | cl (n : Nat)
  | cl16 (r : Nat)
  | cl17 (r : Nat)
  | cl18 (r : Nat)
  | lit (b : Nat)
  | eob
  | len (s x : Nat)
  | dist (d x : Nat)
  | copy (len dist : Nat)
  deriving DecidableEq, Repr

/-- What the assembler knows at a point of the stream: the bits so far, the tables in force, and the
dynamic header being written. -/
structure AsmState where
  bits : List Bool
  lit : Option HuffmanTable
  dist : Option HuffmanTable
  clTable : Option HuffmanTable
  hlit : Nat
  hdist : Nat
  lens : List Nat
  deriving DecidableEq, Repr

/-- The start of a stream. -/
def AsmState.start : AsmState :=
  { bits := [], lit := none, dist := none, clTable := none, hlit := 0, hdist := 0, lens := [] }

/-- The stream with more bits at its end. -/
def AsmState.emit (a : AsmState) (bs : List Bool) : AsmState := { a with bits := a.bits ++ bs }

/-- The stream with the code of a symbol under a table at its end, or none without such a code. -/
def AsmState.emitSymbol (a : AsmState) (T : Option HuffmanTable) (sym : Nat) : Option AsmState :=
  match T with
  | none => none
  | some T => (symbolBits T sym).map a.emit

/-- The stream with code lengths added to the sequence of a dynamic header; once the sequence is
complete the block's tables are in force (43_dynamic_header.md R100). -/
def AsmState.addLens (a : AsmState) (ls : List Nat) : AsmState :=
  let lens := a.lens ++ ls
  if lens.length = a.hlit + a.hdist then
    { a with
      lens := lens
      lit := build (lens.take a.hlit)
      dist := build (lens.drop a.hlit) }
  else { a with lens := lens }

/-- CL_LENS of the values a `DYN` statement lists (43_dynamic_header.md R92). -/
def placeClLens (values : List Nat) : List Nat :=
  (clOrder.zip values).foldl (fun L (sym, v) => L.set sym v) (List.replicate clSymbols 0)

/-- The first index of a base/extra-bit table whose range holds `v` (30_encoding.md R69). -/
def rangeIndex : List (Nat × Nat) → Nat → Option Nat
  | [], _ => none
  | (base, extra) :: rest, v =>
    if base ≤ v ∧ v < base + 2 ^ extra then some 0 else (rangeIndex rest v).map (· + 1)

/-- The length symbol of `MATCH len=L`: 285 for 258, else the symbol whose range holds L
(30_encoding.md R69). -/
def lengthSymbolOf (len : Nat) : Option Nat :=
  if len = maxMatch then some 285 else (rangeIndex (lenBase.zip lenExtra) len).map (· + 257)

/-- The distance symbol of `MATCH dist=D` (30_encoding.md R69). -/
def distSymbolOf (dist : Nat) : Option Nat := rangeIndex (distBase.zip distExtra) dist

/-- `LEN s x=E` (30_encoding.md R69). -/
def AsmState.emitLen (a : AsmState) (s x : Nat) : Option AsmState :=
  (a.emitSymbol a.lit s).map fun a => a.emit (fieldBits (lenExtra.getD (s - 257) 0) x)

/-- `DIST d x=E` (30_encoding.md R69). -/
def AsmState.emitDist (a : AsmState) (d x : Nat) : Option AsmState :=
  (a.emitSymbol a.dist d).map fun a => a.emit (fieldBits (distExtra.getD d 0) x)

/-- The bits of one statement (30_encoding.md R69). -/
def asmStmt (a : AsmState) : AsmStmt → Option AsmState
  | .block final type =>
    let a := a.emit (fieldBits 1 final ++ fieldBits 2 type.btype)
    some (if type = .fixed then { a with lit := some fixedLit, dist := some fixedDist } else a)
  | .stored len nlen data =>
    let pad := List.replicate ((8 - a.bits.length % 8) % 8) false
    some
      (a.emit
        (pad ++ fieldBits 16 len ++ fieldBits 16 (nlen.getD (len ^^^ 0xFFFF))
          ++ data.flatMap fun b => fieldBits 8 b.toNat))
  | .dyn hlit hdist hclen cl =>
    some
      { a.emit
          (fieldBits 5 (hlit - 257) ++ fieldBits 5 (hdist - 1) ++ fieldBits 4 (hclen - 4)
            ++ cl.flatMap (fieldBits 3)) with
        clTable := build (placeClLens cl)
        hlit := hlit
        hdist := hdist
        lens := [] }
  | .cl n => (a.emitSymbol a.clTable n).map fun a => a.addLens [n]
  | .cl16 r =>
    (a.emitSymbol a.clTable 16).map fun a =>
      (a.emit (fieldBits 2 (r - 3))).addLens (List.replicate r (a.lens.getLastD 0))
  | .cl17 r =>
    (a.emitSymbol a.clTable 17).map fun a =>
      (a.emit (fieldBits 3 (r - 3))).addLens (List.replicate r 0)
  | .cl18 r =>
    (a.emitSymbol a.clTable 18).map fun a =>
      (a.emit (fieldBits 7 (r - 11))).addLens (List.replicate r 0)
  | .lit b => a.emitSymbol a.lit b
  | .eob => a.emitSymbol a.lit 256
  | .len s x => a.emitLen s x
  | .dist d x => a.emitDist d x
  | .copy len dist =>
    match lengthSymbolOf len, distSymbolOf dist with
    | some s, some d =>
      (a.emitLen s (len - lenBase.getD (s - 257) 0)).bind fun a =>
        a.emitDist d (dist - distBase.getD d 0)
    | _, _ => none

/-- The bits of a list of statements, from a point of the stream on. -/
def asmStmts (a : AsmState) : List AsmStmt → Option AsmState
  | [] => some a
  | i :: rest => (asmStmt a i).bind fun a => asmStmts a rest

/-- The bytes of a stream written in the notation (30_encoding.md R69), zero bits up to the last byte
boundary. -/
def assemble (prog : List AsmStmt) : Option (List Byte) :=
  (asmStmts AsmState.start prog).map fun a => packBits a.bits

end Sys2Proof.Machine
end

