-- ==== Sys2Proof/Machine/HostPort.lean ====
section
/-! DEFINITION. The host's side of the engine (45_decoder_top.md R177 to R179; 70_reset_and_hazards.md
R206, R209; 10_state.md R30 to R32). A host move lands between two steps (notes/assumptions/10.md). -/

namespace Sys2Proof.Machine

/-- The host's load of IN and IN_LEN, allowed while STATUS ≠ BUSY (45_decoder_top.md R178, R179). -/
def hostLoad (bs : List Byte) (s : State) : Host.Outcome State Fault Refusal :=
  if s.status = .busy then .refused .loadWhileBusy
  else .next { s with input := Memory.ofBytes bs }

/-- START (45_decoder_top.md R177) over the IN that is loaded. -/
def hostStart (s : State) : Host.Outcome State Fault Refusal :=
  if s.status = .busy then .refused .startWhileBusy
  else
    .next
      { s with
        curByte := 0
        curBit := 0
        out := some []
        blockIndex := 0
        bfinal := none
        btype := none
        litTable := none
        distTable := none
        errCode := .noError
        errByte := none
        errBit := none
        errBlock := none
        outLen := none
        consumed := none
        traceLog := if s.cfg.trace then [] else s.traceLog
        phase := .readHeader
        status := .busy }

/-- RESET (70_reset_and_hazards.md R206): every register at its reset value, IN and the parameters
unchanged. -/
def hostReset (s : State) : Host.Outcome State Fault Refusal :=
  .next (State.resetWith s.cfg s.input)

/-- The host's moves that change the state (45_decoder_top.md R179). -/
inductive HostMove where
  | load (bs : List Byte)
  | start
  | reset
  deriving DecidableEq, Repr

/-- A host move (45_decoder_top.md R178, R179). -/
def hostMove : HostMove → State → Host.Outcome State Fault Refusal
  | .load bs, s => hostLoad bs s
  | .start, s => hostStart s
  | .reset, s => hostReset s

/-- The host-visible registers (10_state.md R30). -/
inductive HostReg where
  | status
  | errCode
  | errByte
  | errBit
  | errBlock
  | outLen
  | consumed
  deriving DecidableEq, Repr

/-- The number of a host-visible register (10_state.md R30). -/
def HostReg.index : HostReg → Nat
  | .status => 0
  | .errCode => 1
  | .errByte => 2
  | .errBit => 3
  | .errBlock => 4
  | .outLen => 5
  | .consumed => 6

/-- A register's value to the host, or the fault of reading one at ⊥ (10_state.md R32). -/
def hostValue {α : Type} (r : Reg) : Option α → Host.Outcome α Fault Refusal
  | some v => .next v
  | none => .fault (.noValue r)

/-- A register's value, whatever STATUS is (10_state.md R30). -/
def State.hostRegValue (s : State) : HostReg → Host.Outcome Nat Fault Refusal
  | .status => .next s.status.code
  | .errCode => .next s.errCode.code
  | .errByte => hostValue .errByte s.errByte
  | .errBit => hostValue .errBit s.errBit
  | .errBlock => hostValue .errBlock s.errBlock
  | .outLen => hostValue .outLen s.outLen
  | .consumed => hostValue .consumed s.consumed

/-- The host's read of a register: while BUSY only STATUS (45_decoder_top.md R178;
notes/assumptions/12.md). -/
def hostReadReg (r : HostReg) (s : State) : Host.Outcome Nat Fault Refusal :=
  if s.status = .busy ∧ r ≠ .status then .refused .readWhileBusy else s.hostRegValue r

/-- The host's read of OUT: a value when STATUS = DONE only (10_state.md R32; 45_decoder_top.md
R178, R179). -/
def hostReadOut (s : State) : Host.Outcome (List Byte) Fault Refusal :=
  match s.status with
  | .busy => .refused .readWhileBusy
  | .done => hostValue .out (s.out.map Memory.bytes)
  | .idle | .error => .fault (.noValue .out)

/-- The host's read of TRACE_LOG, at any time when TRACE is true (60_exceptions.md R204;
notes/assumptions/11.md). DESIGN CHOICE: the model also answers it between two of its own steps inside
an element step of the spec, where no agent observes (00_scope.md R9; notes/assumptions/18.md). -/
def hostReadTrace (s : State) : Host.Outcome (List TraceEvent) Fault Refusal :=
  if s.cfg.trace then .next s.traceLog else .refused .noTracePort

end Sys2Proof.Machine
end

