-- ==== Sys2Proof/Machine/Element.lean ====
section
/-! DEFINITION. The spec's element step (00_scope.md R9) over the model's finer step; a whole decode
(45_decoder_top.md R185, R186); the entry points "usable independently for testing" (42_huffman.md
R88, 43_dynamic_header.md R101, 44_block_decoder.md R176). -/

namespace Sys2Proof.Machine

/-- `k` steps, or the first stop. -/
def runSteps : Nat → State → Host.Outcome State Fault Refusal
  | 0, s => .next s
  | k + 1, s =>
    match step s with
    | .next t => runSteps k t
    | .fault r => .fault r
    | .refused r => .refused r

/-- Whether a state stands inside an element step of the spec: between a length symbol and its
distance symbol (44_block_decoder.md R113), or inside the code-length sequence of a dynamic header
(43_dynamic_header.md R89). -/
def State.midElement (s : State) : Bool := s.length.isSome || s.clTable.isSome

/-- Steps until the end of the element, at most `k`. -/
def stepsToBoundary : Nat → State → Host.Outcome State Fault Refusal
  | 0, s => .next s
  | k + 1, s =>
    match step s with
    | .next t => if t.midElement then stepsToBoundary k t else .next t
    | .fault r => .fault r
    | .refused r => .refused r

/-- The most steps of one element: a dynamic header, of one step for its counts and CL_TABLE, at most
288 + 32 code-length symbols (43_dynamic_header.md R94) and one step for its end. -/
def maxElementSteps : Nat := 322

/-- The spec's atomic element step (00_scope.md R9, 45_decoder_top.md R180). -/
def elementStep (s : State) : Host.Outcome State Fault Refusal := stepsToBoundary maxElementSteps s

/-- The number of element steps in which a decode ends (45_decoder_top.md R186). -/
def decodeFuel (inLen : Nat) : Nat := 16 * inLen + 4

/-- The result of `decode(input)` (45_decoder_top.md R185), with CONSUMED (R182), or how the decode
did not end. -/
inductive MemberResult where
  | ok (out : List Byte) (consumed : Nat)
  | err (e : ErrCode)
  | unfinished
  | stopped (r : Fault)
  | refused (r : Refusal)
  deriving DecidableEq, Repr

/-- What the host reads once STATUS ≠ BUSY (45_decoder_top.md R185). -/
def State.result (s : State) : MemberResult :=
  match s.status, s.out, s.consumed with
  | .done, some m, some c => .ok m.bytes c
  | .error, _, _ => .err s.errCode
  | _, _, _ => .unfinished

/-- The state in which START leaves an instance whose host loaded `bs` after RESET
(70_reset_and_hazards.md R209, 45_decoder_top.md R177). -/
def State.started (cfg : Config) (bs : List Byte) : State :=
  { State.resetWith cfg (Memory.ofBytes bs) with phase := .readHeader, status := .busy }

/-- `decode(input)` (45_decoder_top.md R185). -/
def decodeMember (cfg : Config) (bs : List Byte) : MemberResult :=
  match runSteps (decodeFuel bs.length) (State.started cfg bs) with
  | .next t => t.result
  | .fault r => .stopped r
  | .refused r => .refused r

/-- `HuffmanTable::from_code_lengths` over a list of u8 lengths (42_huffman.md R88): the table, or
`none` for InvalidCodeLengths. -/
def fromCodeLengths (lengths : List Byte) : Option HuffmanTable := build (lengths.map BitVec.toNat)

/-- An instance in the middle of a decode, at the parameters, the front end and the OUT that a tester
supplies (notes/assumptions/16.md). -/
def State.testBench (cfg : Config) (f : Front) (out : Memory) (phase : Phase) : State :=
  { State.resetWith cfg f.input with
    curByte := f.curByte
    curBit := f.curBit
    out := some out
    phase := phase
    status := .busy }

/-- `DynamicHeaderDecoder::decode` (43_dynamic_header.md R101) on an instance of the given parameters:
the two tables and the BitReader after them, or the error. -/
def decodeDynamicHeader (cfg : Config) (f : Front) : Read (HuffmanTable × HuffmanTable) :=
  match elementStep (State.testBench cfg f [] .dynamic) with
  | .next t =>
    match t.litTable, t.distTable with
    | some lit, some dist => .ok (lit, dist) t.toFront
    | _, _ => .raised t.errCode t.toFront
  | .fault r => .fault r
  | .refused r => .refused r

/-- Steps until PHASE is BLOCK_DONE or HALT, at most `k`. -/
def stepsToBlockEnd : Nat → State → Host.Outcome State Fault Refusal
  | 0, s => .next s
  | k + 1, s =>
    match s.phase with
    | .blockDone | .halt => .next s
    | .readHeader | .stored | .fixed | .dynamic | .decoding =>
      match step s with
      | .next t => stepsToBlockEnd k t
      | .fault r => .fault r
      | .refused r => .refused r

/-- `BlockDecoder::decode_block` (44_block_decoder.md R176) over a BitReader and an OutputWindow that
a tester supplies, the window's capacity OUT_CAP with it (00_scope.md R11): BFINAL and OUT, with the
BitReader after the block, or the error; or the stop of a write past OUT_CAP. -/
def decodeBlock (cfg : Config) (f : Front) (out : Memory) : Read (Nat × Memory) :=
  match stepsToBlockEnd (decodeFuel f.input.size) (State.testBench cfg f out .readHeader) with
  | .next t =>
    match t.bfinal, t.out with
    | some b, some m => .ok (b, m) t.toFront
    | _, _ => .raised t.errCode t.toFront
  | .fault r => .fault r
  | .refused r => .refused r

end Sys2Proof.Machine
end

