-- ==== Sys2Proof/Safety.lean ====
section
/-! DEFINITION. The states a run of the engine can be in, as the spec describes them, and what a safe
step is. Statements use these; the machine does not. -/

namespace Sys2Proof.Machine

/-- A table that Build made for an alphabet of `n` symbols (42_huffman.md R77, R78). -/
def BuiltFor (n : Nat) (T : HuffmanTable) : Prop :=
  ∃ lengths : List Nat, lengths.length ≤ n ∧ build lengths = some T

/-- A register that holds ⊥, or a value that meets `P`. -/
def BottomOr {α : Type} (P : α → Prop) : Option α → Prop
  | none => True
  | some a => P a

/-- A register that holds a value, and one that meets `P`. -/
def HasValue {α : Type} (P : α → Prop) : Option α → Prop
  | none => False
  | some a => P a

/-- The dynamic header registers at ⊥ (10_state.md R27). -/
def State.dynBottom (s : State) : Prop :=
  s.hlit = none ∧ s.hdist = none ∧ s.hclen = none ∧ s.clLens = none ∧ s.clTable = none ∧
    s.lens = none

/-- The dynamic header registers inside the code-length sequence (10_state.md R20, R27;
43_dynamic_header.md R94). -/
def State.dynOpen (s : State) : Prop :=
  ∃ hlit hdist hclen : Nat, ∃ clLens lens : List Nat, ∃ T : HuffmanTable,
    s.hlit = some hlit ∧ s.hdist = some hdist ∧ s.hclen = some hclen ∧ s.clLens = some clLens ∧
      s.lens = some lens ∧ s.clTable = some T ∧
      (257 ≤ hlit ∧ hlit ≤ 288) ∧ (1 ≤ hdist ∧ hdist ≤ 32) ∧ (4 ≤ hclen ∧ hclen ≤ 19) ∧
      (clLens.length = 19 ∧ ∀ v ∈ clLens, v ≤ 7) ∧
      (lens.length ≤ hlit + hdist ∧ ∀ v ∈ lens, v ≤ 15) ∧ build clLens = some T

/-- Both tables at ⊥ (10_state.md R26). -/
def State.tablesBottom (s : State) : Prop := s.litTable = none ∧ s.distTable = none

/-- Both tables hold what Build made for their alphabets (10_state.md R26). -/
def State.tablesBuilt (s : State) : Prop :=
  HasValue (BuiltFor litLenSymbols) s.litTable ∧ HasValue (BuiltFor distSymbols) s.distTable

/-- What each PHASE holds (10_state.md R23 to R29; a stored block has no tables, R26; the header of the
first block finds BFINAL and BTYPE at ⊥, 45_decoder_top.md R177, a later one those of a block that was
not final, R181). -/
def State.phaseInv (s : State) : Prop :=
  match s.phase with
  | .readHeader =>
    s.tablesBottom ∧ s.dynBottom ∧ s.length = none ∧
      ((s.blockIndex = 0 ∧ s.bfinal = none ∧ s.btype = none) ∨
        (1 ≤ s.blockIndex ∧ s.bfinal = some 0 ∧ HasValue (fun b => b ≤ 2) s.btype))
  | .stored => s.tablesBottom ∧ s.dynBottom ∧ s.length = none ∧ s.btype = some 0
  | .fixed => s.tablesBottom ∧ s.dynBottom ∧ s.length = none ∧ s.btype = some 1
  | .dynamic => s.tablesBottom ∧ (s.dynBottom ∨ s.dynOpen) ∧ s.length = none ∧ s.btype = some 2
  | .decoding =>
    s.tablesBuilt ∧ s.dynBottom ∧ BottomOr (fun n => minMatch ≤ n ∧ n ≤ maxMatch) s.length ∧
      (s.btype = some 1 ∨ s.btype = some 2)
  | .blockDone =>
    s.dynBottom ∧ s.length = none ∧
      ((s.btype = some 0 ∧ s.tablesBottom) ∨ ((s.btype = some 1 ∨ s.btype = some 2) ∧ s.tablesBuilt))
  | .halt => s.tablesBottom ∧ s.dynBottom ∧ s.length = none

/-- |out| is within OUT_CAP (00_scope.md R11). -/
def withinCap (cfg : Config) (n : Nat) : Prop := ∀ cap, cfg.outCap = some cap → n ≤ cap

/-- What the registers hold in each STATUS (10_state.md R30, R32): after RESET their reset values
(R35), after Finish what 45_decoder_top.md R182 writes, after an error what 60_exceptions.md R198
writes. -/
def State.statusInv (s : State) : Prop :=
  match s.status with
  | .idle =>
    s.phase = .halt ∧ s.errCode = .noError ∧ s.errByte = none ∧ s.errBit = none ∧
      s.errBlock = none ∧ s.outLen = none ∧ s.consumed = none ∧ s.curByte = 0 ∧
      s.curBit = 0 ∧ s.out = some [] ∧ s.bfinal = none ∧ s.btype = none ∧ s.blockIndex = 0 ∧
      s.traceLog = []
  | .busy =>
    s.phase ≠ .halt ∧ s.errCode = .noError ∧ s.errByte = none ∧ s.errBit = none ∧
      s.errBlock = none ∧ s.outLen = none ∧ s.consumed = none ∧ s.out ≠ none ∧ s.toFront.ok ∧
      (s.phase ≠ .readHeader → HasValue (fun f => f ≤ 1) s.bfinal)
  | .done =>
    s.phase = .halt ∧ s.errCode = .noError ∧ s.errByte = none ∧ s.errBit = none ∧
      s.errBlock = none ∧ s.outLen = s.out.map Memory.size ∧ s.out ≠ none ∧ s.curBit ≤ 7 ∧
      s.consumed = some (s.curByte + if s.curBit ≠ 0 then 1 else 0) ∧ s.bfinal = some 1 ∧
      HasValue (fun b => b ≤ 2) s.btype
  | .error =>
    s.phase = .halt ∧ s.errCode ≠ .noError ∧ s.errByte = some s.curByte ∧
      s.errBit = some s.curBit ∧ s.curBit ≤ 7 ∧ s.errBlock = some s.blockIndex ∧
      s.outLen = none ∧ s.consumed = none ∧ s.out = none ∧ s.bfinal = none ∧ s.btype = none

/-- The invariant of the engine: every register in its range (10_state.md R20), ⊥ exactly where the
spec says so, both memories in canonical form, ACC_CODE, ACC_LEN and DISTANCE at ⊥ between steps
(10_state.md R28, R29). The cursor clause of R21 stands for a decode in progress
(notes/assumptions/15.md). -/
structure State.Inv (s : State) : Prop where
  inputWf : s.input.wf = true
  outWf : BottomOr (fun m => m.wf = true ∧ withinCap s.cfg m.size) s.out
  accBottom : s.accCode = none ∧ s.accLen = none
  distanceBottom : s.distance = none
  bfinalRange : BottomOr (fun f => f ≤ 1) s.bfinal
  btypeRange : BottomOr (fun t => t ≤ 3) s.btype
  phase : s.phaseInv
  status : s.statusInv

/-- The bytes a back-reference appends to `bytes`, in closed form: byte i is
`out[p0 - D + (i mod D)]` with p0 = |out| (44_block_decoder.md R115). -/
def copied (bytes : List Byte) (dist n : Nat) : List Byte :=
  (List.range n).map fun i => bytes.getD (bytes.length - dist + i % dist) 0

/-- CL_LENS as the `hclen` 3-bit values at a front end give it: CL symbol CL_ORDER[i] has the i-th
value for i < hclen, every other symbol 0 (43_dynamic_header.md R92). -/
def headerClLens (f : Front) (hclen : Nat) : List Nat :=
  (List.range clSymbols).map fun c =>
    if clOrder.idxOf c < hclen then (f.advance (3 * clOrder.idxOf c)).peek 3 else 0

/-- The state without its trace: TRACE off and an empty TRACE_LOG (60_exceptions.md R204). -/
def State.untraced (s : State) : State :=
  { s with cfg := { s.cfg with trace := false }, traceLog := [] }

/-- The state with more bytes after the end of IN (45_decoder_top.md R182). -/
def State.withTrailing (bs : List Byte) (s : State) : State :=
  { s with input := s.input.appendAll bs }

/-- An outcome with its next state, if any, changed. -/
def mapNext (g : State → State) :
    Host.Outcome State Fault Refusal → Host.Outcome State Fault Refusal
  | .next t => .next (g t)
  | .fault r => .fault r
  | .refused r => .refused r

end Sys2Proof.Machine

namespace Sys2Proof

open Sys2Proof.Machine

/-- A selector whose table, if it has one, is one that Build made for the selector's alphabet. -/
def Selector.built : Selector → Prop
  | .header | .storedBody | .fixedTables | .dynHeader => True
  | .clSym T => BuiltFor clSymbols T
  | .litLen T => BuiltFor litLenSymbols T
  | .dist T => BuiltFor distSymbols T

end Sys2Proof
end

