-- ==== Sys2Proof/Certificates/Slice0/Obligations.lean ====
section
/-! DEFINITION. The statements about the engine. -/

open Sys2Proof Sys2Proof.Machine

/-! ## The BitReader (41_bitreader.md) -/

/-- R72: ReadBit gives the next stream bit and moves the cursor one bit on; with no bit left it raises
UnexpectedEof and the cursor stays. -/
def Obligations.ReadBitTakesTheNextStreamBit : Prop :=
  ∀ f : Front, f.ok →
    (1 ≤ f.bitsRemaining →
      f.readBit = .ok (if f.streamBit f.pos then 1 else 0) (f.advance 1)) ∧
    (f.bitsRemaining < 1 → f.readBit = .raised .unexpectedEof f)

/-- R73: ReadBits(n) gives the next n bits in the closed form of the rule, and moves n bits on; with
fewer left it raises and the cursor stays; n > 16 is refused. -/
def Obligations.ReadBitsIsTheNextBitsAsANumber : Prop :=
  ∀ (n : Nat) (f : Front), f.ok →
    (n ≤ 16 → n ≤ f.bitsRemaining →
      f.readBits n = .ok ((bytesToNat f.input.bytes >>> f.pos) % 2 ^ n) (f.advance n)) ∧
    (n ≤ 16 → f.bitsRemaining < n → f.readBits n = .raised .unexpectedEof f) ∧
    (16 < n → f.readBits n = .refused .readBitsTooWide)

/-- R43: bit i of a field is the i-th stream bit read, and a field of n bits is below 2^n. -/
def Obligations.FieldsAreLeastSignificantBitFirst : Prop :=
  ∀ (n v : Nat) (f g : Front), f.ok → f.readBits n = .ok v g →
    v < 2 ^ n ∧ ∀ i, i < n → v.testBit i = f.streamBit (f.pos + i)

/-- R74: AlignToByte leaves a cursor at a byte boundary alone and moves any other to the next byte,
which is never past the end of IN. -/
def Obligations.AlignToByteMovesForwardToAByte : Prop :=
  ∀ f : Front, f.ok →
    (f.curBit = 0 → f.alignToByte = f) ∧
    (f.curBit ≠ 0 → f.alignToByte = { f with curByte := f.curByte + 1, curBit := 0 }) ∧
    f.alignToByte.ok ∧ f.pos ≤ f.alignToByte.pos ∧ f.alignToByte.pos < f.pos + 8

/-- R75, R76: the whole bytes left, and ReadRawBytes at a byte boundary, which gives the next n bytes
or, with fewer left, raises and reads none. -/
def Obligations.RawBytesAreAllOrNothing : Prop :=
  ∀ (n : Nat) (f : Front), f.ok →
    (f.curBit = 0 → f.bytesRemaining = f.input.size - f.curByte) ∧
    (f.curBit ≠ 0 → f.bytesRemaining = f.input.size - f.curByte - 1) ∧
    (f.curBit = 0 → n ≤ f.input.size - f.curByte →
      f.readRawBytes n =
        .ok ((f.input.bytes.drop f.curByte).take n) { f with curByte := f.curByte + n }) ∧
    (f.curBit = 0 → f.input.size - f.curByte < n →
      f.readRawBytes n = .raised .unexpectedEof f)

/-- R44, R213: a 16-bit read at a byte boundary is `low + (high << 8)`, the shift first; a stored body
forms LEN and NLEN so, and compares them. -/
def Obligations.StoredLengthIsLowPlusShiftedHigh : Prop :=
  ∀ (f : Front) (low high : Byte), f.ok → f.curBit = 0 →
    f.input.read f.curByte = some low → f.input.read (f.curByte + 1) = some high →
    f.readBits 16 = .ok (low.toNat + (high.toNat <<< 8)) { f with curByte := f.curByte + 2 } ∧
    ∀ (s : State) (nlow nhigh : Byte), s.toFront = f →
      f.input.read (f.curByte + 2) = some nlow → f.input.read (f.curByte + 3) = some nhigh →
      nlow.toNat + (nhigh.toNat <<< 8) ≠ (low.toNat + (high.toNat <<< 8)) ^^^ 0xFFFF →
      exec .storedBody s =
        .next ((s.withFront { f with curByte := f.curByte + 4 }).raise .storedLengthMismatch)

/-! ## Huffman tables (42_huffman.md) -/

/-- R78: Build raises exactly for a length above 15 or a Kraft sum above one; else the code of each
symbol of nonzero length l is the first code of length l plus the number of lower symbols of that
length. -/
def Obligations.BuildIsCanonical : Prop :=
  ∀ L : List Nat,
    ((∃ l ∈ L, 15 < l) → build L = none) ∧
    ((∀ l ∈ L, l ≤ 15) → 2 ^ 15 < (L.map fun l => if l = 0 then 0 else 2 ^ (15 - l)).sum →
      build L = none) ∧
    ((∀ l ∈ L, l ≤ 15) → (L.map fun l => if l = 0 then 0 else 2 ^ (15 - l)).sum ≤ 2 ^ 15 →
      ∃ T, build L = some T ∧
        ∀ s l c, T.codeOf s = some (l, c) ↔
          L[s]? = some l ∧ l ≠ 0 ∧ c = nextCode L l + (L.take s).count l)

/-- R77: lookup is the partial map from (length, code) to the symbol that has that code. -/
def Obligations.LookupIsTheAssignedCode : Prop :=
  ∀ (L : List Nat) (T : HuffmanTable), build L = some T → ∀ l c s,
    T.lookup l c = some s ↔
      L[s]? = some l ∧ l ≠ 0 ∧ c = nextCode L l + (L.take s).count l

/-- R81 (marked derived by the spec): every code of length l is below 2^l, and no code is a prefix of
another symbol's. -/
def Obligations.CodesArePrefixFree : Prop :=
  ∀ (L : List Nat) (T : HuffmanTable), build L = some T →
    (∀ e ∈ T.entries, 1 ≤ e.len ∧ e.len ≤ 15 ∧ e.code < 2 ^ e.len) ∧
    ∀ e₁ ∈ T.entries, ∀ e₂ ∈ T.entries, e₁.len ≤ e₂.len →
      e₂.code >>> (e₂.len - e₁.len) = e₁.code → e₁ = e₂

/-- R83, R84: Decode gives the symbol whose code the unread bits begin with and consumes that code;
when they begin with no code it raises InvalidHuffmanCode after 15 bits, or UnexpectedEof at the end
of IN when fewer are left. -/
def Obligations.DecodeReadsOneCode : Prop :=
  ∀ (L : List Nat) (T : HuffmanTable) (f : Front), build L = some T → f.ok →
    (∀ s bits, symbolBits T s = some bits → bits <+: f.unread →
      f.decode T = .ok s (f.advance bits.length).clearAcc) ∧
    ((∀ s bits, symbolBits T s = some bits → ¬ bits <+: f.unread) → 15 ≤ f.bitsRemaining →
      f.decode T = .raised .invalidHuffmanCode (f.advance 15).clearAcc) ∧
    ((∀ s bits, symbolBits T s = some bits → ¬ bits <+: f.unread) → f.bitsRemaining < 15 →
      ∃ g, f.decode T = .raised .unexpectedEof g ∧ g.input = f.input ∧
        g.curByte = f.input.size ∧ g.curBit = 0)

/-- R85: the fixed literal/length table. -/
def Obligations.FixedLiteralLengthTable : Prop :=
  fixedLitLengths.length = 288 ∧
  (∀ s, s < 288 →
    fixedLitLengths[s]? =
      some (if s ≤ 143 then 8 else if s ≤ 255 then 9 else if s ≤ 279 then 7 else 8)) ∧
  build fixedLitLengths = some fixedLit ∧ kraftSum fixedLitLengths = 2 ^ 15 ∧
  ∀ f g : Front, f.ok → f.decode fixedLit ≠ .raised .invalidHuffmanCode g

/-- R86: the fixed distance table; its symbols 30 and 31 stand for the reserved elements. -/
def Obligations.FixedDistanceTable : Prop :=
  fixedDistLengths = List.replicate 32 5 ∧ build fixedDistLengths = some fixedDist ∧
  kraftSum fixedDistLengths = 2 ^ 15 ∧ (∀ d, d < 32 → fixedDist.codeOf d = some (5, d)) ∧
  distInstr 30 = some .distReserved30 ∧ distInstr 31 = some .distReserved31

/-! ## Encoding (30_encoding.md) -/

/-- R65 (marked derived by the spec): the fixed codes, in stream order. -/
def Obligations.FixedCodesAreThoseListed : Prop :=
  (∀ s, s ≤ 143 → symbolBits fixedLit s = some (codeBits 8 (0x30 + s))) ∧
  (∀ s, 144 ≤ s → s ≤ 255 → symbolBits fixedLit s = some (codeBits 9 (0x190 + (s - 144)))) ∧
  (∀ s, 256 ≤ s → s ≤ 279 → symbolBits fixedLit s = some (codeBits 7 (s - 256))) ∧
  (∀ s, 280 ≤ s → s ≤ 287 → symbolBits fixedLit s = some (codeBits 8 (0xC0 + (s - 280)))) ∧
  (∀ d, d ≤ 31 → symbolBits fixedDist d = some (codeBits 5 d))

/-- The words of a few elements, written out from the spec's encodings (R56, R65, R101 to R116), decode
to those elements. -/
def Obligations.SpecWordsDecode : Prop :=
  decodeAt .header (Front.atStart [0x01]) = .ok (.blockStored 1) ((Front.atStart [0x01]).advance 3) ∧
  decodeAt .header (Front.atStart [0x03]) = .ok (.blockFixed 1) ((Front.atStart [0x03]).advance 3) ∧
  decodeAt .header (Front.atStart [0x04]) =
    .ok (.blockDynamic 0) ((Front.atStart [0x04]).advance 3) ∧
  decodeAt .header (Front.atStart [0x07]) =
    .ok (.blockReserved 1) ((Front.atStart [0x07]).advance 3) ∧
  decodeAt (.litLen fixedLit) (Front.atStart [0x89]) =
    .ok (.lit 97) ((Front.atStart [0x89]).advance 8) ∧
  decodeAt (.litLen fixedLit) (Front.atStart [0x00]) = .ok .eob ((Front.atStart [0x00]).advance 7) ∧
  decodeAt (.litLen fixedLit) (Front.atStart [0xA3]) =
    .ok .len285 ((Front.atStart [0xA3]).advance 8) ∧
  decodeAt (.litLen fixedLit) (Front.atStart [0x63]) =
    .ok .litlenReserved286 ((Front.atStart [0x63]).advance 8) ∧
  decodeAt (.dist fixedDist) (Front.atStart [0x17]) =
    .ok .dist29 ((Front.atStart [0x17]).advance 5) ∧
  decodeAt (.dist fixedDist) (Front.atStart [0x0F]) =
    .ok .distReserved30 ((Front.atStart [0x0F]).advance 5)

/-- Decode and encode agree: whatever the table in force, the bits of a well-formed element, followed
by anything at all, decode to that element and no more bits are consumed (R66, R68). -/
def Obligations.EveryElementDecodesFromItsBits : Prop :=
  ∀ (sel : Selector) (i : Instr) (bits rest : List Bool) (f : Front),
    sel.built → i.wellFormed = true → encode sel i = some bits →
    f.ok → f.accCode = none ∧ f.accLen = none → f.unread = bits ++ rest →
    decodeAt sel f = .ok i (f.advance bits.length)

/-- The other direction: an element the decoder gives is well formed, and the bits it consumed are that
element's encoding. -/
def Obligations.DecodedBitsAreTheEncoding : Prop :=
  ∀ (sel : Selector) (i : Instr) (f g : Front),
    sel.built → f.ok → decodeAt sel f = .ok i g →
    i.wellFormed = true ∧ ∃ bits, encode sel i = some bits ∧ f.unread = bits ++ g.unread

/-- Every well-formed element has an encoding under a table that Build makes for its alphabet: no
element is shut out of the two statements above. -/
def Obligations.EveryElementHasAnEncoding : Prop :=
  ∀ i : Instr, i.wellFormed = true →
    i.row.selector.built ∧ encode i.row.selector i = some i.row.bits

/-- The host's two readings of an opcode table word agree: the next step of the state set up for a
word decodes the element that the decoder gives for it and runs it, with the cursor past the element's
own bits and IN as placed. The words and their placing are the model's choice
(notes/assumptions/8.md, 9.md). -/
def Obligations.TableWordIsFetchedAndRun : Prop :=
  ∀ (s t : State) (nbits w : Nat) (i : Instr), t = s.withFetchWord nbits w →
    decodeTableWord nbits w = some i →
    ∃ row f, tableWordRow nbits w = some row ∧ t = s.placeRow row ∧
      decodeAt row.selector t.toFront = .ok i f ∧
      f.clearAcc = (t.toFront.advance row.bits.length).clearAcc ∧
      step t = exec i (t.withFront f)

/-! ## The step -/

/-- A step runs the decoded element: when the bits at the cursor decode to `i`, the step is `exec i` at
the state with the cursor past those bits; when the decoder raises, the step takes that error. -/
def Obligations.StepRunsTheDecodedElement : Prop :=
  ∀ (s : State) (sel : Selector), s.action = .element sel →
    (∀ i f, decodeAt sel s.toFront = .ok i f → step s = exec i (s.withFront f)) ∧
    (∀ e f, decodeAt sel s.toFront = .raised e f → step s = .next ((s.withFront f).raise e))

/-- R180, R183: PHASE alone chooses the step of a busy engine; an engine that is not busy stays as it
is. The splitting of a dynamic header and of a back-reference into steps is the model's choice
(notes/assumptions/1.md), and so is the unchanged state of a halted engine (2.md). -/
def Obligations.PhaseChoosesTheStep : Prop :=
  ∀ s : State,
    (s.status ≠ .busy → step s = .next s) ∧
    (s.status = .busy →
      (s.phase = .readHeader → s.action = .element .header) ∧
      (s.phase = .stored → s.action = .element .storedBody) ∧
      (s.phase = .fixed → s.action = .element .fixedTables) ∧
      (s.phase = .dynamic → s.clTable = none → s.action = .element .dynHeader) ∧
      (∀ T a b L, s.phase = .dynamic → s.clTable = some T → s.hlit = some a → s.hdist = some b →
        s.lens = some L →
        (L.length < a + b → s.action = .element (.clSym T)) ∧
        (a + b ≤ L.length → s.action = .dynEnd)) ∧
      (∀ T, s.phase = .decoding → s.length = none → s.litTable = some T →
        s.action = .element (.litLen T)) ∧
      (∀ T n, s.phase = .decoding → s.length = some n → s.distTable = some T →
        s.action = .element (.dist T)) ∧
      (s.phase = .blockDone → s.action = .blockDone) ∧
      (s.phase = .halt → step s = .next s))

/-! ## Taking an error (60_exceptions.md) -/

/-- R198: what `raise E` writes, and that it writes nothing else. -/
def Obligations.RaiseTakesTheError : Prop :=
  ∀ (e : ErrCode) (s : State),
    (s.raise e).errCode = e ∧ (s.raise e).errByte = some s.curByte ∧
    (s.raise e).errBit = some s.curBit ∧ (s.raise e).errBlock = some s.blockIndex ∧
    (s.raise e).out = none ∧ (s.raise e).litTable = none ∧ (s.raise e).distTable = none ∧
    (s.raise e).hlit = none ∧ (s.raise e).hdist = none ∧ (s.raise e).hclen = none ∧
    (s.raise e).clLens = none ∧ (s.raise e).clTable = none ∧ (s.raise e).lens = none ∧
    (s.raise e).accCode = none ∧ (s.raise e).accLen = none ∧ (s.raise e).length = none ∧
    (s.raise e).distance = none ∧ (s.raise e).bfinal = none ∧ (s.raise e).btype = none ∧
    (s.raise e).phase = .halt ∧ (s.raise e).status = .error ∧
    (s.raise e).input = s.input ∧ (s.raise e).curByte = s.curByte ∧
    (s.raise e).curBit = s.curBit ∧ (s.raise e).cfg = s.cfg ∧
    (s.raise e).blockIndex = s.blockIndex ∧ (s.raise e).outLen = s.outLen ∧
    (s.raise e).consumed = s.consumed ∧ (s.raise e).traceLog = s.traceLog

/-! ## Blocks (44_block_decoder.md R102 to R108) -/

/-- R103, R104, R105 with R102: a block header writes BFINAL and BTYPE, is traced, and selects the
body; nothing else changes, and the next step is the body's. -/
def Obligations.BlockHeaderSelectsTheBody : Prop :=
  ∀ (f : Nat) (s : State),
    (exec (.blockStored f) s =
      .next { s with
        bfinal := some f, btype := some 0, phase := .stored
        traceLog :=
          if s.cfg.trace then s.traceLog ++ [.hdr s.blockIndex f 0] else s.traceLog }) ∧
    (exec (.blockFixed f) s =
      .next { s with
        bfinal := some f, btype := some 1, phase := .fixed
        traceLog :=
          if s.cfg.trace then s.traceLog ++ [.hdr s.blockIndex f 1] else s.traceLog }) ∧
    (exec (.blockDynamic f) s =
      .next { s with
        bfinal := some f, btype := some 2, phase := .dynamic
        traceLog :=
          if s.cfg.trace then s.traceLog ++ [.hdr s.blockIndex f 2] else s.traceLog }) ∧
    (s.status = .busy → s.clTable = none →
      (∀ t, exec (.blockStored f) s = .next t → t.action = .element .storedBody) ∧
      (∀ t, exec (.blockFixed f) s = .next t → t.action = .element .fixedTables) ∧
      (∀ t, exec (.blockDynamic f) s = .next t → t.action = .element .dynHeader))

/-- R106, R190: BTYPE = 3 raises ReservedBlockType, with the cursor right after the three header bits
and after the trace event of R102. -/
def Obligations.ReservedBlockTypeStopsAfterThreeBits : Prop :=
  (∀ (f : Nat) (s : State),
    exec (.blockReserved f) s = .next ((s.setHeader f 3).raise .reservedBlockType)) ∧
  ∀ s : State, s.toFront.ok → s.status = .busy → s.phase = .readHeader →
    3 ≤ s.toFront.bitsRemaining → (s.toFront.advance 1).peek 2 = 3 →
    ∃ t, step s = .next t ∧ t.status = .error ∧ t.errCode = .reservedBlockType ∧
      t.errByte = some ((s.toFront.pos + 3) / 8) ∧ t.errBit = some ((s.toFront.pos + 3) % 8) ∧
      t.errBlock = some s.blockIndex ∧ t.out = none ∧ t.input = s.input ∧
      t.traceLog =
        if s.cfg.trace then s.traceLog ++ [.hdr s.blockIndex (s.toFront.peek 1) 3]
        else s.traceLog

/-- R107, the good case: from the byte boundary, LEN, NLEN = ~LEN, then LEN bytes of IN appended to
OUT. The bytes of OUT from before keep their place, the new ones are IN's, and nothing but the
cursor, OUT and PHASE changes. -/
def Obligations.StoredBodyCopiesItsBytes : Prop :=
  ∀ (s : State) (m : Memory) (p len : Nat), s.toFront.ok → s.out = some m → m.wf = true →
    p = s.toFront.alignToByte.curByte → p + 4 + len ≤ s.input.size →
    s.toFront.alignToByte.peek 16 = len →
    (s.toFront.alignToByte.advance 16).peek 16 = len ^^^ 0xFFFF →
    withinCap s.cfg (m.size + len) →
    ∃ n, n = m.appendAll ((s.input.bytes.drop (p + 4)).take len) ∧
      exec .storedBody s =
        .next { s with
          curByte := p + 4 + len, curBit := 0, out := some n, phase := .blockDone } ∧
      n.size = m.size + len ∧ (∀ a, a < m.size → n.read a = m.read a) ∧
      ∀ i, i < len → n.read (m.size + i) = s.input.read (p + 4 + i)

/-- R107, R191 and R197: the errors of a stored body in their order, each with the cursor where it is
raised: no room for LEN, no room for NLEN, NLEN not the complement of LEN, then too few data bytes. -/
def Obligations.StoredBodyErrorsInOrder : Prop :=
  ∀ (s : State) (f : Front) (len nlen : Nat), s.toFront.ok → f = s.toFront.alignToByte →
    len = f.peek 16 → nlen = (f.advance 16).peek 16 →
    (f.bitsRemaining < 16 → exec .storedBody s = .next ((s.withFront f).raise .unexpectedEof)) ∧
    (16 ≤ f.bitsRemaining → f.bitsRemaining < 32 →
      exec .storedBody s = .next ((s.withFront (f.advance 16)).raise .unexpectedEof)) ∧
    (32 ≤ f.bitsRemaining → nlen ≠ len ^^^ 0xFFFF →
      exec .storedBody s = .next ((s.withFront (f.advance 32)).raise .storedLengthMismatch)) ∧
    (32 ≤ f.bitsRemaining → nlen = len ^^^ 0xFFFF → s.input.size < f.curByte + 4 + len →
      exec .storedBody s = .next ((s.withFront (f.advance 32)).raise .unexpectedEof))

/-- R108: FIXED_TABLES installs the two fixed tables and reads no bit. -/
def Obligations.FixedTablesAreInstalled : Prop :=
  ∀ s : State, exec .fixedTables s =
    .next { s with
      litTable := some fixedLit, distTable := some fixedDist, phase := .decoding }

/-! ## Dynamic headers (43_dynamic_header.md) -/

/-- R90 to R93: DYN_HEADER reads the three counts, then HCLEN 3-bit lengths placed by CL_ORDER, and
builds CL_TABLE; an over-subscribed list raises InvalidCodeLengths after the last length. Where IN
ends inside HLIT, HDIST, HCLEN or a length, UnexpectedEof is raised with the cursor at that field
(R71), traced once HCLEN has been read. That the code-length symbols are steps of their own is the
model's choice (notes/assumptions/1.md). -/
def Obligations.DynHeaderReadsCountsAndClTable : Prop :=
  ∀ (s u : State) (f : Front) (a b c r : Nat) (L : List Nat) (log : List TraceEvent),
    f = s.toFront → f.ok → a = 257 + f.peek 5 → b = 1 + (f.advance 5).peek 5 →
    c = 4 + (f.advance 10).peek 4 → r = f.bitsRemaining → L = headerClLens (f.advance 14) c →
    log = (if s.cfg.trace then s.traceLog ++ [.dyn s.blockIndex a b c] else s.traceLog) →
    u = { s.withFront (f.advance (14 + 3 * c)) with
      hlit := some a, hdist := some b, hclen := some c, clLens := some L, traceLog := log } →
    (14 + 3 * c ≤ r →
      (∀ T, build L = some T →
        exec .dynHeader s = .next { u with clTable := some T, lens := some [] }) ∧
      (build L = none → exec .dynHeader s = .next (u.raise .invalidCodeLengths))) ∧
    (r < 5 → exec .dynHeader s = .next (s.raise .unexpectedEof)) ∧
    (5 ≤ r → r < 10 →
      exec .dynHeader s = .next ((s.withFront (f.advance 5)).raise .unexpectedEof)) ∧
    (10 ≤ r → r < 14 →
      exec .dynHeader s = .next ((s.withFront (f.advance 10)).raise .unexpectedEof)) ∧
    (14 ≤ r → r < 14 + 3 * c →
      exec .dynHeader s =
        .next (({ s.withFront (f.advance (14 + 3 * ((r - 14) / 3))) with
          traceLog := log }).raise .unexpectedEof))

/-- R95: CL_LEN appends its length. -/
def Obligations.ClLenAppendsItsLength : Prop :=
  ∀ (s : State) (L : List Nat) (n : Nat), s.lens = some L →
    exec (.clLen n) s = .next { s with lens := some (L ++ [n]) }

/-- R96: CL_REP16 repeats the last length 3 + x times; with no previous length it raises before its
two bits are read; an overshoot raises after them, with nothing appended. -/
def Obligations.ClRep16RepeatsThePreviousLength : Prop :=
  ∀ (s : State) (L : List Nat) (a b : Nat), s.toFront.ok → s.lens = some L → s.hlit = some a →
    s.hdist = some b →
    (L = [] → exec .clRep16 s = .next (s.raise .invalidDynamicHeader)) ∧
    ∀ v, L.getLast? = some v →
      (s.toFront.bitsRemaining < 2 → exec .clRep16 s = .next (s.raise .unexpectedEof)) ∧
      (2 ≤ s.toFront.bitsRemaining → a + b < L.length + (3 + s.toFront.peek 2) →
        exec .clRep16 s =
          .next ((s.withFront (s.toFront.advance 2)).raise .invalidDynamicHeader)) ∧
      (2 ≤ s.toFront.bitsRemaining → L.length + (3 + s.toFront.peek 2) ≤ a + b →
        exec .clRep16 s =
          .next { s.withFront (s.toFront.advance 2) with
            lens := some (L ++ List.replicate (3 + s.toFront.peek 2) v) })

/-- R97, R98: CL_ZERO17 and CL_ZERO18 append 3 + x and 11 + x zeros; an overshoot raises after the
extra bits, with nothing appended. -/
def Obligations.ClZeroRunsAppendZeros : Prop :=
  ∀ (s : State) (L : List Nat) (a b : Nat), s.toFront.ok → s.lens = some L → s.hlit = some a →
    s.hdist = some b →
    ∀ i base extra, (i, base, extra) ∈ [(Instr.clZero17, 3, 3), (Instr.clZero18, 11, 7)] →
      (s.toFront.bitsRemaining < extra → exec i s = .next (s.raise .unexpectedEof)) ∧
      (extra ≤ s.toFront.bitsRemaining → a + b < L.length + (base + s.toFront.peek extra) →
        exec i s =
          .next ((s.withFront (s.toFront.advance extra)).raise .invalidDynamicHeader)) ∧
      (extra ≤ s.toFront.bitsRemaining → L.length + (base + s.toFront.peek extra) ≤ a + b →
        exec i s =
          .next { s.withFront (s.toFront.advance extra) with
            lens := some (L ++ List.replicate (base + s.toFront.peek extra) 0) })

/-- R100: once LENS is complete the step builds the literal/length table of its first HLIT entries and
the distance table of the rest, sets the dynamic header registers to ⊥ and enters DECODING; an
over-subscribed list raises InvalidCodeLengths. Symbols past HLIT and HDIST have no code. That the end
of a dynamic header is a step of its own is the model's choice (notes/assumptions/1.md): the spec has
no step boundary there (R89). -/
def Obligations.DynEndBuildsTheTwoTables : Prop :=
  ∀ (s : State) (T : HuffmanTable) (L : List Nat) (a b : Nat), s.status = .busy →
    s.phase = .dynamic → s.clTable = some T → s.hlit = some a → s.hdist = some b →
    s.lens = some L → L.length = a + b →
    (∀ lit dist, build (L.take a) = some lit → build (L.drop a) = some dist →
      step s =
        .next { s with
          litTable := some lit, distTable := some dist, hlit := none, hdist := none
          hclen := none, clLens := none, clTable := none, lens := none, phase := .decoding } ∧
      (∀ sym, a ≤ sym → lit.codeOf sym = none) ∧ ∀ sym, b ≤ sym → dist.codeOf sym = none) ∧
    (build (L.take a) = none → step s = .next (s.raise .invalidCodeLengths)) ∧
    (build (L.drop a) = none → step s = .next (s.raise .invalidCodeLengths))

/-! ## Symbols (44_block_decoder.md R109 to R116) -/

/-- R110: LIT appends its byte at address |out|; every other byte of OUT, and everything else, is
unchanged. -/
def Obligations.LiteralAppendsItsByte : Prop :=
  ∀ (s : State) (m : Memory) (b : Nat), b ≤ 255 → s.out = some m → m.wf = true →
    withinCap s.cfg (m.size + 1) →
    ∃ n v, exec (.lit b) s = .next { s with out := some n } ∧ v.toNat = b ∧
      n.size = m.size + 1 ∧ n.wf = true ∧ n.read m.size = some v ∧
      ∀ a, a ≠ m.size → n.read a = m.read a

/-- R111: EOB ends the block, and nothing but PHASE changes. -/
def Obligations.EndOfBlockOnlySetsPhase : Prop :=
  ∀ s : State, exec .eob s = .next { s with phase := .blockDone }

/-- R112: literal/length symbols 286 and 287 raise InvalidHuffmanCode at once, no bit further on. -/
def Obligations.ReservedLiteralLengthSymbolsRaise : Prop :=
  ∀ s : State,
    exec .litlenReserved286 s = .next (s.raise .invalidHuffmanCode) ∧
    exec .litlenReserved287 s = .next (s.raise .invalidHuffmanCode)

/-- R113 with R117 to R145: each of the 29 length symbols sets LENGTH to its base plus its extra bits,
both as the length table has them (R63, whose middle entries are the spec's general knowledge,
notes/assumptions/13.md), and changes nothing but LENGTH and the cursor; with too few bits it raises
UnexpectedEof. That the distance symbol which follows is a step of its own is the model's choice
(notes/assumptions/1.md): the spec has one element step for both (R113). -/
def Obligations.LengthSymbolsSetLength : Prop :=
  ∀ (k : Nat) (i : Instr) (base extra : Nat), lengthInstrs[k]? = some i → lenBase[k]? = some base →
    lenExtra[k]? = some extra → ∀ s : State, s.toFront.ok →
    (extra ≤ s.toFront.bitsRemaining →
      exec i s =
        .next { s.withFront (s.toFront.advance extra) with
          length := some (base + s.toFront.peek extra) }) ∧
    (s.toFront.bitsRemaining < extra → exec i s = .next (s.raise .unexpectedEof))

/-- R113, R115 with R146 to R175: each of the 30 distance symbols takes its base plus its extra bits as
the distance D (R64, whose middle entries are the spec's general knowledge), appends LENGTH bytes,
byte i being out[p0 - D + (i mod D)] of the OUT before, and sets LENGTH and DISTANCE to ⊥. Nothing
else changes but the cursor; the bytes of OUT from before keep their place. -/
def Obligations.DistanceSymbolsCopyFromOut : Prop :=
  ∀ (k : Nat) (i : Instr) (base extra : Nat), distInstrs[k]? = some i → distBase[k]? = some base →
    distExtra[k]? = some extra → ∀ (s : State) (m : Memory) (n d : Nat), s.toFront.ok →
    s.out = some m → m.wf = true → s.length = some n → extra ≤ s.toFront.bitsRemaining →
    d = base + s.toFront.peek extra → d ≤ m.size → withinCap s.cfg (m.size + n) →
    ∃ m', exec i s =
        .next { s.withFront (s.toFront.advance extra) with
          out := some m', length := none, distance := none } ∧
      m'.size = m.size + n ∧ m'.wf = true ∧ (∀ a, a < m.size → m'.read a = m.read a) ∧
      ∀ j, j < n → m'.read (m.size + j) = m.read (m.size - d + j % d)

/-- R114, R196: a distance above |out| raises InvalidDistance, after the distance extra bits and before
any byte of the copy; too few extra bits raise UnexpectedEof first (R113). The distances are those of
the distance table, whose middle entries are the spec's general knowledge (R64;
notes/assumptions/13.md). -/
def Obligations.DistanceBeyondOutRaises : Prop :=
  ∀ (k : Nat) (i : Instr) (base extra : Nat), distInstrs[k]? = some i → distBase[k]? = some base →
    distExtra[k]? = some extra → ∀ (s : State) (m : Memory), s.toFront.ok → s.out = some m →
    (extra ≤ s.toFront.bitsRemaining → m.size < base + s.toFront.peek extra →
      exec i s = .next ((s.withFront (s.toFront.advance extra)).raise .invalidDistance)) ∧
    (s.toFront.bitsRemaining < extra → exec i s = .next (s.raise .unexpectedEof))

/-- R195: distance symbols 30 and 31 raise InvalidDistanceCode at once, no extra bit read. -/
def Obligations.ReservedDistanceSymbolsRaise : Prop :=
  ∀ s : State,
    exec .distReserved30 s = .next (s.raise .invalidDistanceCode) ∧
    exec .distReserved31 s = .next (s.raise .invalidDistanceCode)

/-- R113 as one element step of the spec (R9): whatever the tables in force, the bits of a length
symbol, its extra bits x, a distance symbol and its extra bits y make one step that appends the copy
and changes nothing else but the cursor. The bases and extra-bit counts are those of the two tables,
whose middle entries are the spec's general knowledge (R63, R64; notes/assumptions/13.md); the element
step is made of the model's finer steps (notes/assumptions/1.md). -/
def Obligations.BackReferenceIsOneElementStep : Prop :=
  ∀ (s : State) (m : Memory) (Tl Td : HuffmanTable) (k j lb le db de x y : Nat)
    (lbits dbits rest : List Bool),
    s.Inv → s.status = .busy → s.phase = .decoding → s.length = none → s.litTable = some Tl →
    s.distTable = some Td → s.out = some m →
    lenBase[k]? = some lb → lenExtra[k]? = some le → distBase[j]? = some db →
    distExtra[j]? = some de → x < 2 ^ le → y < 2 ^ de →
    symbolBits Tl (257 + k) = some lbits → symbolBits Td j = some dbits →
    s.toFront.unread = lbits ++ fieldBits le x ++ dbits ++ fieldBits de y ++ rest →
    db + y ≤ m.size → withinCap s.cfg (m.size + (lb + x)) →
    elementStep s =
      .next { s.withFront (s.toFront.advance (lbits.length + le + dbits.length + de)) with
        out := some (m.appendAll (copied m.bytes (db + y) (lb + x))) }

/-- R11, R38 and R200: a write past OUT_CAP has no next state. The model stops by the name
`outCapStuck` (notes/assumptions/3.md), and RESET is still there for the host. -/
def Obligations.WritePastOutCapIsStuck : Prop :=
  ∀ (s : State) (m : Memory) (cap : Nat), s.cfg.outCap = some cap → s.out = some m →
    m.size ≤ cap → m.wf = true →
    (∀ b : Nat, m.size = cap → exec (.lit b) s = .fault .outCapStuck) ∧
    (∀ (k : Nat) (i : Instr) (base extra n : Nat), distInstrs[k]? = some i →
      distBase[k]? = some base → distExtra[k]? = some extra → s.toFront.ok → s.length = some n →
      extra ≤ s.toFront.bitsRemaining → base + s.toFront.peek extra ≤ m.size →
      cap < m.size + n → exec i s = .fault .outCapStuck) ∧
    (∀ p len : Nat, s.toFront.ok → p = s.toFront.alignToByte.curByte → p + 4 + len ≤ s.input.size →
      s.toFront.alignToByte.peek 16 = len →
      (s.toFront.alignToByte.advance 16).peek 16 = len ^^^ 0xFFFF → cap < m.size + len →
      exec .storedBody s = .fault .outCapStuck) ∧
    ∃ t, hostReset s = .next t ∧ t.status = .idle

/-! ## The top level and the host (45_decoder_top.md, 70_reset_and_hazards.md) -/

/-- R181, R182: BlockDone discards the tables; with BFINAL = 1 it ends the member, giving OUT_LEN and
CONSUMED; else the next block's header is next. No bit is read. -/
def Obligations.BlockDoneEndsOrGoesOn : Prop :=
  ∀ (s : State) (m : Memory), s.status = .busy → s.phase = .blockDone → s.out = some m →
    (s.bfinal = some 1 →
      step s =
        .next { s with
          litTable := none, distTable := none, outLen := some m.size
          consumed := some (s.curByte + if s.curBit ≠ 0 then 1 else 0)
          phase := .halt, status := .done }) ∧
    (s.bfinal = some 0 →
      step s =
        .next { s with
          litTable := none, distTable := none, blockIndex := s.blockIndex + 1
          phase := .readHeader })

/-- R177: what START writes; while STATUS = BUSY there is no such move. -/
def Obligations.StartBeginsADecode : Prop :=
  ∀ s : State,
    (s.status = .busy → hostStart s = .refused .startWhileBusy) ∧
    (s.status ≠ .busy →
      ∃ t, hostStart s = .next t ∧ t.curByte = 0 ∧ t.curBit = 0 ∧ t.out = some [] ∧
        t.blockIndex = 0 ∧ t.bfinal = none ∧ t.btype = none ∧ t.litTable = none ∧
        t.distTable = none ∧ t.errCode = .noError ∧ t.errByte = none ∧ t.errBit = none ∧
        t.errBlock = none ∧ t.outLen = none ∧ t.consumed = none ∧
        (s.cfg.trace = true → t.traceLog = []) ∧ t.phase = .readHeader ∧ t.status = .busy ∧
        t.input = s.input ∧ t.cfg = s.cfg)

/-- R206, R35: RESET is accepted in every STATUS and gives every register its reset value; IN and the
parameters are unchanged. The state after power-on is one that RESET leaves as it is. -/
def Obligations.ResetGivesTheResetValues : Prop :=
  (∀ s : State, ∃ t, hostReset s = .next t ∧ t.status = .idle ∧ t.errCode = .noError ∧
    t.errByte = none ∧ t.errBit = none ∧ t.errBlock = none ∧ t.outLen = none ∧
    t.consumed = none ∧ t.curByte = 0 ∧ t.curBit = 0 ∧ t.phase = .halt ∧ t.bfinal = none ∧
    t.btype = none ∧ t.blockIndex = 0 ∧ t.litTable = none ∧ t.distTable = none ∧
    t.clTable = none ∧ t.hlit = none ∧ t.hdist = none ∧ t.hclen = none ∧ t.clLens = none ∧
    t.lens = none ∧ t.accCode = none ∧ t.accLen = none ∧ t.length = none ∧ t.distance = none ∧
    t.out = some [] ∧ t.traceLog = [] ∧ t.input = s.input ∧ t.cfg = s.cfg) ∧
  hostReset State.reset = .next State.reset

/-- R30, R32, R178: while BUSY the host reads STATUS and nothing else of the results; otherwise it
reads each register's value, and a register or OUT at ⊥ faults. -/
def Obligations.HostReadsOnlyWhatIsValid : Prop :=
  ∀ s : State,
    hostReadReg .status s = .next s.status.code ∧
    (s.status = .busy →
      (∀ r, r ≠ .status → hostReadReg r s = .refused .readWhileBusy) ∧
      hostReadOut s = .refused .readWhileBusy) ∧
    (s.status ≠ .busy →
      hostReadReg .errCode s = .next s.errCode.code ∧
      (∀ v, s.errByte = some v → hostReadReg .errByte s = .next v) ∧
      (s.errByte = none → hostReadReg .errByte s = .fault (.noValue .errByte)) ∧
      (∀ v, s.errBit = some v → hostReadReg .errBit s = .next v) ∧
      (s.errBit = none → hostReadReg .errBit s = .fault (.noValue .errBit)) ∧
      (∀ v, s.errBlock = some v → hostReadReg .errBlock s = .next v) ∧
      (s.errBlock = none → hostReadReg .errBlock s = .fault (.noValue .errBlock)) ∧
      (∀ v, s.outLen = some v → hostReadReg .outLen s = .next v) ∧
      (s.outLen = none → hostReadReg .outLen s = .fault (.noValue .outLen)) ∧
      (∀ v, s.consumed = some v → hostReadReg .consumed s = .next v) ∧
      (s.consumed = none → hostReadReg .consumed s = .fault (.noValue .consumed))) ∧
    (∀ m, s.status = .done → s.out = some m → hostReadOut s = .next m.bytes) ∧
    (s.status = .error → hostReadOut s = .fault (.noValue .out)) ∧
    (s.status = .idle → hostReadOut s = .fault (.noValue .out))

/-! ## Rules over the whole machine -/

/-- R31: the transitions of STATUS. A step leaves it, or takes BUSY to DONE at the end of a final
block, or BUSY to ERROR with an error taken; START takes the rest to BUSY; RESET gives IDLE. -/
def Obligations.StatusTransitions : Prop :=
  ∀ s t : State,
    (step s = .next t →
      t.status = s.status ∨
      (s.status = .busy ∧ t.status = .done ∧ s.phase = .blockDone ∧ s.bfinal = some 1) ∨
      (s.status = .busy ∧ t.status = .error ∧ t.errCode ≠ .noError ∧ t.phase = .halt)) ∧
    (hostMove .start s = .next t → s.status ≠ .busy ∧ t.status = .busy) ∧
    (hostMove .reset s = .next t → t.status = .idle) ∧
    (∀ bs, hostMove (.load bs) s = .next t → s.status ≠ .busy ∧ t.status = s.status)

/-- R21: the cursor never moves backward, and it stays within IN. -/
def Obligations.CursorNeverMovesBackward : Prop :=
  ∀ s t : State, s.toFront.ok → step s = .next t →
    s.toFront.pos ≤ t.toFront.pos ∧ t.toFront.ok

/-- R37, R53, R208: no step writes IN or the parameters. -/
def Obligations.InputAndParametersAreNeverWritten : Prop :=
  ∀ s t : State, step s = .next t → t.input = s.input ∧ t.cfg = s.cfg

/-- R38: OUT is append-only. A step leaves it, or appends bytes to it, or takes an error, which leaves
OUT with no value. -/
def Obligations.OutIsAppendOnly : Prop :=
  ∀ s t : State, step s = .next t →
    t.out = s.out ∨ (t.out = none ∧ t.status = .error) ∨
      ∃ m bs, s.out = some m ∧ t.out = some (m.appendAll bs)

/-- R204: the trace port. With TRACE true a step that reads a block header appends exactly one event,
HDR with the fields it reads, and one that reads a dynamic header's three counts exactly one, DYN with
the counts; no other step appends any, and none does with TRACE false. The trace changes nothing else:
a step with TRACE off and an empty log is the same step but for the log. The host may read the log at
any time: that this holds while BUSY is the model's reading (notes/assumptions/11.md, DEDUCED), and
inside an element step of the spec it is the model's choice (notes/assumptions/18.md). -/
def Obligations.TraceRecordsHeadersAndChangesNothingElse : Prop :=
  (∀ s : State, mapNext State.untraced (step s) = step s.untraced) ∧
  (∀ s t : State, step s = .next t →
    (s.action = .element .header → ∀ bfinal btype f g,
      s.toFront.readBits 1 = .ok bfinal f → f.readBits 2 = .ok btype g →
      t.traceLog =
        if s.cfg.trace then s.traceLog ++ [.hdr s.blockIndex bfinal btype] else s.traceLog) ∧
    (s.action = .element .dynHeader → ∀ a b c f g h,
      s.toFront.readBits 5 = .ok a f → f.readBits 5 = .ok b g → g.readBits 4 = .ok c h →
      t.traceLog =
        if s.cfg.trace then s.traceLog ++ [.dyn s.blockIndex (a + 257) (b + 1) (c + 4)]
        else s.traceLog) ∧
    (t.traceLog = s.traceLog ∨
      (s.action = .element .header ∧ ∃ bfinal btype f g,
        s.toFront.readBits 1 = .ok bfinal f ∧ f.readBits 2 = .ok btype g) ∨
      (s.action = .element .dynHeader ∧ ∃ a b c f g h,
        s.toFront.readBits 5 = .ok a f ∧ f.readBits 5 = .ok b g ∧ g.readBits 4 = .ok c h))) ∧
  ∀ s : State, s.cfg.trace = true → hostReadTrace s = .next s.traceLog

/-- R182: what follows in IN does not matter. A step that does not run out of input is the same step
when more bytes stand after the end of IN. -/
def Obligations.TrailingBytesDoNotMatter : Prop :=
  ∀ (s t : State) (bs : List Byte), s.toFront.ok → step s = .next t →
    t.errCode ≠ .unexpectedEof → step (s.withTrailing bs) = .next (t.withTrailing bs)

/-- The invariant holds at reset. -/
def Obligations.InvariantHoldsAtReset : Prop := State.reset.Inv

/-- Every step keeps the invariant: each register stays in its range and at ⊥ where the spec says so
(R20 to R32), and both memories stay canonical. -/
def Obligations.StepKeepsTheInvariant : Prop :=
  ∀ s t : State, s.Inv → step s = .next t → t.Inv

/-- Every move of the host keeps the invariant. -/
def Obligations.HostMovesKeepTheInvariant : Prop :=
  ∀ (mv : HostMove) (s t : State), s.Inv → hostMove mv s = .next t → t.Inv

/-- R34, R37, R39: no rule reads a register at ⊥ or an address that does not exist. From every state
that meets the invariant a step gives a next state, but for the one stop the spec names, a write past
OUT_CAP, which needs a bounded OUT_CAP. -/
def Obligations.EngineAlwaysStepsOn : Prop :=
  ∀ s : State, s.Inv →
    (∃ t, step s = .next t) ∨
    (step s = .fault .outCapStuck ∧ ∃ cap, s.cfg.outCap = some cap)

/-- R186 (marked derived by the spec): with OUT_CAP unbounded every decode, of any input, ends in DONE
or ERROR within 16 · IN_LEN + 4 steps, counted at the model's finer granularity. -/
def Obligations.EveryDecodeEnds : Prop :=
  ∀ (cfg : Config) (bs : List Byte), cfg.outCap = none →
    ∃ t, runSteps (16 * bs.length + 4) (State.started cfg bs) = .next t ∧
      (t.status = .done ∨ t.status = .error)

/-- R9, R89: the spec's element step, over the model's finer steps, always ends between two elements;
a dynamic header ends with both tables in place or with an error. -/
def Obligations.ElementStepEndsBetweenElements : Prop :=
  ∀ s t : State, s.Inv → elementStep s = .next t →
    t.midElement = false ∧
    (s.status = .busy → s.phase = .dynamic →
      (t.phase = .decoding ∧ t.tablesBuilt) ∨ t.status = .error)

/-- R101: the entry point `DynamicHeaderDecoder::decode` gives what the element step gives inside a
decode, whatever the parameters of its instance: the same two tables or the same error, and the same
cursor. -/
def Obligations.DynHeaderEntryPointAgrees : Prop :=
  ∀ (cfg : Config) (s t : State), s.Inv → s.status = .busy → s.phase = .dynamic → s.midElement = false →
    elementStep s = .next t →
    (t.status = .error → decodeDynamicHeader cfg s.toFront = .raised t.errCode t.toFront) ∧
    (∀ lit dist, t.litTable = some lit → t.distTable = some dist →
      decodeDynamicHeader cfg s.toFront = .ok (lit, dist) t.toFront)

/-- R176: the entry point `BlockDecoder::decode_block`, over the BitReader and OUT of a decode at a
block header and the decode's parameters, gives what the steps of that block give: BFINAL and OUT with
the same cursor, the same error, or the stop of a write past OUT_CAP. They end within the bound the
entry point uses. -/
def Obligations.BlockEntryPointAgrees : Prop :=
  ∀ (s : State) (m : Memory), s.Inv → s.status = .busy → s.phase = .readHeader → s.out = some m →
    (∃ t b n, stepsToBlockEnd (decodeFuel s.input.size) s = .next t ∧ t.phase = .blockDone ∧
      t.bfinal = some b ∧ t.out = some n ∧
      decodeBlock s.cfg s.toFront m = .ok (b, n) t.toFront) ∨
    (∃ t, stepsToBlockEnd (decodeFuel s.input.size) s = .next t ∧ t.status = .error ∧
      decodeBlock s.cfg s.toFront m = .raised t.errCode t.toFront) ∨
    (stepsToBlockEnd (decodeFuel s.input.size) s = .fault .outCapStuck ∧
      (∃ cap, s.cfg.outCap = some cap) ∧
      decodeBlock s.cfg s.toFront m = .fault .outCapStuck)

/-! ## Whole decodes -/

/-- Every byte string of at most 65535 bytes, put in one final stored block (R57) with anything after
it, decodes to itself, and CONSUMED is the block's length. -/
def Obligations.StoredBlockRoundTrip : Prop :=
  ∀ (cfg : Config) (bs tail : List Byte), cfg.outCap = none → bs.length ≤ 65535 →
    decodeMember cfg
      ([0x01, BitVec.ofNat 8 (bs.length % 256), BitVec.ofNat 8 (bs.length / 256),
          BitVec.ofNat 8 (255 - bs.length % 256), BitVec.ofNat 8 (255 - bs.length / 256)]
        ++ bs ++ tail) = .ok bs (bs.length + 5)

/-- Every byte string, assembled as the literals of one final fixed block (R69), decodes to itself, and
the whole stream is consumed. -/
def Obligations.FixedLiteralsRoundTrip : Prop :=
  ∀ (cfg : Config) (bs : List Byte), cfg.outCap = none →
    ∃ stream,
      assemble (.block 1 .fixed :: (bs.map fun b => .lit b.toNat) ++ [.eob]) = some stream ∧
      decodeMember cfg stream = .ok bs stream.length
end

