-- ==== Sys2Proof/Laws/Memory.lean ====
section
/-! SUPPORT. Every memory operation keeps the canonical form; what a read gives after each. -/

namespace Sys2Proof.Machine

theorem Memory.wf_iff (m : Memory) : m.wf = true ↔ m.map Prod.fst = List.range m.length := by
  simp [Memory.wf]

@[simp] theorem Memory.size_nil : Memory.size [] = 0 := rfl

@[simp] theorem Memory.wf_nil : Memory.wf [] = true := rfl

@[simp] theorem Memory.bytes_nil : Memory.bytes [] = [] := rfl

@[simp] theorem Memory.length_bytes (m : Memory) : m.bytes.length = m.size := by
  simp [Memory.bytes, Memory.size]

@[simp] theorem Memory.size_append (m : Memory) (v : Byte) : (m.append v).size = m.size + 1 := by
  simp [Memory.append, Memory.size]

@[simp] theorem Memory.bytes_append (m : Memory) (v : Byte) : (m.append v).bytes = m.bytes ++ [v] := by
  simp [Memory.append, Memory.bytes]

theorem Memory.wf_append {m : Memory} (h : m.wf = true) (v : Byte) : (m.append v).wf = true := by
  rw [Memory.wf_iff] at *
  simp [Memory.append, Memory.size, h, List.range_succ]

@[simp] theorem Memory.size_appendAll (m : Memory) (bs : List Byte) :
    (m.appendAll bs).size = m.size + bs.length := by
  induction bs generalizing m with
  | nil => rfl
  | cons b bs ih => simp [Memory.appendAll, ih]; omega

@[simp] theorem Memory.bytes_appendAll (m : Memory) (bs : List Byte) :
    (m.appendAll bs).bytes = m.bytes ++ bs := by
  induction bs generalizing m with
  | nil => simp [Memory.appendAll]
  | cons b bs ih => simp [Memory.appendAll, ih]

theorem Memory.wf_appendAll {m : Memory} (h : m.wf = true) (bs : List Byte) :
    (m.appendAll bs).wf = true := by
  induction bs generalizing m with
  | nil => exact h
  | cons b bs ih => exact ih (Memory.wf_append h b)

theorem Memory.appendAll_append (m : Memory) (bs cs : List Byte) :
    m.appendAll (bs ++ cs) = (m.appendAll bs).appendAll cs := by
  induction bs generalizing m with
  | nil => rfl
  | cons b bs ih => exact ih _

theorem Memory.fst_ofBytesFrom (bs : List Byte) (a : Nat) :
    (Memory.ofBytesFrom a bs).map Prod.fst = List.range' a bs.length := by
  induction bs generalizing a with
  | nil => rfl
  | cons b bs ih => simp [Memory.ofBytesFrom, ih, List.range'_succ]

theorem Memory.bytes_ofBytesFrom (bs : List Byte) (a : Nat) :
    (Memory.ofBytesFrom a bs).map Prod.snd = bs := by
  induction bs generalizing a with
  | nil => rfl
  | cons b bs ih => simp [Memory.ofBytesFrom, ih]

@[simp] theorem Memory.bytes_ofBytes (bs : List Byte) : (Memory.ofBytes bs).bytes = bs :=
  Memory.bytes_ofBytesFrom bs 0

@[simp] theorem Memory.size_ofBytes (bs : List Byte) : (Memory.ofBytes bs).size = bs.length := by
  rw [← Memory.length_bytes, Memory.bytes_ofBytes]

@[simp] theorem Memory.wf_ofBytes (bs : List Byte) : (Memory.ofBytes bs).wf = true := by
  have hs : (Memory.ofBytes bs).length = bs.length := Memory.size_ofBytes bs
  rw [Memory.wf_iff, hs]
  rw [List.range_eq_range']
  exact Memory.fst_ofBytesFrom bs 0

/-- Two memories in canonical form with the same bytes are the same data. -/
theorem Memory.eq_of_bytes {m n : Memory} (hm : m.wf = true) (hn : n.wf = true)
    (h : m.bytes = n.bytes) : m = n := by
  rw [Memory.wf_iff] at hm hn
  have hl : m.length = n.length := by
    have := congrArg List.length h
    simpa [Memory.bytes] using this
  have hf : m.map Prod.fst = n.map Prod.fst := by rw [hm, hn, hl]
  have hz : ∀ l : Memory, (l.map Prod.fst).zip (l.map Prod.snd) = l := by
    intro l
    induction l with
    | nil => rfl
    | cons c l ih => simp [ih]
  rw [← hz m, ← hz n, hf]
  exact congrArg _ h

theorem Memory.read_from (m : Memory) (k a : Nat) (h : m.map Prod.fst = List.range' k m.length) :
    Memory.read m a = if a < k then none else m.bytes[a - k]? := by
  induction m generalizing k with
  | nil => simp [Memory.read, Memory.bytes]
  | cons c m ih =>
    obtain ⟨x, b⟩ := c
    simp [List.range'_succ] at h
    obtain ⟨rfl, h⟩ := h
    rw [Memory.read, ih (x + 1) h]
    by_cases hx : x = a
    · subst hx; simp [Memory.bytes]
    · rw [if_neg hx]
      by_cases hlt : a < x
      · simp [hlt, Nat.lt_succ_of_lt hlt]
      · have h1 : ¬ a < x + 1 := by omega
        have h2 : a - x = (a - (x + 1)) + 1 := by omega
        simp [hlt, h1, h2, Memory.bytes]

/-- A read of a memory in canonical form is the byte of that index. -/
theorem Memory.read_eq {m : Memory} (h : m.wf = true) (a : Nat) : m.read a = m.bytes[a]? := by
  rw [Memory.wf_iff, List.range_eq_range'] at h
  simpa using Memory.read_from m 0 a h

theorem Memory.read_append_lt {m : Memory} (h : m.wf = true) (v : Byte) {a : Nat}
    (ha : a < m.size) : (m.append v).read a = m.read a := by
  rw [Memory.read_eq h, Memory.read_eq (Memory.wf_append h v), Memory.bytes_append,
    List.getElem?_append_left (by simpa using ha)]

theorem Memory.read_append_size {m : Memory} (h : m.wf = true) (v : Byte) :
    (m.append v).read m.size = some v := by
  rw [Memory.read_eq (Memory.wf_append h v), Memory.bytes_append,
    List.getElem?_append_right (by simp)]
  simp

theorem Memory.read_appendAll_lt {m : Memory} (h : m.wf = true) (bs : List Byte) {a : Nat}
    (ha : a < m.size) : (m.appendAll bs).read a = m.read a := by
  rw [Memory.read_eq h, Memory.read_eq (Memory.wf_appendAll h bs), Memory.bytes_appendAll,
    List.getElem?_append_left (by simpa using ha)]

theorem Memory.read_eq_none_iff {m : Memory} (h : m.wf = true) (a : Nat) :
    m.read a = none ↔ m.size ≤ a := by
  rw [Memory.read_eq h]; simp

theorem Memory.slice_eq {m : Memory} (h : m.wf = true) (a n : Nat) (ha : a + n ≤ m.size) :
    m.slice a n = some ((m.bytes.drop a).take n) := by
  induction n generalizing a with
  | zero => simp [Memory.slice]
  | succ n ih =>
    have hlt : a < m.bytes.length := by simp; omega
    rw [Memory.slice, ih (a + 1) (by omega), Memory.read_eq h, List.getElem?_eq_getElem hlt]
    rw [List.drop_eq_getElem_cons hlt, List.take_succ_cons]

end Sys2Proof.Machine
end

