-- ==== Sys2Proof/Laws/Front.lean ====
section
/-! SUPPORT. What the BitReader and Decode do, over the unread bits of a front end. -/

namespace Sys2Proof.Machine

/-! ## The cursor -/

@[simp] theorem Front.advance_input (n : Nat) (f : Front) : (f.advance n).input = f.input := rfl
@[simp] theorem Front.advance_accCode (n : Nat) (f : Front) : (f.advance n).accCode = f.accCode := rfl
@[simp] theorem Front.advance_accLen (n : Nat) (f : Front) : (f.advance n).accLen = f.accLen := rfl

@[simp] theorem Front.pos_advance (n : Nat) (f : Front) : (f.advance n).pos = f.pos + n := by
  simp only [Front.pos, Front.advance]; omega

@[simp] theorem Front.advance_advance (m n : Nat) (f : Front) :
    (f.advance m).advance n = f.advance (m + n) := by
  unfold Front.advance Front.pos
  simp only [Front.mk.injEq, true_and, and_true]
  omega

theorem Front.advance_zero {f : Front} (h : f.curBit < 8) : f.advance 0 = f := by
  obtain ⟨i, b, k, c, l⟩ := f
  simp only [Front.advance, Front.pos, Front.mk.injEq, true_and, and_true] at *
  omega

theorem Front.bitsRemaining_eq (f : Front) : f.bitsRemaining = 8 * f.input.size - f.pos := by
  unfold Front.bitsRemaining Front.pos; omega

theorem Front.ok.pos_le {f : Front} (h : f.ok) : f.pos ≤ 8 * f.input.size := by
  obtain ⟨-, h1, h2, h3⟩ := h
  unfold Front.pos
  by_cases hb : f.curBit = 0
  · omega
  · have := h3 hb; omega

theorem Front.ok.curBit_lt {f : Front} (h : f.ok) : f.curBit < 8 := h.2.2.1

theorem Front.ok.inputWf {f : Front} (h : f.ok) : f.input.wf = true := h.1

@[simp] theorem Front.bitsRemaining_advance (n : Nat) (f : Front) :
    (f.advance n).bitsRemaining = f.bitsRemaining - n := by
  rw [Front.bitsRemaining_eq, Front.bitsRemaining_eq, Front.pos_advance, Front.advance_input]
  omega

theorem Front.ok.advance {f : Front} (h : f.ok) {n : Nat} (hn : n ≤ f.bitsRemaining) :
    (f.advance n).ok := by
  have hp := h.pos_le
  rw [Front.bitsRemaining_eq] at hn
  refine ⟨h.1, ?_, ?_, ?_⟩ <;> simp only [Front.advance] <;> omega

theorem Front.nextBit_eq_advance {f : Front} (h : f.curBit < 8) : f.nextBit = f.advance 1 := by
  obtain ⟨i, b, k, c, l⟩ := f
  simp only [Front.nextBit, Front.advance, Front.pos] at *
  split <;> simp only [Front.mk.injEq, true_and, and_true] <;> omega

@[simp] theorem Front.advance_clearAcc (n : Nat) (f : Front) :
    f.clearAcc.advance n = (f.advance n).clearAcc := rfl

@[simp] theorem Front.clearAcc_clearAcc (f : Front) : f.clearAcc.clearAcc = f.clearAcc := rfl

theorem Front.clearAcc_eq {f : Front} (h : f.accCode = none ∧ f.accLen = none) : f.clearAcc = f := by
  obtain ⟨i, b, k, c, l⟩ := f
  simp_all [Front.clearAcc]

/-! ## The unread bits -/

@[simp] theorem Front.length_unread (f : Front) : f.unread.length = f.bitsRemaining := by
  simp [Front.unread]

theorem Front.unread_advance (n : Nat) (f : Front) : (f.advance n).unread = f.unread.drop n := by
  apply List.ext_getElem
  · simp
  · intro i h1 h2
    simp [Front.unread, Front.streamBit, Nat.add_assoc]

theorem Front.unread_eq_cons {f : Front} (h : 1 ≤ f.bitsRemaining) :
    f.unread = f.streamBit f.pos :: (f.advance 1).unread := by
  rw [Front.unread_advance]
  have h0 : 0 < f.unread.length := by rw [Front.length_unread]; omega
  have := List.drop_eq_getElem_cons h0
  simp only [List.drop_zero] at this
  rw [this]
  simp [Front.unread]

theorem and_one_eq_testBit (n k : Nat) : (n >>> k) &&& 1 = (n.testBit k).toNat := by
  rw [Nat.and_one_is_mod, Nat.testBit_eq_decide_div_mod_eq, Nat.shiftRight_eq_div_pow]
  have := Nat.mod_two_eq_zero_or_one (n / 2 ^ k)
  rcases this with h | h <;> simp [h]

/-- ReadBit over the unread bits (41_bitreader.md R72). -/
theorem Front.readBit_spec {f : Front} (h : f.ok) (h1 : 1 ≤ f.bitsRemaining) :
    f.readBit = .ok (f.streamBit f.pos).toNat (f.advance 1) := by
  have hlt : f.curByte < f.input.size := by
    have := h.pos_le; rw [Front.bitsRemaining_eq] at h1; unfold Front.pos at *; omega
  have hk := h.curBit_lt
  have hd : f.pos / 8 = f.curByte := by unfold Front.pos; omega
  have hm : f.pos % 8 = f.curBit := by unfold Front.pos; omega
  unfold Front.readBit Front.streamBit
  rw [if_neg (by omega), hd, hm]
  have hr : f.input.read f.curByte = some (f.input.bytes[f.curByte]'(by simpa using hlt)) := by
    rw [Memory.read_eq h.inputWf, List.getElem?_eq_getElem]
  rw [hr, Front.nextBit_eq_advance hk]
  simp only [and_one_eq_testBit]
  rfl

theorem Front.readBit_eof {f : Front} (h0 : f.bitsRemaining = 0) :
    f.readBit = .raised .unexpectedEof f := by
  simp [Front.readBit, h0]

theorem bitsToNat_lt (bs : List Bool) : bitsToNat bs < 2 ^ bs.length := by
  induction bs with
  | nil => simp [bitsToNat]
  | cons b bs ih => cases b <;> simp [bitsToNat, Nat.pow_succ] <;> omega

theorem bool_add_two_mul (b : Bool) (n : Nat) : b.toNat + 2 * n = b.toNat ||| (n <<< 1) := by
  have := Nat.two_pow_add_eq_or_of_lt (i := 1) (b := b.toNat) (by cases b <;> simp) n
  rw [Nat.or_comm, Nat.shiftLeft_eq, Nat.mul_comm n, ← this]
  omega

theorem Front.readBitsLoop_spec {f : Front} (h : f.ok) (n i v : Nat) (hn : n ≤ f.bitsRemaining) :
    Front.readBitsLoop n i v f = .ok (v ||| (bitsToNat (f.unread.take n) <<< i)) (f.advance n) := by
  induction n generalizing f i v with
  | zero => simp [Front.readBitsLoop, bitsToNat, Front.advance_zero h.curBit_lt]
  | succ n ih =>
    have h1 : 1 ≤ f.bitsRemaining := by omega
    rw [Front.readBitsLoop, Front.readBit_spec h h1]
    show Front.readBitsLoop n (i + 1) _ (f.advance 1) = _
    rw [ih (h.advance h1) _ _ (by simp; omega), Front.unread_eq_cons h1]
    rw [List.take_succ_cons, bitsToNat, bool_add_two_mul, Nat.shiftLeft_or_distrib, Nat.or_assoc,
      ← Nat.shiftLeft_add, Nat.add_comm 1 i, Front.advance_advance, Nat.add_comm 1 n]

/-- ReadBits(n) over the unread bits (41_bitreader.md R73). -/
theorem Front.readBits_spec {f : Front} (h : f.ok) {n : Nat} (h16 : n ≤ 16)
    (hn : n ≤ f.bitsRemaining) :
    f.readBits n = .ok (bitsToNat (f.unread.take n)) (f.advance n) := by
  rw [Front.readBits, if_neg (by simp [maxReadBits]; omega), if_neg (by omega),
    Front.readBitsLoop_spec h n 0 0 hn]
  simp

theorem Front.readBits_eof {f : Front} {n : Nat} (h16 : n ≤ 16) (hn : f.bitsRemaining < n) :
    f.readBits n = .raised .unexpectedEof f := by
  rw [Front.readBits, if_neg (by simp [maxReadBits]; omega), if_pos hn]

@[simp] theorem Front.readBits_zero (f : Front) : f.readBits 0 = .ok 0 f := rfl

theorem testBit_bytesToNat (bs : List Byte) (k : Nat) :
    (bytesToNat bs).testBit k = (match bs[k / 8]? with | some b => b.getLsbD (k % 8) | none => false) := by
  induction bs generalizing k with
  | nil => simp [bytesToNat]
  | cons b bs ih =>
    have hb : b.toNat < 2 ^ 8 := b.isLt
    have hadd : b.toNat + 256 * bytesToNat bs = (bytesToNat bs) <<< 8 ||| b.toNat := by
      rw [Nat.shiftLeft_eq]
      have := Nat.two_pow_add_eq_or_of_lt (i := 8) hb (bytesToNat bs)
      rw [Nat.mul_comm (bytesToNat bs), ← this]; omega
    rw [bytesToNat, hadd, Nat.testBit_or, Nat.testBit_shiftLeft]
    by_cases hk : 8 ≤ k
    · have h1 : k / 8 = (k - 8) / 8 + 1 := by omega
      have h2 : (k - 8) % 8 = k % 8 := by omega
      have h3 : b.toNat.testBit k = false :=
        Nat.testBit_lt_two_pow (Nat.lt_of_lt_of_le hb (Nat.pow_le_pow_right (by omega) hk))
      simp [hk, ih, h1, h2, h3]
    · have h1 : k / 8 = 0 := by omega
      have h2 : k % 8 = k := by omega
      simp [hk, h1, h2, BitVec.getLsbD]

theorem testBit_bitsToNat (bs : List Bool) (k : Nat) : (bitsToNat bs).testBit k = bs.getD k false := by
  induction bs generalizing k with
  | nil => simp [bitsToNat]
  | cons b bs ih =>
    rw [bitsToNat, bool_add_two_mul, Nat.testBit_or, Nat.testBit_shiftLeft]
    cases k with
    | zero => cases b <;> simp
    | succ k =>
      have hb : b.toNat.testBit (k + 1) = false := by
        apply Nat.testBit_lt_two_pow
        have : 2 ^ 1 ≤ 2 ^ (k + 1) := Nat.pow_le_pow_right (by omega) (by omega)
        cases b <;> simp <;> omega
      simp [ih, hb]

theorem Front.testBit_streamNat {f : Front} (h : f.input.wf = true) (k : Nat) :
    (bytesToNat f.input.bytes).testBit k = f.streamBit k := by
  rewrite [testBit_bytesToNat, Front.streamBit, Memory.read_eq h]
  cases f.input.bytes[k / 8]? <;> rfl

/-- The closed form of ReadBits (41_bitreader.md R73). -/
theorem Front.peek_eq {f : Front} (h : f.ok) {n : Nat} (hn : n ≤ f.bitsRemaining) :
    f.peek n = bitsToNat (f.unread.take n) := by
  apply Nat.eq_of_testBit_eq
  intro k
  rw [Front.peek, Nat.testBit_mod_two_pow, Nat.testBit_shiftRight,
    Front.testBit_streamNat h.inputWf, testBit_bitsToNat]
  by_cases hk : k < n
  · have : k < f.bitsRemaining := by omega
    simp [hk, Front.unread, this]
  · have : (f.unread.take n)[k]? = none :=
      List.getElem?_eq_none (Nat.le_trans (List.length_take_le n _) (Nat.not_lt.mp hk))
    simp [hk, this]

@[simp] theorem Front.peek_lt (n : Nat) (f : Front) : f.peek n < 2 ^ n :=
  Nat.mod_lt _ (Nat.two_pow_pos n)

/-- ReadBits(n) in its closed form (41_bitreader.md R73). -/
theorem Front.readBits_peek {f : Front} (h : f.ok) {n : Nat} (h16 : n ≤ 16)
    (hn : n ≤ f.bitsRemaining) : f.readBits n = .ok (f.peek n) (f.advance n) := by
  rw [Front.readBits_spec h h16 hn, Front.peek_eq h hn]

/-- What ReadBits(n) can do, for a field of at most 16 bits. -/
theorem Front.readBits_cases {f : Front} (h : f.ok) {n : Nat} (h16 : n ≤ 16) :
    (n ≤ f.bitsRemaining ∧ f.readBits n = .ok (f.peek n) (f.advance n)) ∨
      (f.bitsRemaining < n ∧ f.readBits n = .raised .unexpectedEof f) := by
  by_cases hn : n ≤ f.bitsRemaining
  · exact .inl ⟨hn, Front.readBits_peek h h16 hn⟩
  · exact .inr ⟨by omega, Front.readBits_eof h16 (by omega)⟩

/-! ## Bytes -/

theorem Front.bytesRemaining_eq {f : Front} (h : f.ok) : f.bytesRemaining = f.bitsRemaining / 8 := by
  obtain ⟨-, h1, h2, h3⟩ := h
  unfold Front.bytesRemaining Front.bitsRemaining
  split
  · omega
  · rename_i hb; have := h3 hb; omega

theorem Front.alignToByte_spec {f : Front} (h : f.ok) :
    f.alignToByte.ok ∧ f.alignToByte.curBit = 0 ∧ f.alignToByte.curByte = (f.pos + 7) / 8 ∧
      f.alignToByte.input = f.input ∧ f.alignToByte.accCode = f.accCode ∧
      f.alignToByte.accLen = f.accLen := by
  obtain ⟨h0, h1, h2, h3⟩ := h
  unfold Front.alignToByte Front.pos
  split
  · rename_i hb; refine ⟨⟨h0, h1, h2, h3⟩, hb, by omega, rfl, rfl, rfl⟩
  · rename_i hb
    have := h3 hb
    refine ⟨⟨h0, ?_, ?_, ?_⟩, rfl, ?_, rfl, rfl, rfl⟩ <;> simp <;> omega

theorem Front.readRawBytes_spec {f : Front} (h : f.ok) (h0 : f.curBit = 0) {n : Nat}
    (hn : n ≤ f.input.size - f.curByte) :
    f.readRawBytes n =
      .ok ((f.input.bytes.drop f.curByte).take n) { f with curByte := f.curByte + n } := by
  have hle := h.2.1
  rw [Front.readRawBytes, if_neg (by simp [Front.bytesRemaining, h0]; omega),
    Memory.slice_eq h.inputWf _ _ (by omega)]

theorem Front.readRawBytes_eof {f : Front} {n : Nat} (hn : f.bytesRemaining < n) :
    f.readRawBytes n = .raised .unexpectedEof f := by
  rw [Front.readRawBytes, if_pos hn]

end Sys2Proof.Machine
end

