-- ==== Sys2Proof/Laws/Huffman.lean ====
section
/-! SUPPORT. What Build assigns: the code of each symbol, and the room the Kraft sum leaves for it. -/

namespace Sys2Proof.Machine

/-- The codes step 3 of Build gives (42_huffman.md R78), symbol by symbol: the array's value for the
symbol's length, plus the number of earlier symbols of that length. -/
theorem mem_assignCodes {L : List Nat} {s : Nat} {next : List Nat}
    (h : ∀ l ∈ L, l < next.length) (e : HuffEntry) :
    e ∈ assignCodes L s next ↔
      ∃ i, L[i]? = some e.len ∧ e.len ≠ 0 ∧ e.sym = s + i ∧
        e.code = next.getD e.len 0 + (L.take i).count e.len := by
  induction L generalizing s next with
  | nil => simp [assignCodes]
  | cons l ls ih =>
    have hl : l < next.length := h l (by simp)
    have hls : ∀ x ∈ ls, x < next.length := fun x hx => h x (by simp [hx])
    by_cases h0 : l = 0
    · subst h0
      rw [assignCodes, if_pos rfl, ih hls]
      constructor
      · rintro ⟨i, h1, h2, h3, h4⟩
        exact ⟨i + 1, by simpa using h1, h2, by omega,
          by simp [List.take_succ_cons, h4, Ne.symm h2]⟩
      · rintro ⟨i, h1, h2, h3, h4⟩
        cases i with
        | zero => simp at h1; exact absurd h1.symm h2
        | succ i =>
          exact ⟨i, by simpa using h1, h2, by omega,
            by simpa [List.take_succ_cons, List.count_cons, Ne.symm h2] using h4⟩
    · rw [assignCodes, if_neg h0, List.mem_cons, ih (by simpa using hls)]
      constructor
      · rintro (rfl | ⟨i, h1, h2, h3, h4⟩)
        · exact ⟨0, rfl, h0, rfl, by simp⟩
        · refine ⟨i + 1, by simpa using h1, h2, by omega, ?_⟩
          rw [h4, List.take_succ_cons, List.count_cons]
          by_cases he : l = e.len
          · subst he
            simp [List.getD_eq_getElem?_getD, List.getElem?_set_self hl]; omega
          · simp [List.getD_eq_getElem?_getD, List.getElem?_set_ne he, he]
      · rintro ⟨i, h1, h2, h3, h4⟩
        cases i with
        | zero =>
          left
          obtain ⟨el, ec, es⟩ := e
          simp at h1 h3 h4
          subst h1
          simp [h3, h4]
        | succ i =>
          right
          refine ⟨i, by simpa using h1, h2, by omega, ?_⟩
          rw [List.take_succ_cons, List.count_cons] at h4
          rw [h4]
          by_cases he : l = e.len
          · subst he
            simp [List.getD_eq_getElem?_getD, List.getElem?_set_self hl]; omega
          · simp [List.getD_eq_getElem?_getD, List.getElem?_set_ne he, he]

/-- What a list that Build accepts meets (42_huffman.md R78). -/
theorem build_eq_some {L : List Nat} {T : HuffmanTable} (h : build L = some T) :
    (∀ l ∈ L, l ≤ 15) ∧ kraftSum L ≤ 2 ^ 15 ∧
      T.entries = assignCodes L 0 ((List.range 16).map (nextCode L)) := by
  unfold build at h
  split at h
  · simp at h
  · rename_i h1
    split at h
    · simp at h
    · rename_i h2
      simp at h
      subst h
      refine ⟨?_, by simpa [maxCodeBits] using h2, rfl⟩
      intro l hl
      have h1' : ∀ x ∈ L, x ≤ maxCodeBits := by simpa using h1
      exact h1' l hl

theorem nextCode_getD (L : List Nat) {l : Nat} (h : l ≤ 15) :
    ((List.range 16).map (nextCode L)).getD l 0 = nextCode L l := by
  have : l < 16 := by omega
  simp [List.getD_eq_getElem?_getD, this]

/-- The entries of a table Build made: the code of each symbol is the first code of its length plus
the number of lower symbols of that length (42_huffman.md R78, R82). -/
theorem mem_entries {L : List Nat} {T : HuffmanTable} (h : build L = some T) (e : HuffEntry) :
    e ∈ T.entries ↔
      L[e.sym]? = some e.len ∧ e.len ≠ 0 ∧
        e.code = nextCode L e.len + (L.take e.sym).count e.len := by
  obtain ⟨hle, -, hT⟩ := build_eq_some h
  rw [hT, mem_assignCodes (by intro l hl; have := hle l hl; simp; omega)]
  constructor
  · rintro ⟨i, h1, h2, h3, h4⟩
    have hi : e.sym = i := by omega
    have hl : e.len ≤ 15 := hle _ (List.mem_of_getElem? h1)
    rw [nextCode_getD L hl] at h4
    exact ⟨hi ▸ h1, h2, hi ▸ h4⟩
  · rintro ⟨h1, h2, h3⟩
    have hl : e.len ≤ 15 := hle _ (List.mem_of_getElem? h1)
    exact ⟨e.sym, h1, h2, by omega, by rw [nextCode_getD L hl]; exact h3⟩

theorem sym_lt {L : List Nat} {T : HuffmanTable} (h : build L = some T) {e : HuffEntry}
    (he : e ∈ T.entries) : e.sym < L.length := by
  have := ((mem_entries h e).1 he).1
  exact (List.getElem?_eq_some_iff.1 this).1

/-- The first free code after length `l`, over a greater length (42_huffman.md R81). -/
theorem nextCode_scale (L : List Nat) (l d : Nat) :
    (nextCode L l + blCount L l) * 2 ^ (d + 1) ≤ nextCode L (l + d + 1) := by
  induction d with
  | zero => simp [nextCode, Nat.shiftLeft_eq]
  | succ d ih =>
    have : nextCode L (l + (d + 1) + 1) =
        (nextCode L (l + d + 1) + blCount L (l + d + 1)) * 2 := by
      simp [nextCode, Nat.shiftLeft_eq, Nat.add_assoc]
    rw [this, Nat.pow_succ, ← Nat.mul_assoc]
    exact Nat.mul_le_mul_right 2 (Nat.le_trans ih (Nat.le_add_right _ _))

theorem kraftSum_eq (L : List Nat) : kraftSum L = nextCode L 15 + blCount L 15 := by
  simp [kraftSum, maxCodeBits, nextCode, List.range_succ, Nat.shiftLeft_eq, blCount]
  omega

/-- Codes of length `l` fit in `l` bits when the Kraft sum is at most one (42_huffman.md R79). -/
theorem nextCode_room {L : List Nat} (hk : kraftSum L ≤ 2 ^ 15) {l : Nat} (hl : l ≤ 15) :
    nextCode L l + blCount L l ≤ 2 ^ l := by
  rw [kraftSum_eq] at hk
  by_cases h15 : l = 15
  · subst h15; exact hk
  · have h1 := nextCode_scale L l (14 - l)
    have e1 : l + (14 - l) + 1 = 15 := by omega
    have e2 : 14 - l + 1 = 15 - l := by omega
    rw [e1, e2] at h1
    have h2 : (nextCode L l + blCount L l) * 2 ^ (15 - l) ≤ 2 ^ l * 2 ^ (15 - l) := by
      rw [← Nat.pow_add]
      have : l + (15 - l) = 15 := by omega
      rw [this]; omega
    exact Nat.le_of_mul_le_mul_right h2 (Nat.two_pow_pos _)

/-- Each entry's code lies among the codes of its length (42_huffman.md R81). -/
theorem code_range {L : List Nat} {T : HuffmanTable} (h : build L = some T) {e : HuffEntry}
    (he : e ∈ T.entries) :
    nextCode L e.len ≤ e.code ∧ e.code < nextCode L e.len + blCount L e.len := by
  obtain ⟨h1, h2, h3⟩ := (mem_entries h e).1 he
  refine ⟨by omega, ?_⟩
  have hlt : (L.take e.sym).count e.len < L.count e.len := by
    have hs := sym_lt h he
    have hsplit := congrArg (List.count e.len) (List.take_append_drop e.sym L)
    rw [List.count_append, List.drop_eq_getElem_cons hs] at hsplit
    have : L[e.sym] = e.len := by
      rw [List.getElem?_eq_getElem hs] at h1; exact Option.some.inj h1
    rw [this, List.count_cons_self] at hsplit
    omega
  rw [blCount, if_neg h2]; omega

end Sys2Proof.Machine
end

