-- ==== Sys2Proof/Laws/Decode.lean ====
section
/-! SUPPORT. What a table lookup, Decode(T) and the element decoder can do, over any table. -/

namespace Sys2Proof.Machine

/-- A lookup that gives a symbol found one of the table's codes (42_huffman.md R77). -/
theorem HuffmanTable.lookup_mem {T : HuffmanTable} {l c s : Nat} (h : T.lookup l c = some s) :
    ∃ e ∈ T.entries, e.len = l ∧ e.code = c ∧ e.sym = s := by
  unfold HuffmanTable.lookup at h
  cases hf : T.entries.find? (fun e => e.len == l && e.code == c) with
  | none => rw [hf] at h; cases h
  | some e =>
    rw [hf] at h
    have hp := List.find?_some hf
    simp only [Bool.and_eq_true, beq_iff_eq] at hp
    exact ⟨e, List.mem_of_find?_eq_some hf, hp.1, hp.2, Option.some.inj h⟩

/-- What the loop of Decode(T) can do from a front end in the middle of a code: give a symbol of the
table after at least one bit, or raise one of two errors; it never stops. -/
theorem Front.decodeLoop_cases (T : HuffmanTable) {f : Front} (h : f.ok) {c l : Nat}
    (hc : f.accCode = some c) (hl : f.accLen = some l) (n : Nat) :
    (∃ e ∈ T.entries, ∃ k, 1 ≤ k ∧ k ≤ n ∧ k ≤ f.bitsRemaining ∧ e.len = l + k ∧
      e.code = (c <<< k) ||| bitsToNat (f.unread.take k).reverse ∧
      Front.decodeLoop T n f = .ok e.sym (f.advance k).clearAcc) ∨
    (n ≤ f.bitsRemaining ∧
      Front.decodeLoop T n f = .raised .invalidHuffmanCode (f.advance n).clearAcc) ∨
    (f.bitsRemaining < n ∧ ∃ g, Front.decodeLoop T n f = .raised .unexpectedEof g ∧
      g.clearAcc = (f.advance f.bitsRemaining).clearAcc) := by
  induction n generalizing f c l with
  | zero => exact .inr (.inl ⟨by omega, by simp [Front.decodeLoop, Front.advance_zero h.curBit_lt]⟩)
  | succ n ih =>
    by_cases h0 : f.bitsRemaining = 0
    · refine .inr (.inr ⟨by omega, f, ?_, ?_⟩)
      · rw [Front.decodeLoop, Front.readBit_eof h0]; rfl
      · rw [h0, Front.advance_zero h.curBit_lt]
    · have h1 : 1 ≤ f.bitsRemaining := by omega
      have hu := Front.unread_eq_cons h1
      rw [Front.decodeLoop, Front.readBit_spec h h1]
      simp only [Read.andThen, Front.advance_accCode, Front.advance_accLen, hc, hl]
      have hcode : (c <<< 1) ||| (f.streamBit f.pos).toNat =
          (c <<< 1) ||| bitsToNat (f.unread.take 1).reverse := by
        rw [hu]; simp [bitsToNat]
      cases hlk : T.lookup (l + 1) ((c <<< 1) ||| (f.streamBit f.pos).toNat) with
      | some s =>
        obtain ⟨e, he, hel, hec, rfl⟩ := HuffmanTable.lookup_mem hlk
        exact .inl ⟨e, he, 1, by omega, by omega, h1, hel, by rw [hec, hcode], rfl⟩
      | none =>
        have ih' := ih (f := { f.advance 1 with
            accCode := some ((c <<< 1) ||| (f.streamBit f.pos).toNat), accLen := some (l + 1) })
          (h.advance h1) rfl rfl
        have hb : Front.bitsRemaining { f.advance 1 with
            accCode := some ((c <<< 1) ||| (f.streamBit f.pos).toNat), accLen := some (l + 1) } =
            f.bitsRemaining - 1 := Front.bitsRemaining_advance 1 f
        have hun : Front.unread { f.advance 1 with
            accCode := some ((c <<< 1) ||| (f.streamBit f.pos).toNat), accLen := some (l + 1) } =
            (f.advance 1).unread := rfl
        have hadv : ∀ k, (Front.advance k { f.advance 1 with
            accCode := some ((c <<< 1) ||| (f.streamBit f.pos).toNat),
            accLen := some (l + 1) }).clearAcc = (f.advance (k + 1)).clearAcc := by
          intro k
          have := Front.advance_advance 1 k f
          rw [Nat.add_comm 1 k] at this
          rw [← this]; rfl
        rw [hb, hun] at ih'
        simp only [hadv] at ih'
        rcases ih' with ⟨e, he, k, hk1, hkn, hkb, hel, hec, hd⟩ | ⟨hn, hd⟩ | ⟨hn, g, hd, hg⟩
        · refine .inl ⟨e, he, k + 1, by omega, by omega, by omega, by omega, ?_, hd⟩
          rw [hec, hu, List.take_succ_cons, List.reverse_cons]
          apply Nat.eq_of_testBit_eq
          intro i
          have hlen : ((f.advance 1).unread.take k).reverse.length = k := by
            simp; omega
          simp only [Nat.testBit_or, Nat.testBit_shiftLeft, testBit_bitsToNat]
          rw [List.getD_eq_getElem?_getD, List.getD_eq_getElem?_getD]
          by_cases hik : i < k
          · rw [List.getElem?_append_left (by omega)]
            have a1 : ¬ k ≤ i := by omega
            have a2 : ¬ k + 1 ≤ i := by omega
            simp [a1, a2]
          · rw [List.getElem?_append_right (by omega), hlen,
              List.getElem?_eq_none (l := ((f.advance 1).unread.take k).reverse) (by omega)]
            by_cases hik' : i = k
            · subst hik'
              have a1 : ¬ i + 1 ≤ i := by omega
              cases f.streamBit f.pos <;> simp [a1]
            · have a1 : k ≤ i := by omega
              have a2 : k + 1 ≤ i := by omega
              have a3 : 1 ≤ i - k := by omega
              have a4 : i - k - 1 = i - (k + 1) := by omega
              have a5 : i - k ≠ 0 := by omega
              have a6 : i - k = (i - k - 1) + 1 := by omega
              have a7 : (f.streamBit f.pos).toNat.testBit (i - k) = false := by
                rw [a6]; cases f.streamBit f.pos <;> simp [Nat.testBit_succ]
              have a8 : [f.streamBit f.pos][i - k]? = none := by simp; omega
              simp [a1, a2, a3, a4, a7, a8]
        · exact .inr (.inl ⟨by omega, hd⟩)
        · refine .inr (.inr ⟨by omega, g, hd, ?_⟩)
          rw [hg]
          have : f.bitsRemaining - 1 + 1 = f.bitsRemaining := by omega
          rw [this]

/-- What Decode(T) can do (42_huffman.md R83, R84). -/
theorem Front.decode_cases (T : HuffmanTable) {f : Front} (h : f.ok) :
    (∃ e ∈ T.entries, 1 ≤ e.len ∧ e.len ≤ 15 ∧ e.len ≤ f.bitsRemaining ∧
      e.code = bitsToNat (f.unread.take e.len).reverse ∧
      f.decode T = .ok e.sym (f.advance e.len).clearAcc) ∨
    (15 ≤ f.bitsRemaining ∧
      f.decode T = .raised .invalidHuffmanCode (f.advance 15).clearAcc) ∨
    (f.bitsRemaining < 15 ∧ ∃ g, f.decode T = .raised .unexpectedEof g ∧
      g.clearAcc = (f.advance f.bitsRemaining).clearAcc) := by
  have hf : ({ f with accCode := some 0, accLen := some 0 } : Front).ok := h
  rcases Front.decodeLoop_cases T hf rfl rfl maxCodeBits with
    ⟨e, he, k, hk1, hkn, hkb, hel, hec, hd⟩ | ⟨hn, hd⟩ | ⟨hn, g, hd, hg⟩
  · rw [Nat.zero_add] at hel
    subst hel
    refine .inl ⟨e, he, hk1, hkn, hkb, ?_, hd⟩
    rw [hec]; simp [show Front.unread { f with accCode := some 0, accLen := some 0 } = f.unread from rfl]
  · exact .inr (.inl ⟨hn, hd⟩)
  · exact .inr (.inr ⟨hn, g, hd, hg⟩)

/-- A place of the opcode map that a selector can give, and how many bits select it
(30_encoding.md R66): three header bits, a symbol of the table in force with its code's length, or
nothing. -/
inductive Gives : Selector → OpcodeRow → Nat → Prop
  | header (b t : Nat) (hb : b ≤ 1) (ht : t ≤ 3) :
    Gives .header (.header (b + (t <<< 1))) 3
  | storedBody : Gives .storedBody .storedBody 0
  | fixedTables : Gives .fixedTables .fixedTables 0
  | dynHeader : Gives .dynHeader .dynHeader 0
  | clSym (T : HuffmanTable) (e : HuffEntry) (he : e ∈ T.entries) (h1 : 1 ≤ e.len) :
    Gives (.clSym T) (.clSym e.sym) e.len
  | litLen (T : HuffmanTable) (e : HuffEntry) (he : e ∈ T.entries) (h1 : 1 ≤ e.len) :
    Gives (.litLen T) (.litLen e.sym) e.len
  | dist (T : HuffmanTable) (e : HuffEntry) (he : e ∈ T.entries) (h1 : 1 ≤ e.len) :
    Gives (.dist T) (.dist e.sym) e.len

/-- What the decoder can do, with ACC at ⊥: give a place of the opcode map and consume its bits, or
raise one of two errors with the cursor no further than the end of IN; it never stops. -/
theorem decodeRow_cases (sel : Selector) {f : Front} (h : f.ok) (ha : f.clearAcc = f) :
    (∃ row n, n ≤ f.bitsRemaining ∧ decodeRow sel f = .ok row (f.advance n) ∧
      Gives sel row n) ∨
    (∃ e n g, (e = .unexpectedEof ∨ e = .invalidHuffmanCode) ∧ n ≤ f.bitsRemaining ∧
      decodeRow sel f = .raised e g ∧ g.clearAcc = f.advance n) := by
  have hadv : ∀ n, (f.advance n).clearAcc = f.advance n := by
    intro n; rw [← Front.advance_clearAcc, ha]
  have h0 := Front.advance_zero h.curBit_lt
  have symbol : ∀ (T : HuffmanTable) (mk : Nat → OpcodeRow),
      (∃ e ∈ T.entries, 1 ≤ e.len ∧ e.len ≤ f.bitsRemaining ∧
        ((f.decode T).andThen fun c f => .ok (mk c) f) = .ok (mk e.sym) (f.advance e.len)) ∨
      (∃ e n g, (e = .unexpectedEof ∨ e = .invalidHuffmanCode) ∧ n ≤ f.bitsRemaining ∧
        ((f.decode T).andThen fun c f => .ok (mk c) f) = .raised e g ∧
        g.clearAcc = f.advance n) := by
    intro T mk
    rcases Front.decode_cases T h with ⟨e, he, h1, -, hb, -, hd⟩ | ⟨hn, hd⟩ | ⟨-, g, hd, hg⟩ <;>
      rw [hd]
    · exact .inl ⟨e, he, h1, hb, by rw [hadv]; rfl⟩
    · exact .inr ⟨_, 15, _, .inr rfl, hn, rfl, by rw [Front.clearAcc_clearAcc, hadv]⟩
    · exact .inr ⟨_, f.bitsRemaining, _, .inl rfl, Nat.le_refl _, rfl, by rw [hg, hadv]⟩
  cases sel with
  | header =>
    simp only [decodeRow]
    rcases Front.readBits_cases h (n := 1) (by omega) with ⟨h1, e1⟩ | ⟨-, e1⟩
    · rw [e1]
      simp only [Read.andThen]
      rcases Front.readBits_cases (h.advance h1) (n := 2) (by omega) with ⟨h2, e2⟩ | ⟨-, e2⟩
      · rw [e2]
        simp only [Front.advance_advance]
        rw [Front.bitsRemaining_advance] at h2
        have := Front.peek_lt 1 f
        have := Front.peek_lt 2 (f.advance 1)
        exact .inl ⟨_, _, by omega, rfl, .header _ _ (by omega) (by omega)⟩
      · rw [e2]; exact .inr ⟨_, 1, _, .inl rfl, h1, rfl, hadv 1⟩
    · rw [e1]; exact .inr ⟨_, 0, _, .inl rfl, by omega, rfl, by rw [ha, h0]⟩
  | storedBody => exact .inl ⟨_, 0, by omega, by rw [h0]; rfl, .storedBody⟩
  | fixedTables => exact .inl ⟨_, 0, by omega, by rw [h0]; rfl, .fixedTables⟩
  | dynHeader => exact .inl ⟨_, 0, by omega, by rw [h0]; rfl, .dynHeader⟩
  | clSym T =>
    rcases symbol T .clSym with ⟨e, he, h1, hb, hd⟩ | hr
    · exact .inl ⟨_, _, hb, hd, .clSym T e he h1⟩
    · exact .inr hr
  | litLen T =>
    rcases symbol T .litLen with ⟨e, he, h1, hb, hd⟩ | hr
    · exact .inl ⟨_, _, hb, hd, .litLen T e he h1⟩
    · exact .inr hr
  | dist T =>
    rcases symbol T .dist with ⟨e, he, h1, hb, hd⟩ | hr
    · exact .inl ⟨_, _, hb, hd, .dist T e he h1⟩
    · exact .inr hr

end Sys2Proof.Machine
end

