-- ==== Sys2Proof/Laws/State.lean ====
section
/-! SUPPORT. One lemma for each field of the state after each named update, so that no proof unfolds a
record update. -/

namespace Sys2Proof.Machine

@[simp] theorem State.withFront_toFront (s : State) (f : Front) :
    (s.withFront f).toFront = f := rfl

@[simp] theorem State.withFront_input (s : State) (f : Front) :
    (s.withFront f).input = f.input := rfl

@[simp] theorem State.withFront_curByte (s : State) (f : Front) :
    (s.withFront f).curByte = f.curByte := rfl

@[simp] theorem State.withFront_curBit (s : State) (f : Front) :
    (s.withFront f).curBit = f.curBit := rfl

@[simp] theorem State.withFront_accCode (s : State) (f : Front) :
    (s.withFront f).accCode = f.accCode := rfl

@[simp] theorem State.withFront_accLen (s : State) (f : Front) :
    (s.withFront f).accLen = f.accLen := rfl

@[simp] theorem State.withFront_cfg (s : State) (f : Front) :
    (s.withFront f).cfg = s.cfg := rfl

@[simp] theorem State.withFront_out (s : State) (f : Front) :
    (s.withFront f).out = s.out := rfl

@[simp] theorem State.withFront_phase (s : State) (f : Front) :
    (s.withFront f).phase = s.phase := rfl

@[simp] theorem State.withFront_bfinal (s : State) (f : Front) :
    (s.withFront f).bfinal = s.bfinal := rfl

@[simp] theorem State.withFront_btype (s : State) (f : Front) :
    (s.withFront f).btype = s.btype := rfl

@[simp] theorem State.withFront_blockIndex (s : State) (f : Front) :
    (s.withFront f).blockIndex = s.blockIndex := rfl

@[simp] theorem State.withFront_litTable (s : State) (f : Front) :
    (s.withFront f).litTable = s.litTable := rfl

@[simp] theorem State.withFront_distTable (s : State) (f : Front) :
    (s.withFront f).distTable = s.distTable := rfl

@[simp] theorem State.withFront_hlit (s : State) (f : Front) :
    (s.withFront f).hlit = s.hlit := rfl

@[simp] theorem State.withFront_hdist (s : State) (f : Front) :
    (s.withFront f).hdist = s.hdist := rfl

@[simp] theorem State.withFront_hclen (s : State) (f : Front) :
    (s.withFront f).hclen = s.hclen := rfl

@[simp] theorem State.withFront_clLens (s : State) (f : Front) :
    (s.withFront f).clLens = s.clLens := rfl

@[simp] theorem State.withFront_clTable (s : State) (f : Front) :
    (s.withFront f).clTable = s.clTable := rfl

@[simp] theorem State.withFront_lens (s : State) (f : Front) :
    (s.withFront f).lens = s.lens := rfl

@[simp] theorem State.withFront_length (s : State) (f : Front) :
    (s.withFront f).length = s.length := rfl

@[simp] theorem State.withFront_distance (s : State) (f : Front) :
    (s.withFront f).distance = s.distance := rfl

@[simp] theorem State.withFront_status (s : State) (f : Front) :
    (s.withFront f).status = s.status := rfl

@[simp] theorem State.withFront_errCode (s : State) (f : Front) :
    (s.withFront f).errCode = s.errCode := rfl

@[simp] theorem State.withFront_errByte (s : State) (f : Front) :
    (s.withFront f).errByte = s.errByte := rfl

@[simp] theorem State.withFront_errBit (s : State) (f : Front) :
    (s.withFront f).errBit = s.errBit := rfl

@[simp] theorem State.withFront_errBlock (s : State) (f : Front) :
    (s.withFront f).errBlock = s.errBlock := rfl

@[simp] theorem State.withFront_outLen (s : State) (f : Front) :
    (s.withFront f).outLen = s.outLen := rfl

@[simp] theorem State.withFront_consumed (s : State) (f : Front) :
    (s.withFront f).consumed = s.consumed := rfl

@[simp] theorem State.withFront_traceLog (s : State) (f : Front) :
    (s.withFront f).traceLog = s.traceLog := rfl

@[simp] theorem State.withFront_withFront (s : State) (f g : Front) :
    (s.withFront f).withFront g = s.withFront g := rfl

@[simp] theorem State.withFront_self (s : State) : s.withFront s.toFront = s := rfl

@[simp] theorem State.raise_input (e : ErrCode) (s : State) :
    (s.raise e).input = s.input := rfl

@[simp] theorem State.raise_curByte (e : ErrCode) (s : State) :
    (s.raise e).curByte = s.curByte := rfl

@[simp] theorem State.raise_curBit (e : ErrCode) (s : State) :
    (s.raise e).curBit = s.curBit := rfl

@[simp] theorem State.raise_accCode (e : ErrCode) (s : State) :
    (s.raise e).accCode = none := rfl

@[simp] theorem State.raise_accLen (e : ErrCode) (s : State) :
    (s.raise e).accLen = none := rfl

@[simp] theorem State.raise_cfg (e : ErrCode) (s : State) :
    (s.raise e).cfg = s.cfg := rfl

@[simp] theorem State.raise_out (e : ErrCode) (s : State) :
    (s.raise e).out = none := rfl

@[simp] theorem State.raise_phase (e : ErrCode) (s : State) :
    (s.raise e).phase = .halt := rfl

@[simp] theorem State.raise_bfinal (e : ErrCode) (s : State) :
    (s.raise e).bfinal = none := rfl

@[simp] theorem State.raise_btype (e : ErrCode) (s : State) :
    (s.raise e).btype = none := rfl

@[simp] theorem State.raise_blockIndex (e : ErrCode) (s : State) :
    (s.raise e).blockIndex = s.blockIndex := rfl

@[simp] theorem State.raise_litTable (e : ErrCode) (s : State) :
    (s.raise e).litTable = none := rfl

@[simp] theorem State.raise_distTable (e : ErrCode) (s : State) :
    (s.raise e).distTable = none := rfl

@[simp] theorem State.raise_hlit (e : ErrCode) (s : State) :
    (s.raise e).hlit = none := rfl

@[simp] theorem State.raise_hdist (e : ErrCode) (s : State) :
    (s.raise e).hdist = none := rfl

@[simp] theorem State.raise_hclen (e : ErrCode) (s : State) :
    (s.raise e).hclen = none := rfl

@[simp] theorem State.raise_clLens (e : ErrCode) (s : State) :
    (s.raise e).clLens = none := rfl

@[simp] theorem State.raise_clTable (e : ErrCode) (s : State) :
    (s.raise e).clTable = none := rfl

@[simp] theorem State.raise_lens (e : ErrCode) (s : State) :
    (s.raise e).lens = none := rfl

@[simp] theorem State.raise_length (e : ErrCode) (s : State) :
    (s.raise e).length = none := rfl

@[simp] theorem State.raise_distance (e : ErrCode) (s : State) :
    (s.raise e).distance = none := rfl

@[simp] theorem State.raise_status (e : ErrCode) (s : State) :
    (s.raise e).status = .error := rfl

@[simp] theorem State.raise_errCode (e : ErrCode) (s : State) :
    (s.raise e).errCode = e := rfl

@[simp] theorem State.raise_errByte (e : ErrCode) (s : State) :
    (s.raise e).errByte = some s.curByte := rfl

@[simp] theorem State.raise_errBit (e : ErrCode) (s : State) :
    (s.raise e).errBit = some s.curBit := rfl

@[simp] theorem State.raise_errBlock (e : ErrCode) (s : State) :
    (s.raise e).errBlock = some s.blockIndex := rfl

@[simp] theorem State.raise_outLen (e : ErrCode) (s : State) :
    (s.raise e).outLen = s.outLen := rfl

@[simp] theorem State.raise_consumed (e : ErrCode) (s : State) :
    (s.raise e).consumed = s.consumed := rfl

@[simp] theorem State.raise_traceLog (e : ErrCode) (s : State) :
    (s.raise e).traceLog = s.traceLog := rfl

@[simp] theorem State.raise_toFront (e : ErrCode) (s : State) :
    (s.raise e).toFront = s.toFront.clearAcc := rfl

@[simp] theorem State.traced_input (s : State) (e : TraceEvent) :
    (s.traced e).input = s.input := by
  unfold State.traced; split <;> rfl

@[simp] theorem State.traced_curByte (s : State) (e : TraceEvent) :
    (s.traced e).curByte = s.curByte := by
  unfold State.traced; split <;> rfl

@[simp] theorem State.traced_curBit (s : State) (e : TraceEvent) :
    (s.traced e).curBit = s.curBit := by
  unfold State.traced; split <;> rfl

@[simp] theorem State.traced_accCode (s : State) (e : TraceEvent) :
    (s.traced e).accCode = s.accCode := by
  unfold State.traced; split <;> rfl

@[simp] theorem State.traced_accLen (s : State) (e : TraceEvent) :
    (s.traced e).accLen = s.accLen := by
  unfold State.traced; split <;> rfl

@[simp] theorem State.traced_cfg (s : State) (e : TraceEvent) :
    (s.traced e).cfg = s.cfg := by
  unfold State.traced; split <;> rfl

@[simp] theorem State.traced_out (s : State) (e : TraceEvent) :
    (s.traced e).out = s.out := by
  unfold State.traced; split <;> rfl

@[simp] theorem State.traced_phase (s : State) (e : TraceEvent) :
    (s.traced e).phase = s.phase := by
  unfold State.traced; split <;> rfl

@[simp] theorem State.traced_bfinal (s : State) (e : TraceEvent) :
    (s.traced e).bfinal = s.bfinal := by
  unfold State.traced; split <;> rfl

@[simp] theorem State.traced_btype (s : State) (e : TraceEvent) :
    (s.traced e).btype = s.btype := by
  unfold State.traced; split <;> rfl

@[simp] theorem State.traced_blockIndex (s : State) (e : TraceEvent) :
    (s.traced e).blockIndex = s.blockIndex := by
  unfold State.traced; split <;> rfl

@[simp] theorem State.traced_litTable (s : State) (e : TraceEvent) :
    (s.traced e).litTable = s.litTable := by
  unfold State.traced; split <;> rfl

@[simp] theorem State.traced_distTable (s : State) (e : TraceEvent) :
    (s.traced e).distTable = s.distTable := by
  unfold State.traced; split <;> rfl

@[simp] theorem State.traced_hlit (s : State) (e : TraceEvent) :
    (s.traced e).hlit = s.hlit := by
  unfold State.traced; split <;> rfl

@[simp] theorem State.traced_hdist (s : State) (e : TraceEvent) :
    (s.traced e).hdist = s.hdist := by
  unfold State.traced; split <;> rfl

@[simp] theorem State.traced_hclen (s : State) (e : TraceEvent) :
    (s.traced e).hclen = s.hclen := by
  unfold State.traced; split <;> rfl

@[simp] theorem State.traced_clLens (s : State) (e : TraceEvent) :
    (s.traced e).clLens = s.clLens := by
  unfold State.traced; split <;> rfl

@[simp] theorem State.traced_clTable (s : State) (e : TraceEvent) :
    (s.traced e).clTable = s.clTable := by
  unfold State.traced; split <;> rfl

@[simp] theorem State.traced_lens (s : State) (e : TraceEvent) :
    (s.traced e).lens = s.lens := by
  unfold State.traced; split <;> rfl

@[simp] theorem State.traced_length (s : State) (e : TraceEvent) :
    (s.traced e).length = s.length := by
  unfold State.traced; split <;> rfl

@[simp] theorem State.traced_distance (s : State) (e : TraceEvent) :
    (s.traced e).distance = s.distance := by
  unfold State.traced; split <;> rfl

@[simp] theorem State.traced_status (s : State) (e : TraceEvent) :
    (s.traced e).status = s.status := by
  unfold State.traced; split <;> rfl

@[simp] theorem State.traced_errCode (s : State) (e : TraceEvent) :
    (s.traced e).errCode = s.errCode := by
  unfold State.traced; split <;> rfl

@[simp] theorem State.traced_errByte (s : State) (e : TraceEvent) :
    (s.traced e).errByte = s.errByte := by
  unfold State.traced; split <;> rfl

@[simp] theorem State.traced_errBit (s : State) (e : TraceEvent) :
    (s.traced e).errBit = s.errBit := by
  unfold State.traced; split <;> rfl

@[simp] theorem State.traced_errBlock (s : State) (e : TraceEvent) :
    (s.traced e).errBlock = s.errBlock := by
  unfold State.traced; split <;> rfl

@[simp] theorem State.traced_outLen (s : State) (e : TraceEvent) :
    (s.traced e).outLen = s.outLen := by
  unfold State.traced; split <;> rfl

@[simp] theorem State.traced_consumed (s : State) (e : TraceEvent) :
    (s.traced e).consumed = s.consumed := by
  unfold State.traced; split <;> rfl

@[simp] theorem State.traced_toFront (s : State) (e : TraceEvent) :
    (s.traced e).toFront = s.toFront := by
  unfold State.traced; split <;> rfl

@[simp] theorem State.traced_traceLog (s : State) (e : TraceEvent) :
    (s.traced e).traceLog = if s.cfg.trace then s.traceLog ++ [e] else s.traceLog := by
  unfold State.traced; split <;> rfl

@[simp] theorem State.setHeader_input (b t : Nat) (s : State) :
    (s.setHeader b t).input = s.input := by
  simp [State.setHeader]

@[simp] theorem State.setHeader_curByte (b t : Nat) (s : State) :
    (s.setHeader b t).curByte = s.curByte := by
  simp [State.setHeader]

@[simp] theorem State.setHeader_curBit (b t : Nat) (s : State) :
    (s.setHeader b t).curBit = s.curBit := by
  simp [State.setHeader]

@[simp] theorem State.setHeader_accCode (b t : Nat) (s : State) :
    (s.setHeader b t).accCode = s.accCode := by
  simp [State.setHeader]

@[simp] theorem State.setHeader_accLen (b t : Nat) (s : State) :
    (s.setHeader b t).accLen = s.accLen := by
  simp [State.setHeader]

@[simp] theorem State.setHeader_cfg (b t : Nat) (s : State) :
    (s.setHeader b t).cfg = s.cfg := by
  simp [State.setHeader]

@[simp] theorem State.setHeader_out (b t : Nat) (s : State) :
    (s.setHeader b t).out = s.out := by
  simp [State.setHeader]

@[simp] theorem State.setHeader_phase (b t : Nat) (s : State) :
    (s.setHeader b t).phase = s.phase := by
  simp [State.setHeader]

@[simp] theorem State.setHeader_bfinal (b t : Nat) (s : State) :
    (s.setHeader b t).bfinal = some b := by
  simp [State.setHeader]

@[simp] theorem State.setHeader_btype (b t : Nat) (s : State) :
    (s.setHeader b t).btype = some t := by
  simp [State.setHeader]

@[simp] theorem State.setHeader_blockIndex (b t : Nat) (s : State) :
    (s.setHeader b t).blockIndex = s.blockIndex := by
  simp [State.setHeader]

@[simp] theorem State.setHeader_litTable (b t : Nat) (s : State) :
    (s.setHeader b t).litTable = s.litTable := by
  simp [State.setHeader]

@[simp] theorem State.setHeader_distTable (b t : Nat) (s : State) :
    (s.setHeader b t).distTable = s.distTable := by
  simp [State.setHeader]

@[simp] theorem State.setHeader_hlit (b t : Nat) (s : State) :
    (s.setHeader b t).hlit = s.hlit := by
  simp [State.setHeader]

@[simp] theorem State.setHeader_hdist (b t : Nat) (s : State) :
    (s.setHeader b t).hdist = s.hdist := by
  simp [State.setHeader]

@[simp] theorem State.setHeader_hclen (b t : Nat) (s : State) :
    (s.setHeader b t).hclen = s.hclen := by
  simp [State.setHeader]

@[simp] theorem State.setHeader_clLens (b t : Nat) (s : State) :
    (s.setHeader b t).clLens = s.clLens := by
  simp [State.setHeader]

@[simp] theorem State.setHeader_clTable (b t : Nat) (s : State) :
    (s.setHeader b t).clTable = s.clTable := by
  simp [State.setHeader]

@[simp] theorem State.setHeader_lens (b t : Nat) (s : State) :
    (s.setHeader b t).lens = s.lens := by
  simp [State.setHeader]

@[simp] theorem State.setHeader_length (b t : Nat) (s : State) :
    (s.setHeader b t).length = s.length := by
  simp [State.setHeader]

@[simp] theorem State.setHeader_distance (b t : Nat) (s : State) :
    (s.setHeader b t).distance = s.distance := by
  simp [State.setHeader]

@[simp] theorem State.setHeader_status (b t : Nat) (s : State) :
    (s.setHeader b t).status = s.status := by
  simp [State.setHeader]

@[simp] theorem State.setHeader_errCode (b t : Nat) (s : State) :
    (s.setHeader b t).errCode = s.errCode := by
  simp [State.setHeader]

@[simp] theorem State.setHeader_errByte (b t : Nat) (s : State) :
    (s.setHeader b t).errByte = s.errByte := by
  simp [State.setHeader]

@[simp] theorem State.setHeader_errBit (b t : Nat) (s : State) :
    (s.setHeader b t).errBit = s.errBit := by
  simp [State.setHeader]

@[simp] theorem State.setHeader_errBlock (b t : Nat) (s : State) :
    (s.setHeader b t).errBlock = s.errBlock := by
  simp [State.setHeader]

@[simp] theorem State.setHeader_outLen (b t : Nat) (s : State) :
    (s.setHeader b t).outLen = s.outLen := by
  simp [State.setHeader]

@[simp] theorem State.setHeader_consumed (b t : Nat) (s : State) :
    (s.setHeader b t).consumed = s.consumed := by
  simp [State.setHeader]

@[simp] theorem State.setHeader_toFront (b t : Nat) (s : State) :
    (s.setHeader b t).toFront = s.toFront := by
  simp [State.setHeader]

@[simp] theorem State.setHeader_traceLog (b t : Nat) (s : State) :
    (s.setHeader b t).traceLog = if s.cfg.trace then s.traceLog ++ [.hdr s.blockIndex b t] else s.traceLog := by
  simp [State.setHeader]

@[simp] theorem State.untraced_input (s : State) :
    s.untraced.input = s.input := rfl

@[simp] theorem State.untraced_curByte (s : State) :
    s.untraced.curByte = s.curByte := rfl

@[simp] theorem State.untraced_curBit (s : State) :
    s.untraced.curBit = s.curBit := rfl

@[simp] theorem State.untraced_accCode (s : State) :
    s.untraced.accCode = s.accCode := rfl

@[simp] theorem State.untraced_accLen (s : State) :
    s.untraced.accLen = s.accLen := rfl

@[simp] theorem State.untraced_cfg (s : State) :
    s.untraced.cfg = { s.cfg with trace := false } := rfl

@[simp] theorem State.untraced_out (s : State) :
    s.untraced.out = s.out := rfl

@[simp] theorem State.untraced_phase (s : State) :
    s.untraced.phase = s.phase := rfl

@[simp] theorem State.untraced_bfinal (s : State) :
    s.untraced.bfinal = s.bfinal := rfl

@[simp] theorem State.untraced_btype (s : State) :
    s.untraced.btype = s.btype := rfl

@[simp] theorem State.untraced_blockIndex (s : State) :
    s.untraced.blockIndex = s.blockIndex := rfl

@[simp] theorem State.untraced_litTable (s : State) :
    s.untraced.litTable = s.litTable := rfl

@[simp] theorem State.untraced_distTable (s : State) :
    s.untraced.distTable = s.distTable := rfl

@[simp] theorem State.untraced_hlit (s : State) :
    s.untraced.hlit = s.hlit := rfl

@[simp] theorem State.untraced_hdist (s : State) :
    s.untraced.hdist = s.hdist := rfl

@[simp] theorem State.untraced_hclen (s : State) :
    s.untraced.hclen = s.hclen := rfl

@[simp] theorem State.untraced_clLens (s : State) :
    s.untraced.clLens = s.clLens := rfl

@[simp] theorem State.untraced_clTable (s : State) :
    s.untraced.clTable = s.clTable := rfl

@[simp] theorem State.untraced_lens (s : State) :
    s.untraced.lens = s.lens := rfl

@[simp] theorem State.untraced_length (s : State) :
    s.untraced.length = s.length := rfl

@[simp] theorem State.untraced_distance (s : State) :
    s.untraced.distance = s.distance := rfl

@[simp] theorem State.untraced_status (s : State) :
    s.untraced.status = s.status := rfl

@[simp] theorem State.untraced_errCode (s : State) :
    s.untraced.errCode = s.errCode := rfl

@[simp] theorem State.untraced_errByte (s : State) :
    s.untraced.errByte = s.errByte := rfl

@[simp] theorem State.untraced_errBit (s : State) :
    s.untraced.errBit = s.errBit := rfl

@[simp] theorem State.untraced_errBlock (s : State) :
    s.untraced.errBlock = s.errBlock := rfl

@[simp] theorem State.untraced_outLen (s : State) :
    s.untraced.outLen = s.outLen := rfl

@[simp] theorem State.untraced_consumed (s : State) :
    s.untraced.consumed = s.consumed := rfl

@[simp] theorem State.untraced_traceLog (s : State) :
    s.untraced.traceLog = [] := rfl

@[simp] theorem State.untraced_toFront (s : State) :
    s.untraced.toFront = s.toFront := rfl

@[simp] theorem State.withTrailing_input (bs : List Byte) (s : State) :
    (s.withTrailing bs).input = s.input.appendAll bs := rfl

@[simp] theorem State.withTrailing_curByte (bs : List Byte) (s : State) :
    (s.withTrailing bs).curByte = s.curByte := rfl

@[simp] theorem State.withTrailing_curBit (bs : List Byte) (s : State) :
    (s.withTrailing bs).curBit = s.curBit := rfl

@[simp] theorem State.withTrailing_accCode (bs : List Byte) (s : State) :
    (s.withTrailing bs).accCode = s.accCode := rfl

@[simp] theorem State.withTrailing_accLen (bs : List Byte) (s : State) :
    (s.withTrailing bs).accLen = s.accLen := rfl

@[simp] theorem State.withTrailing_cfg (bs : List Byte) (s : State) :
    (s.withTrailing bs).cfg = s.cfg := rfl

@[simp] theorem State.withTrailing_out (bs : List Byte) (s : State) :
    (s.withTrailing bs).out = s.out := rfl

@[simp] theorem State.withTrailing_phase (bs : List Byte) (s : State) :
    (s.withTrailing bs).phase = s.phase := rfl

@[simp] theorem State.withTrailing_bfinal (bs : List Byte) (s : State) :
    (s.withTrailing bs).bfinal = s.bfinal := rfl

@[simp] theorem State.withTrailing_btype (bs : List Byte) (s : State) :
    (s.withTrailing bs).btype = s.btype := rfl

@[simp] theorem State.withTrailing_blockIndex (bs : List Byte) (s : State) :
    (s.withTrailing bs).blockIndex = s.blockIndex := rfl

@[simp] theorem State.withTrailing_litTable (bs : List Byte) (s : State) :
    (s.withTrailing bs).litTable = s.litTable := rfl

@[simp] theorem State.withTrailing_distTable (bs : List Byte) (s : State) :
    (s.withTrailing bs).distTable = s.distTable := rfl

@[simp] theorem State.withTrailing_hlit (bs : List Byte) (s : State) :
    (s.withTrailing bs).hlit = s.hlit := rfl

@[simp] theorem State.withTrailing_hdist (bs : List Byte) (s : State) :
    (s.withTrailing bs).hdist = s.hdist := rfl

@[simp] theorem State.withTrailing_hclen (bs : List Byte) (s : State) :
    (s.withTrailing bs).hclen = s.hclen := rfl

@[simp] theorem State.withTrailing_clLens (bs : List Byte) (s : State) :
    (s.withTrailing bs).clLens = s.clLens := rfl

@[simp] theorem State.withTrailing_clTable (bs : List Byte) (s : State) :
    (s.withTrailing bs).clTable = s.clTable := rfl

@[simp] theorem State.withTrailing_lens (bs : List Byte) (s : State) :
    (s.withTrailing bs).lens = s.lens := rfl

@[simp] theorem State.withTrailing_length (bs : List Byte) (s : State) :
    (s.withTrailing bs).length = s.length := rfl

@[simp] theorem State.withTrailing_distance (bs : List Byte) (s : State) :
    (s.withTrailing bs).distance = s.distance := rfl

@[simp] theorem State.withTrailing_status (bs : List Byte) (s : State) :
    (s.withTrailing bs).status = s.status := rfl

@[simp] theorem State.withTrailing_errCode (bs : List Byte) (s : State) :
    (s.withTrailing bs).errCode = s.errCode := rfl

@[simp] theorem State.withTrailing_errByte (bs : List Byte) (s : State) :
    (s.withTrailing bs).errByte = s.errByte := rfl

@[simp] theorem State.withTrailing_errBit (bs : List Byte) (s : State) :
    (s.withTrailing bs).errBit = s.errBit := rfl

@[simp] theorem State.withTrailing_errBlock (bs : List Byte) (s : State) :
    (s.withTrailing bs).errBlock = s.errBlock := rfl

@[simp] theorem State.withTrailing_outLen (bs : List Byte) (s : State) :
    (s.withTrailing bs).outLen = s.outLen := rfl

@[simp] theorem State.withTrailing_consumed (bs : List Byte) (s : State) :
    (s.withTrailing bs).consumed = s.consumed := rfl

@[simp] theorem State.withTrailing_traceLog (bs : List Byte) (s : State) :
    (s.withTrailing bs).traceLog = s.traceLog := rfl

end Sys2Proof.Machine
end

