-- ==== Sys2Proof/Laws/Ops.lean ====
section
/-! SUPPORT. What each shared operation over the state does, said once: its value and next state, or
the way the element ends in it. -/

namespace Sys2Proof.Machine

/-! ## Sequencing -/

@[simp] theorem OpRes.andThen_done {α β : Type} (a : α) (s : State) (k : α → State → OpRes β) :
    (OpRes.done a s).andThen k = k a s := rfl

@[simp] theorem OpRes.andThen_stop {α β : Type} (o : Host.Outcome State Fault Refusal)
    (k : α → State → OpRes β) : (OpRes.stop o : OpRes α).andThen k = .stop o := rfl

@[simp] theorem OpRes.outcome_done {α : Type} (a : α) (s : State) :
    (OpRes.done a s).outcome = .next s := rfl

@[simp] theorem OpRes.outcome_stop {α : Type} (o : Host.Outcome State Fault Refusal) :
    (OpRes.stop o : OpRes α).outcome = o := rfl

/-- An operation with a continuation ends in a value exactly when both do. -/
theorem OpRes.andThen_eq_done {α β : Type} {r : OpRes α} {k : α → State → OpRes β} {b : β}
    {t : State} : r.andThen k = .done b t ↔ ∃ a u, r = .done a u ∧ k a u = .done b t := by
  cases r with
  | done a u =>
    exact ⟨fun h => ⟨a, u, rfl, h⟩, by rintro ⟨_, _, h, hk⟩; cases h; exact hk⟩
  | stop o => simp

/-- An operation with a continuation stops where the first of the two stops. -/
theorem OpRes.andThen_eq_stop {α β : Type} {r : OpRes α} {k : α → State → OpRes β}
    {o : Host.Outcome State Fault Refusal} :
    r.andThen k = .stop o ↔ r = .stop o ∨ ∃ a u, r = .done a u ∧ k a u = .stop o := by
  cases r with
  | done a u =>
    exact ⟨fun h => .inr ⟨a, u, rfl, h⟩, by
      rintro (h | ⟨_, _, h, hk⟩)
      · cases h
      · cases h; exact hk⟩
  | stop o => simp

/-- A rule gives a next state by ending, or by stopping with one (a `raise`). -/
theorem OpRes.outcome_eq_next {α : Type} {r : OpRes α} {t : State} :
    r.outcome = .next t ↔ (∃ a, r = .done a t) ∨ r = .stop (.next t) := by
  cases r <;> simp [OpRes.outcome]

@[simp] theorem needReg_some {α : Type} (r : Reg) (a : α) (s : State) :
    needReg r (some a) s = .done a s := rfl

@[simp] theorem needReg_none {α : Type} (r : Reg) (s : State) :
    needReg r (none : Option α) s = .stop (.fault (.noValue r)) := rfl

/-- A read of a register that holds a value (10_state.md R34). -/
theorem needReg_eq {α : Type} {v : Option α} {a : α} (h : v = some a) (r : Reg) (s : State) :
    needReg r v s = .done a s := by rw [h]; rfl

/-- `|out|` of an OUT that holds a value (20_memory.md R41). -/
theorem outSize_eq {s : State} {m : Memory} (hm : s.out = some m) :
    outSize s = .done m.size s := by simp [outSize, hm]

/-! ## Reads of IN -/

/-- ReadBits(n) with n bits left (41_bitreader.md R73). -/
theorem State.readBits_ok {s : State} (h : s.toFront.ok) {n : Nat} (h16 : n ≤ 16)
    (hn : n ≤ s.toFront.bitsRemaining) :
    s.readBits n = .done (s.toFront.peek n) (s.withFront (s.toFront.advance n)) := by
  rw [State.readBits, Front.readBits_peek h h16 hn]; rfl

/-- ReadBits(n) with fewer bits left: UnexpectedEof, and the cursor stays (41_bitreader.md R73). -/
theorem State.readBits_eof {s : State} {n : Nat} (h16 : n ≤ 16)
    (hn : s.toFront.bitsRemaining < n) : s.readBits n = raiseError .unexpectedEof s := by
  rw [State.readBits, Front.readBits_eof h16 hn]; rfl

/-- Operand assembly with its extra bits left (30_encoding.md R62). -/
theorem readOffset_ok {s : State} (h : s.toFront.ok) (base : Nat) {n : Nat} (h16 : n ≤ 16)
    (hn : n ≤ s.toFront.bitsRemaining) :
    readOffset base n s = .done (base + s.toFront.peek n) (s.withFront (s.toFront.advance n)) := by
  rw [readOffset, State.readBits_ok h h16 hn]; rfl

/-- Operand assembly with too few bits left. -/
theorem readOffset_eof {s : State} (base : Nat) {n : Nat} (h16 : n ≤ 16)
    (hn : s.toFront.bitsRemaining < n) :
    readOffset base n s = raiseError .unexpectedEof s := by
  rw [readOffset, State.readBits_eof h16 hn]; rfl

/-- ReadRawBytes(n) with n bytes left at a byte boundary (41_bitreader.md R76). -/
theorem State.readRawBytes_ok {s : State} (h : s.toFront.ok) (h0 : s.curBit = 0) {n : Nat}
    (hn : n ≤ s.input.size - s.curByte) :
    s.readRawBytes n =
      .done ((s.input.bytes.drop s.curByte).take n)
        (s.withFront { s.toFront with curByte := s.curByte + n }) := by
  rw [State.readRawBytes, Front.readRawBytes_spec h h0 hn]; rfl

/-- ReadRawBytes(n) with fewer bytes left: UnexpectedEof, and no byte is read. -/
theorem State.readRawBytes_eof {s : State} {n : Nat} (hn : s.toFront.bytesRemaining < n) :
    s.readRawBytes n = raiseError .unexpectedEof s := by
  rw [State.readRawBytes, Front.readRawBytes_eof hn]; rfl

/-! ## Writes of OUT -/

theorem outFull_eq_false {cfg : Config} {n : Nat} : outFull cfg n = false ↔ withinCap cfg (n + 1) := by
  unfold outFull withinCap
  cases cfg.outCap with
  | none => exact ⟨fun _ _ h => absurd h (by simp), fun _ => rfl⟩
  | some c =>
    show decide (c ≤ n) = false ↔ ∀ cap, some c = some cap → n + 1 ≤ cap
    rw [decide_eq_false_iff_not, Nat.not_le]
    exact ⟨fun h _ e => Option.some.inj e ▸ h, fun h => h c rfl⟩

theorem withinCap.mono {cfg : Config} {m n : Nat} (h : withinCap cfg n) (hmn : m ≤ n) :
    withinCap cfg m := fun cap hc => Nat.le_trans hmn (h cap hc)

theorem withinCap_of_unbounded {cfg : Config} (h : cfg.outCap = none) (n : Nat) :
    withinCap cfg n := by
  intro cap hc; rw [h] at hc; cases hc

/-- What a write of one byte to OUT can do (20_memory.md R38, 00_scope.md R11). -/
theorem memWriteOut_cases {s : State} {m : Memory} (hm : s.out = some m) (v : Byte) :
    (withinCap s.cfg (m.size + 1) ∧ memWriteOut v s = .done () { s with out := some (m.append v) }) ∨
    ((∃ cap, s.cfg.outCap = some cap ∧ cap ≤ m.size) ∧
      memWriteOut v s = .stop (.fault .outCapStuck)) := by
  unfold memWriteOut
  rw [hm]
  cases hf : outFull s.cfg m.size with
  | false => exact .inl ⟨outFull_eq_false.1 hf, by simp [hf]⟩
  | true =>
    refine .inr ⟨?_, by simp [hf]⟩
    unfold outFull at hf
    split at hf
    · cases hf
    · exact ⟨_, ‹_›, by simpa using hf⟩

/-- A write of one byte within OUT_CAP. -/
theorem memWriteOut_ok {s : State} {m : Memory} (hm : s.out = some m) (v : Byte)
    (hc : withinCap s.cfg (m.size + 1)) :
    memWriteOut v s = .done () { s with out := some (m.append v) } := by
  simp [memWriteOut, hm, outFull_eq_false.2 hc]

/-- A write of one byte at OUT_CAP (00_scope.md R11). -/
theorem memWriteOut_stuck {s : State} {m : Memory} {cap : Nat} (hm : s.out = some m) (v : Byte)
    (hcap : s.cfg.outCap = some cap) (hc : cap ≤ m.size) :
    memWriteOut v s = .stop (.fault .outCapStuck) := by
  simp [memWriteOut, hm, outFull, hcap, hc]

/-- What appending a list of bytes to OUT can do: all of it, or the stop at OUT_CAP. -/
theorem appendBytes_cases {s : State} {m : Memory} (hm : s.out = some m) (bs : List Byte) :
    ((bs = [] ∨ withinCap s.cfg (m.size + bs.length)) ∧
      appendBytes bs s = .done () { s with out := some (m.appendAll bs) }) ∨
    ((∃ cap, s.cfg.outCap = some cap ∧ cap < m.size + bs.length) ∧
      appendBytes bs s = .stop (.fault .outCapStuck)) := by
  induction bs generalizing s m with
  | nil => exact .inl ⟨.inl rfl, by simp [appendBytes, Memory.appendAll, ← hm]⟩
  | cons b bs ih =>
    rw [appendBytes]
    obtain ⟨hc, hw⟩ | ⟨⟨cap, hcap, hle⟩, hw⟩ := memWriteOut_cases hm b
    · rw [hw, OpRes.andThen_done]
      obtain ⟨hc', h'⟩ | ⟨⟨cap, hcap, hlt⟩, h'⟩ :=
        ih (s := { s with out := some (m.append b) }) (m := m.append b) rfl
      · refine .inl ⟨.inr ?_, by rw [h']; rfl⟩
        rcases hc' with rfl | hc'
        · exact hc
        · exact hc'.mono (by simp; omega)
      · exact .inr ⟨⟨cap, hcap, by simp at hlt ⊢; omega⟩, h'⟩
    · exact .inr ⟨⟨cap, hcap, by simp; omega⟩, by rw [hw, OpRes.andThen_stop]⟩

/-- Appending a list of bytes within OUT_CAP (44_block_decoder.md R107). -/
theorem appendBytes_ok {s : State} {m : Memory} (hm : s.out = some m) (bs : List Byte)
    (hc : withinCap s.cfg (m.size + bs.length)) :
    appendBytes bs s = .done () { s with out := some (m.appendAll bs) } := by
  obtain ⟨-, h⟩ | ⟨⟨cap, hcap, hlt⟩, -⟩ := appendBytes_cases hm bs
  · exact h
  · have := hc cap hcap; omega

/-- Appending a list of bytes past OUT_CAP: stuck, wherever in the list that is. -/
theorem appendBytes_stuck {s : State} {m : Memory} {cap : Nat} (hm : s.out = some m)
    (bs : List Byte) (hcap : s.cfg.outCap = some cap) (hle : m.size ≤ cap)
    (hlt : cap < m.size + bs.length) : appendBytes bs s = .stop (.fault .outCapStuck) := by
  obtain ⟨hc, -⟩ | ⟨-, h⟩ := appendBytes_cases hm bs
  · rcases hc with rfl | hc
    · simp at hlt; omega
    · have := hc cap hcap; omega
  · exact h

/-! ## The copy of a back-reference -/

@[simp] theorem length_copied (bytes : List Byte) (d n : Nat) : (copied bytes d n).length = n := by
  simp [copied]

/-- The copy with its first byte taken off is the copy over the bytes with that byte added
(44_block_decoder.md R115): each byte equals the one `dist` before it. -/
theorem copied_succ (bytes : List Byte) {d : Nat} (h1 : 1 ≤ d) (hd : d ≤ bytes.length) (n : Nat) :
    copied bytes d (n + 1) =
      bytes.getD (bytes.length - d) 0
        :: copied (bytes ++ [bytes.getD (bytes.length - d) 0]) d n := by
  unfold copied
  rw [List.range_succ_eq_map, List.map_cons, List.map_map]
  congr 1
  apply List.map_congr_left
  intro i _
  simp only [Function.comp, List.length_append, List.length_singleton]
  have hlt : i % d < d := Nat.mod_lt _ h1
  by_cases hi : i % d + 1 = d
  · have : (i + 1) % d = 0 := by rw [← Nat.mod_add_mod, hi, Nat.mod_self]
    have e : bytes.length + 1 - d + i % d = bytes.length := by omega
    rw [Nat.succ_eq_add_one, this, e]
    simp
  · have : (i + 1) % d = i % d + 1 := by
      rw [Nat.add_mod]
      have h1d : 1 % d = 1 := Nat.mod_eq_of_lt (by omega)
      rw [h1d, Nat.mod_eq_of_lt (by omega)]
    rw [Nat.succ_eq_add_one, this]
    have e : bytes.length + 1 - d + i % d = bytes.length - d + (i % d + 1) := by omega
    rw [e]
    have hb : bytes.length - d + (i % d + 1) < bytes.length := by omega
    simp [List.getD_eq_getElem?_getD, List.getElem?_append_left hb]

/-- What the copy of a back-reference can do, at a distance that passed its check
(44_block_decoder.md R114, R115): the whole copy, or the stop at OUT_CAP. -/
theorem copyBack_cases {s : State} {m : Memory} (hm : s.out = some m) (hw : m.wf = true) {d : Nat}
    (h1 : 1 ≤ d) (hd : d ≤ m.size) (n : Nat) :
    ((n = 0 ∨ withinCap s.cfg (m.size + n)) ∧
      copyBack n d s = .done () { s with out := some (m.appendAll (copied m.bytes d n)) }) ∨
    ((∃ cap, s.cfg.outCap = some cap ∧ cap < m.size + n) ∧
      copyBack n d s = .stop (.fault .outCapStuck)) := by
  induction n generalizing s m with
  | zero => exact .inl ⟨.inl rfl, by simp [copyBack, copied, Memory.appendAll, ← hm]⟩
  | succ n ih =>
    have hlen : m.bytes.length = m.size := Memory.length_bytes m
    have hread : m.read (m.size - d) = some (m.bytes.getD (m.bytes.length - d) 0) := by
      rw [Memory.read_eq hw, hlen, List.getD_eq_getElem?_getD,
        List.getElem?_eq_getElem (by omega)]
      rfl
    have hr : memReadOut (m.size - d) s = .done (m.bytes.getD (m.bytes.length - d) 0) s := by
      simp [memReadOut, hm, hread]
    have ho : outSize s = .done m.size s := by simp [outSize, hm]
    rw [copyBack, ho, OpRes.andThen_done, hr, OpRes.andThen_done]
    obtain ⟨hc, h⟩ | ⟨⟨cap, hcap, hle⟩, h⟩ :=
      memWriteOut_cases hm (m.bytes.getD (m.bytes.length - d) 0)
    · rw [h, OpRes.andThen_done]
      obtain ⟨hc', h'⟩ | ⟨⟨cap, hcap, hlt⟩, h'⟩ :=
        ih (s := { s with out := some (m.append (m.bytes.getD (m.bytes.length - d) 0)) })
          rfl (Memory.wf_append hw _) (by simp; omega)
      · refine .inl ⟨.inr ?_, ?_⟩
        · rcases hc' with rfl | hc'
          · exact hc
          · exact hc'.mono (by simp; omega)
        · rw [h', copied_succ m.bytes h1 (by omega)]
          rw [Memory.bytes_append]
          rfl
      · exact .inr ⟨⟨cap, hcap, by simp at hlt; omega⟩, h'⟩
    · exact .inr ⟨⟨cap, hcap, by omega⟩, by rw [h, OpRes.andThen_stop]⟩

/-! ## The dynamic header -/

/-- What a run of code lengths can do (43_dynamic_header.md R96 to R99). -/
theorem appendRun_cases {s : State} {a b : Nat} {L : List Nat} (ha : s.hlit = some a)
    (hb : s.hdist = some b) (hL : s.lens = some L) (r v : Nat) :
    (L.length + r ≤ a + b ∧
      appendRun r v s = .done () { s with lens := some (L ++ List.replicate r v) }) ∨
    (a + b < L.length + r ∧ appendRun r v s = raiseError .invalidDynamicHeader s) := by
  unfold appendRun lensTotal
  simp only [ha, hb, hL, needReg_some, OpRes.andThen_done]
  split
  · exact .inr ⟨‹_›, rfl⟩
  · exact .inl ⟨by omega, rfl⟩

/-- What Build inside an element can do (42_huffman.md R78). -/
theorem buildTable_cases (L : List Nat) (s : State) :
    (∃ T, build L = some T ∧ buildTable L s = .done T s) ∨
    (build L = none ∧ buildTable L s = raiseError .invalidCodeLengths s) := by
  unfold buildTable
  cases build L <;> simp

/-- What reading the three counts can do (43_dynamic_header.md R90): all three, or the end of the
input at one of them, with the cursor left there. -/
theorem readCounts_cases {s : State} (h : s.toFront.ok) :
    (14 ≤ s.toFront.bitsRemaining ∧ ∃ a b c : Nat,
      a = 257 + s.toFront.peek 5 ∧ b = 1 + (s.toFront.advance 5).peek 5 ∧
      c = 4 + (s.toFront.advance 10).peek 4 ∧
      readCounts s =
        .done c
          (({ s.withFront (s.toFront.advance 14) with
            hlit := some a, hdist := some b, hclen := some c
            clLens := some (List.replicate clSymbols 0) }).traced (.dyn s.blockIndex a b c))) ∨
    (s.toFront.bitsRemaining < 14 ∧ ∃ k, k = 5 * (s.toFront.bitsRemaining / 5) ∧
      k ≤ s.toFront.bitsRemaining ∧
      readCounts s = raiseError .unexpectedEof (s.withFront (s.toFront.advance k))) := by
  unfold readCounts readHlit readHdist readHclen
  by_cases h1 : 5 ≤ s.toFront.bitsRemaining
  · have ok1 := h.advance h1
    rw [readOffset_ok h _ (by omega) h1, OpRes.andThen_done]
    by_cases h2 : 5 ≤ (s.toFront.advance 5).bitsRemaining
    · have ok2 := ok1.advance h2
      rw [readOffset_ok (by exact ok1) _ (by omega) h2, OpRes.andThen_done]
      rw [Front.bitsRemaining_advance] at h2
      by_cases h3 : 4 ≤ ((s.toFront.advance 5).advance 5).bitsRemaining
      · rw [readOffset_ok (by exact ok2) _ (by omega) h3, OpRes.andThen_done]
        rw [Front.advance_advance, Front.bitsRemaining_advance] at h3
        refine .inl ⟨by omega, _, _, _, rfl, rfl, rfl, ?_⟩
        dsimp only [State.withFront_toFront]
        simp only [Front.advance_advance]
        rfl
      · rw [readOffset_eof _ (by omega) (by exact Nat.lt_of_not_le h3)]
        rw [Front.advance_advance, Front.bitsRemaining_advance] at h3
        refine .inr ⟨by omega, 10, by omega, by omega, ?_⟩
        rw [← Front.advance_advance 5 5]; rfl
    · rw [readOffset_eof _ (by omega) (by exact Nat.lt_of_not_le h2)]
      rw [Front.bitsRemaining_advance] at h2
      exact .inr ⟨by omega, 5, by omega, by omega, rfl⟩
  · rw [readOffset_eof _ (by omega) (by omega)]
    exact .inr ⟨by omega, 0, by omega, by omega, by rw [Front.advance_zero h.curBit_lt]; rfl⟩

/-- What reading the code lengths of the code-length alphabet can do (43_dynamic_header.md R92): every
listed symbol gets its 3-bit value, every other entry of CL_LENS is unchanged; or the input ends, with
the cursor left at the length that does not fit. -/
theorem readClLens_cases {s : State} (h : s.toFront.ok) {L : List Nat} (hL : s.clLens = some L)
    {syms : List Nat} (hnd : syms.Nodup) :
    (3 * syms.length ≤ s.toFront.bitsRemaining ∧ ∃ L' : List Nat, L'.length = L.length ∧
      (∀ c, c < L.length → L'[c]? =
        if c ∈ syms then some ((s.toFront.advance (3 * syms.idxOf c)).peek 3) else L[c]?) ∧
      readClLens syms s =
        .done () { s.withFront (s.toFront.advance (3 * syms.length)) with clLens := some L' }) ∨
    (s.toFront.bitsRemaining < 3 * syms.length ∧ ∃ k, k = 3 * (s.toFront.bitsRemaining / 3) ∧
      k ≤ s.toFront.bitsRemaining ∧
      readClLens syms s =
        raiseError .unexpectedEof (s.withFront (s.toFront.advance k))) := by
  induction syms generalizing s L with
  | nil =>
    refine .inl ⟨by simp, L, rfl, by simp, ?_⟩
    rw [readClLens, List.length_nil, Nat.mul_zero, Front.advance_zero h.curBit_lt, ← hL]
    rfl
  | cons x xs ih =>
    rw [List.nodup_cons] at hnd
    rw [readClLens, readClLength]
    by_cases h3 : 3 ≤ s.toFront.bitsRemaining
    · rw [State.readBits_ok h (by omega) h3, OpRes.andThen_done,
        needReg_eq (v := (s.withFront (s.toFront.advance 3)).clLens) hL, OpRes.andThen_done]
      have key := ih (L := L.set x (s.toFront.peek 3))
        (s := { s.withFront (s.toFront.advance 3) with
          clLens := some (L.set x (s.toFront.peek 3)) }) (h.advance h3) rfl hnd.2
      dsimp only [State.withFront_toFront] at key
      simp only [Front.bitsRemaining_advance, Front.advance_advance, List.length_set] at key
      obtain ⟨hb, L', hlen, hget, e⟩ | ⟨hb, k, hk, hle, e⟩ := key
      · refine .inl ⟨by simp; omega, L', hlen, ?_, ?_⟩
        · intro c hc
          rw [hget c hc]
          by_cases hxc : x = c
          · subst hxc
            rw [if_neg hnd.1, if_pos (by simp), List.idxOf_cons_self, Nat.mul_zero,
              Front.advance_zero h.curBit_lt]
            simp [hc]
          · have : ¬ c = x := fun hh => hxc hh.symm
            simp only [List.mem_cons, this, false_or]
            rw [List.idxOf_cons, beq_eq_false_iff_ne.2 hxc, cond_false, List.getElem?_set_ne hxc]
            have e3 : 3 + 3 * List.idxOf c xs = 3 * (List.idxOf c xs + 1) := by omega
            rw [e3]
        · have e3 : 3 + 3 * xs.length = 3 * (x :: xs).length := by simp; omega
          refine e.trans ?_
          rw [e3]; rfl
      · exact .inr ⟨by simp; omega, 3 + k, by omega, by omega, e⟩
    · refine .inr ⟨by simp; omega, 0, by omega, by omega, ?_⟩
      rw [State.readBits_eof (by omega) (by omega), Front.advance_zero h.curBit_lt]
      rfl

/-! ## Lengths and distances -/

/-- What a length symbol can do (44_block_decoder.md R113). -/
theorem lengthSymbol_cases {s : State} (h : s.toFront.ok) (base : Nat) {extra : Nat}
    (h16 : extra ≤ 16) :
    (extra ≤ s.toFront.bitsRemaining ∧
      lengthSymbol base extra s =
        .next { s.withFront (s.toFront.advance extra) with
          length := some (base + s.toFront.peek extra) }) ∨
    (s.toFront.bitsRemaining < extra ∧
      lengthSymbol base extra s = .next (s.raise .unexpectedEof)) := by
  unfold lengthSymbol
  by_cases hn : extra ≤ s.toFront.bitsRemaining
  · rw [readOffset_ok h base h16 hn]; exact .inl ⟨hn, rfl⟩
  · rw [readOffset_eof base h16 (by omega)]; exact .inr ⟨by omega, rfl⟩

/-- What a distance symbol can do, with LENGTH and OUT holding a value: too few extra bits; a distance
above |out|; the copy; the stop at OUT_CAP (44_block_decoder.md R113 to R115). -/
theorem distanceSymbol_cases {s : State} (h : s.toFront.ok) {m : Memory} (hm : s.out = some m)
    (hw : m.wf = true) {n : Nat} (hlen : s.length = some n) {base : Nat} (hb : 1 ≤ base)
    {extra : Nat} (h16 : extra ≤ 16) :
    (s.toFront.bitsRemaining < extra ∧
      distanceSymbol base extra s = .next (s.raise .unexpectedEof)) ∨
    (extra ≤ s.toFront.bitsRemaining ∧ m.size < base + s.toFront.peek extra ∧
      distanceSymbol base extra s =
        .next ((s.withFront (s.toFront.advance extra)).raise .invalidDistance)) ∨
    (extra ≤ s.toFront.bitsRemaining ∧ base + s.toFront.peek extra ≤ m.size ∧
      (n = 0 ∨ withinCap s.cfg (m.size + n)) ∧
      distanceSymbol base extra s =
        .next { s.withFront (s.toFront.advance extra) with
          out := some (m.appendAll (copied m.bytes (base + s.toFront.peek extra) n))
          length := none, distance := none }) ∨
    (extra ≤ s.toFront.bitsRemaining ∧ base + s.toFront.peek extra ≤ m.size ∧
      (∃ cap, s.cfg.outCap = some cap ∧ cap < m.size + n) ∧
      distanceSymbol base extra s = .fault .outCapStuck) := by
  unfold distanceSymbol
  by_cases hn : extra ≤ s.toFront.bitsRemaining
  · have ho := outSize_eq (m := m)
      (s := { s.withFront (s.toFront.advance extra) with
        distance := some (base + s.toFront.peek extra) }) hm
    dsimp only at ho
    rw [readOffset_ok h base h16 hn, OpRes.andThen_done, ho, OpRes.andThen_done]
    split
    · exact .inr (.inl ⟨hn, ‹_›, rfl⟩)
    · rename_i hd
      dsimp only
      rw [needReg_eq (v := (s.withFront (s.toFront.advance extra)).length) hlen,
        OpRes.andThen_done]
      obtain ⟨hc, e⟩ | ⟨hc, e⟩ :=
        copyBack_cases (m := m)
          (s := { s.withFront (s.toFront.advance extra) with
            distance := some (base + s.toFront.peek extra) })
          hm hw (d := base + s.toFront.peek extra) (by omega) (by omega) n <;>
        dsimp only at e <;> rw [e]
      · exact .inr (.inr (.inl ⟨hn, by omega, hc, rfl⟩))
      · exact .inr (.inr (.inr ⟨hn, by omega, hc, rfl⟩))
  · rw [readOffset_eof base h16 (by omega)]; exact .inl ⟨by omega, rfl⟩

/-- The base and extra bits in each length symbol's meaning are those of the length table
(30_encoding.md R63). -/
theorem exec_lengthInstr {k : Nat} {i : Instr} {base extra : Nat} (hi : lengthInstrs[k]? = some i)
    (hb : lenBase[k]? = some base) (he : lenExtra[k]? = some extra) (s : State) :
    exec i s = lengthSymbol base extra s := by
  match k, hi, hb, he with
  | 0, hi, hb, he => cases hi; cases hb; cases he; rfl
  | 1, hi, hb, he => cases hi; cases hb; cases he; rfl
  | 2, hi, hb, he => cases hi; cases hb; cases he; rfl
  | 3, hi, hb, he => cases hi; cases hb; cases he; rfl
  | 4, hi, hb, he => cases hi; cases hb; cases he; rfl
  | 5, hi, hb, he => cases hi; cases hb; cases he; rfl
  | 6, hi, hb, he => cases hi; cases hb; cases he; rfl
  | 7, hi, hb, he => cases hi; cases hb; cases he; rfl
  | 8, hi, hb, he => cases hi; cases hb; cases he; rfl
  | 9, hi, hb, he => cases hi; cases hb; cases he; rfl
  | 10, hi, hb, he => cases hi; cases hb; cases he; rfl
  | 11, hi, hb, he => cases hi; cases hb; cases he; rfl
  | 12, hi, hb, he => cases hi; cases hb; cases he; rfl
  | 13, hi, hb, he => cases hi; cases hb; cases he; rfl
  | 14, hi, hb, he => cases hi; cases hb; cases he; rfl
  | 15, hi, hb, he => cases hi; cases hb; cases he; rfl
  | 16, hi, hb, he => cases hi; cases hb; cases he; rfl
  | 17, hi, hb, he => cases hi; cases hb; cases he; rfl
  | 18, hi, hb, he => cases hi; cases hb; cases he; rfl
  | 19, hi, hb, he => cases hi; cases hb; cases he; rfl
  | 20, hi, hb, he => cases hi; cases hb; cases he; rfl
  | 21, hi, hb, he => cases hi; cases hb; cases he; rfl
  | 22, hi, hb, he => cases hi; cases hb; cases he; rfl
  | 23, hi, hb, he => cases hi; cases hb; cases he; rfl
  | 24, hi, hb, he => cases hi; cases hb; cases he; rfl
  | 25, hi, hb, he => cases hi; cases hb; cases he; rfl
  | 26, hi, hb, he => cases hi; cases hb; cases he; rfl
  | 27, hi, hb, he => cases hi; cases hb; cases he; rfl
  | 28, hi, hb, he => cases hi; cases hb; cases he; rfl

/-- The base and extra bits in each distance symbol's meaning are those of the distance table
(30_encoding.md R64). -/
theorem exec_distInstr {k : Nat} {i : Instr} {base extra : Nat} (hi : distInstrs[k]? = some i)
    (hb : distBase[k]? = some base) (he : distExtra[k]? = some extra) (s : State) :
    exec i s = distanceSymbol base extra s := by
  match k, hi, hb, he with
  | 0, hi, hb, he => cases hi; cases hb; cases he; rfl
  | 1, hi, hb, he => cases hi; cases hb; cases he; rfl
  | 2, hi, hb, he => cases hi; cases hb; cases he; rfl
  | 3, hi, hb, he => cases hi; cases hb; cases he; rfl
  | 4, hi, hb, he => cases hi; cases hb; cases he; rfl
  | 5, hi, hb, he => cases hi; cases hb; cases he; rfl
  | 6, hi, hb, he => cases hi; cases hb; cases he; rfl
  | 7, hi, hb, he => cases hi; cases hb; cases he; rfl
  | 8, hi, hb, he => cases hi; cases hb; cases he; rfl
  | 9, hi, hb, he => cases hi; cases hb; cases he; rfl
  | 10, hi, hb, he => cases hi; cases hb; cases he; rfl
  | 11, hi, hb, he => cases hi; cases hb; cases he; rfl
  | 12, hi, hb, he => cases hi; cases hb; cases he; rfl
  | 13, hi, hb, he => cases hi; cases hb; cases he; rfl
  | 14, hi, hb, he => cases hi; cases hb; cases he; rfl
  | 15, hi, hb, he => cases hi; cases hb; cases he; rfl
  | 16, hi, hb, he => cases hi; cases hb; cases he; rfl
  | 17, hi, hb, he => cases hi; cases hb; cases he; rfl
  | 18, hi, hb, he => cases hi; cases hb; cases he; rfl
  | 19, hi, hb, he => cases hi; cases hb; cases he; rfl
  | 20, hi, hb, he => cases hi; cases hb; cases he; rfl
  | 21, hi, hb, he => cases hi; cases hb; cases he; rfl
  | 22, hi, hb, he => cases hi; cases hb; cases he; rfl
  | 23, hi, hb, he => cases hi; cases hb; cases he; rfl
  | 24, hi, hb, he => cases hi; cases hb; cases he; rfl
  | 25, hi, hb, he => cases hi; cases hb; cases he; rfl
  | 26, hi, hb, he => cases hi; cases hb; cases he; rfl
  | 27, hi, hb, he => cases hi; cases hb; cases he; rfl
  | 28, hi, hb, he => cases hi; cases hb; cases he; rfl
  | 29, hi, hb, he => cases hi; cases hb; cases he; rfl

/-- What the length table holds: at most 5 extra bits, and lengths from MIN_MATCH to MAX_MATCH. -/
theorem lenTable_range : ∀ k, k < 29 → ∃ base extra, lenBase[k]? = some base ∧
    lenExtra[k]? = some extra ∧ extra ≤ 5 ∧ minMatch ≤ base ∧ base + 2 ^ extra ≤ maxMatch + 1 := by
  intro k hk
  have h : ∀ k, k < 29 → lenExtra.getD k 0 ≤ 5 ∧ minMatch ≤ lenBase.getD k 0 ∧
      lenBase.getD k 0 + 2 ^ lenExtra.getD k 0 ≤ maxMatch + 1 := by decide
  have h1 : k < lenBase.length := hk
  have h2 : k < lenExtra.length := hk
  obtain ⟨a, b, c⟩ := h k hk
  simp only [List.getD_eq_getElem?_getD, List.getElem?_eq_getElem h1,
    List.getElem?_eq_getElem h2, Option.getD_some] at a b c
  exact ⟨_, _, List.getElem?_eq_getElem h1, List.getElem?_eq_getElem h2, a, b, c⟩

/-- What the distance table holds: at most 13 extra bits, and distances from 1 to WINDOW. -/
theorem distTable_range : ∀ k, k < 30 → ∃ base extra, distBase[k]? = some base ∧
    distExtra[k]? = some extra ∧ extra ≤ 13 ∧ 1 ≤ base ∧ base + 2 ^ extra ≤ windowSize + 1 := by
  intro k hk
  have h : ∀ k, k < 30 → distExtra.getD k 0 ≤ 13 ∧ 1 ≤ distBase.getD k 0 ∧
      distBase.getD k 0 + 2 ^ distExtra.getD k 0 ≤ windowSize + 1 := by decide
  have h1 : k < distBase.length := hk
  have h2 : k < distExtra.length := hk
  obtain ⟨a, b, c⟩ := h k hk
  simp only [List.getD_eq_getElem?_getD, List.getElem?_eq_getElem h1,
    List.getElem?_eq_getElem h2, Option.getD_some] at a b c
  exact ⟨_, _, List.getElem?_eq_getElem h1, List.getElem?_eq_getElem h2, a, b, c⟩

end Sys2Proof.Machine
end

