-- ==== Sys2Proof/Laws/Step.lean ====
section
/-! SUPPORT. What a step is in each case of the dispatcher, and what a fetch can do. -/

namespace Sys2Proof.Machine

theorem step_dynEnd {s : State} (h : s.action = .dynEnd) : step s = dynEnd s := by
  simp [step, h]

theorem step_blockDone {s : State} (h : s.action = .blockDone) : step s = blockDone s := by
  simp [step, h]

theorem step_noStep {s : State} (h : s.action = .noStep) : step s = .next s := by
  simp [step, h]

theorem step_element {s t : State} {sel : Selector} {i : Instr} (h : s.action = .element sel)
    (hf : fetch sel s = .done i t) : step s = exec i t := by
  simp [step, h, hf]

theorem step_element_stop {s : State} {sel : Selector} {o : Host.Outcome State Fault Refusal}
    (h : s.action = .element sel) (hf : fetch sel s = .stop o) : step s = o := by
  simp [step, h, hf]

/-- An error's record depends on the cursor, not on the accumulator (60_exceptions.md R198). -/
theorem State.raise_withFront {s : State} {f g : Front} (h : f.clearAcc = g.clearAcc)
    (e : ErrCode) : (s.withFront f).raise e = (s.withFront g).raise e := by
  obtain ⟨a, b, c, d, e'⟩ := f
  obtain ⟨a', b', c', d', e''⟩ := g
  simp only [Front.clearAcc, Front.mk.injEq] at h
  obtain ⟨rfl, rfl, rfl, -, -⟩ := h
  rfl

/-- A table that Build made for `n` symbols has codes for symbols below `n` only. -/
theorem BuiltFor.sym_lt {n : Nat} {T : HuffmanTable} (h : BuiltFor n T) {e : HuffEntry}
    (he : e ∈ T.entries) : e.sym < n := by
  obtain ⟨L, hl, hb⟩ := h
  exact Nat.lt_of_lt_of_le (Machine.sym_lt hb he) hl

/-- Every place that a selector with a Build table gives has an element (30_encoding.md R66). -/
theorem Gives.instr_ne_none {sel : Selector} {row : OpcodeRow} {n : Nat}
    (h : Gives sel row n) (hsel : sel.built) : row.instr ≠ none := by
  cases h with
  | header b t hb ht =>
    have : ∀ b, b ≤ 1 → ∀ t, t ≤ 3 → headerInstr (b + (t <<< 1)) ≠ none := by decide
    exact this b hb t ht
  | storedBody => simp [OpcodeRow.instr]
  | fixedTables => simp [OpcodeRow.instr]
  | dynHeader => simp [OpcodeRow.instr]
  | clSym T e he _ =>
    have : ∀ c, c < 19 → clInstr c ≠ none := by decide
    exact this _ (BuiltFor.sym_lt hsel he)
  | litLen T e he _ =>
    have : ∀ c, c < 288 → litLenInstr c ≠ none := by decide +kernel
    exact this _ (BuiltFor.sym_lt hsel he)
  | dist T e he _ =>
    have : ∀ c, c < 32 → distInstr c ≠ none := by decide
    exact this _ (BuiltFor.sym_lt hsel he)

/-- What the fetch of an element can do, with ACC at ⊥ and a table that Build made: give an element
with its bits consumed, or end the step in an error. -/
theorem fetch_cases {s : State} (h : s.toFront.ok) (ha : s.accCode = none ∧ s.accLen = none)
    {sel : Selector} (hsel : sel.built) :
    (∃ row i n, n ≤ s.toFront.bitsRemaining ∧ Gives sel row n ∧ row.instr = some i ∧
      fetch sel s = .done i (s.withFront (s.toFront.advance n))) ∨
    (∃ e n, (e = .unexpectedEof ∨ e = .invalidHuffmanCode) ∧ n ≤ s.toFront.bitsRemaining ∧
      fetch sel s = .stop (.next ((s.withFront (s.toFront.advance n)).raise e))) := by
  have hc := Front.clearAcc_eq ha
  rcases decodeRow_cases sel h hc with ⟨row, n, hn, e, hr⟩ | ⟨e, n, g, he, hn, e', hg⟩
  · cases hi : row.instr with
    | some i =>
      exact .inl ⟨row, i, n, hn, hr, hi, by simp [fetch, decodeAt, e, Read.andThen, hi, liftRead]⟩
    | none => exact absurd hi (hr.instr_ne_none hsel)
  · have hg' : g.clearAcc = (s.toFront.advance n).clearAcc := by
      rw [hg, ← Front.advance_clearAcc, hc]
    refine .inr ⟨e, n, he, hn, ?_⟩
    rw [← State.raise_withFront hg' e]
    simp [fetch, decodeAt, e', Read.andThen, liftRead, raiseError]

end Sys2Proof.Machine
end

