-- ==== Sys2Proof/Tests/Slice0.lean ====
section
/-! SUPPORT. Tests of the model: each expected result is written out from the spec (the rule or the
vector of 95_test_vectors.md is named), and none is the model's own answer. Then a witness for each
statement that has hypotheses. -/

namespace Sys2Proof.Tests.Slice0

open Sys2Proof Sys2Proof.Machine

-- One test at a time: elaborating them side by side asks for a thread, and a stack, for each.
set_option Elab.async false

/-! ## Small states -/

def bytesOf (l : List Nat) : List Byte := l.map (BitVec.ofNat 8)

/-- A front end over the given bytes, `pos` bits in. -/
def frontAt (l : List Nat) (pos : Nat) : Front := (Front.atStart (bytesOf l)).advance pos

/-- A decode of the given bytes, `pos` bits in, in the given phase. -/
def busyAt (l : List Nat) (pos : Nat) (phase : Phase) : State :=
  { (State.started Config.powerOn (bytesOf l)).withFront (frontAt l pos) with
    phase := phase, bfinal := some 1, btype := some 2 }

/-- The same with OUT holding bytes, in the middle of a fixed block. -/
def decodingAt (l : List Nat) (pos : Nat) (out : List Nat) (len : Option Nat) : State :=
  { busyAt l pos .decoding with
    out := some (Memory.ofBytes (bytesOf out)), length := len, btype := some 1
    litTable := some fixedLit, distTable := some fixedDist }

/-- The same inside the code-length sequence of a dynamic header. -/
def headerAt (l : List Nat) (pos a b : Nat) (lens : List Nat) (T : HuffmanTable) : State :=
  { busyAt l pos .dynamic with
    hlit := some a, hdist := some b, hclen := some 19, clLens := some (List.replicate 19 5)
    clTable := some T, lens := some lens }

/-- Whether an outcome is a next state with a property. -/
def after (o : Host.Outcome State Fault Refusal) (p : State → Bool) : Bool :=
  match o with
  | .next t => p t
  | _ => false

/-- Whether an outcome is a taken error with the given record. -/
def raised (o : Host.Outcome State Fault Refusal) (e : ErrCode) (byte bit block : Nat) : Bool :=
  after o fun t =>
    t.status == .error && t.errCode == e && t.errByte == some byte && t.errBit == some bit &&
      t.errBlock == some block && t.out == none && t.phase == .halt

/-- Whether the first bits of some bytes decode to an element, with a number of bits consumed. -/
def decodesTo (sel : Selector) : List Nat × Nat × Instr → Bool
  | (bytes, bits, i) => decodeAt sel (frontAt bytes 0) == .ok i (frontAt bytes bits)

/-- CL_TABLE of program P3: 18 = `0`, 1 = `10`, 2 = `11`. -/
def p3Cl : HuffmanTable :=
  { entries := [⟨2, 0b10, 1⟩, ⟨2, 0b11, 2⟩, ⟨1, 0b0, 18⟩] }

/-- A CL_TABLE with two-bit codes for symbols 0, 15, 16 and 17. -/
def runCl : HuffmanTable :=
  { entries := [⟨2, 0b00, 0⟩, ⟨2, 0b01, 15⟩, ⟨2, 0b10, 16⟩, ⟨2, 0b11, 17⟩] }

/-! ## Well-formedness refuses what no stream can hold -/

theorem test_wf_refuses_bfinal_two :
    [Instr.blockStored 2, .blockFixed 2, .blockDynamic 2, .blockReserved 2].any
      Instr.wellFormed = false := by decide

theorem test_wf_refuses_literal_256 : (Instr.lit 256).wellFormed = false := by decide

theorem test_wf_refuses_code_length_16 : (Instr.clLen 16).wellFormed = false := by decide

theorem test_wf_accepts_the_ends :
    [Instr.blockStored 1, .lit 255, .clLen 15].all Instr.wellFormed = true := by decide

/-! ## Decoding, by words written out from the spec's encodings -/

/-- The eight headers: bit 0 is BFINAL, bits 1 and 2 are BTYPE, low bit first (30_encoding.md R56, R43;
44_block_decoder.md R103 to R106). -/
theorem test_decode_headers :
    ([
      ([0x00], 3, .blockStored 0),
      ([0x01], 3, .blockStored 1),
      ([0x02], 3, .blockFixed 0),
      ([0x03], 3, .blockFixed 1),
      ([0x04], 3, .blockDynamic 0),
      ([0x05], 3, .blockDynamic 1),
      ([0x06], 3, .blockReserved 0),
      ([0x07], 3, .blockReserved 1)] : List (List Nat × Nat × Instr)).all (decodesTo .header) = true := by
  decide +kernel

/-- A body that PHASE selects has no bits of its own (30_encoding.md R66). -/
theorem test_decode_bodies :
    decodesTo .storedBody ([0xFF], 0, .storedBody) = true ∧
    decodesTo .fixedTables ([0xFF], 0, .fixedTables) = true ∧
    decodesTo .dynHeader ([0xFF], 0, .dynHeader) = true := by
  decide +kernel

/-- Literals at the ends of the two code lengths, and end of block: 0 = `00110000`, 143 = `10111111`,
144 = `110010000`, 255 = `111111111`, 256 = `0000000` (95_test_vectors.md S10; 30_encoding.md R65). -/
theorem test_decode_literals :
    ([
      ([0x0C], 8, .lit 0),
      ([0x89], 8, .lit 97),
      ([0xFD], 8, .lit 143),
      ([0x13, 0x00], 9, .lit 144),
      ([0xFF, 0x01], 9, .lit 255),
      ([0x00], 7, .eob)] : List (List Nat × Nat × Instr)).all (decodesTo (.litLen fixedLit)) = true := by
  decide +kernel

/-- Length symbols 257 to 271: the 7-bit codes 0000001 to 0001111 (30_encoding.md R65). -/
theorem test_decode_lengths_a :
    ([
      ([0x40], 7, .len257),
      ([0x20], 7, .len258),
      ([0x60], 7, .len259),
      ([0x10], 7, .len260),
      ([0x50], 7, .len261),
      ([0x30], 7, .len262),
      ([0x70], 7, .len263),
      ([0x08], 7, .len264),
      ([0x48], 7, .len265),
      ([0x28], 7, .len266),
      ([0x68], 7, .len267),
      ([0x18], 7, .len268),
      ([0x58], 7, .len269),
      ([0x38], 7, .len270),
      ([0x78], 7, .len271)] : List (List Nat × Nat × Instr)).all (decodesTo (.litLen fixedLit)) = true := by
  decide +kernel

/-- Length symbols 272 to 287: 7-bit codes 0010000 to 0010111, then 8-bit codes 11000000 to 11000111
(30_encoding.md R65). -/
theorem test_decode_lengths_b :
    ([
      ([0x04], 7, .len272),
      ([0x44], 7, .len273),
      ([0x24], 7, .len274),
      ([0x64], 7, .len275),
      ([0x14], 7, .len276),
      ([0x54], 7, .len277),
      ([0x34], 7, .len278),
      ([0x74], 7, .len279),
      ([0x03], 8, .len280),
      ([0x83], 8, .len281),
      ([0x43], 8, .len282),
      ([0xC3], 8, .len283),
      ([0x23], 8, .len284),
      ([0xA3], 8, .len285),
      ([0x63], 8, .litlenReserved286),
      ([0xE3], 8, .litlenReserved287)] : List (List Nat × Nat × Instr)).all (decodesTo (.litLen fixedLit)) = true := by
  decide +kernel

/-- Distance symbols 0 to 15: their own 5-bit values, high bit first (30_encoding.md R65). -/
theorem test_decode_distances_a :
    ([
      ([0x00], 5, .dist0),
      ([0x10], 5, .dist1),
      ([0x08], 5, .dist2),
      ([0x18], 5, .dist3),
      ([0x04], 5, .dist4),
      ([0x14], 5, .dist5),
      ([0x0C], 5, .dist6),
      ([0x1C], 5, .dist7),
      ([0x02], 5, .dist8),
      ([0x12], 5, .dist9),
      ([0x0A], 5, .dist10),
      ([0x1A], 5, .dist11),
      ([0x06], 5, .dist12),
      ([0x16], 5, .dist13),
      ([0x0E], 5, .dist14),
      ([0x1E], 5, .dist15)] : List (List Nat × Nat × Instr)).all (decodesTo (.dist fixedDist)) = true := by
  decide +kernel

/-- Distance symbols 16 to 31 (30_encoding.md R65). -/
theorem test_decode_distances_b :
    ([
      ([0x01], 5, .dist16),
      ([0x11], 5, .dist17),
      ([0x09], 5, .dist18),
      ([0x19], 5, .dist19),
      ([0x05], 5, .dist20),
      ([0x15], 5, .dist21),
      ([0x0D], 5, .dist22),
      ([0x1D], 5, .dist23),
      ([0x03], 5, .dist24),
      ([0x13], 5, .dist25),
      ([0x0B], 5, .dist26),
      ([0x1B], 5, .dist27),
      ([0x07], 5, .dist28),
      ([0x17], 5, .dist29),
      ([0x0F], 5, .distReserved30),
      ([0x1F], 5, .distReserved31)] : List (List Nat × Nat × Instr)).all (decodesTo (.dist fixedDist)) = true := by
  decide +kernel

/-- Code-length symbols under the CL_TABLE of program P3: 18 = `0`, 1 = `10`, 2 = `11`
(95_test_vectors.md P3). -/
theorem test_decode_code_lengths :
    ([
      ([0x00], 1, .clZero18),
      ([0x01], 2, .clLen 1),
      ([0x03], 2, .clLen 2)] : List (List Nat × Nat × Instr)).all (decodesTo (.clSym p3Cl)) = true := by
  decide +kernel

/-- Code-length symbols 0, 15, 16 and 17 with lengths 2, 2, 2, 2: codes `00`, `01`, `10`, `11`
(42_huffman.md R78). -/
theorem test_decode_code_length_runs :
    ([
      ([0x00], 2, .clLen 0),
      ([0x02], 2, .clLen 15),
      ([0x01], 2, .clRep16),
      ([0x03], 2, .clZero17)] : List (List Nat × Nat × Instr)).all (decodesTo (.clSym runCl)) = true := by
  decide +kernel


/-- A symbol that the alphabet lacks is rejected by name (30_encoding.md R66: the code-length alphabet
ends at 18). -/
theorem test_decode_rejects_by_name :
    decodeAt (.clSym { entries := [⟨1, 0, 19⟩] }) (frontAt [0x00] 0) =
      .fault .symbolOutsideAlphabet := by decide

/-- The table's header words H = 0, 2, 4, 6 and the symbols 257 and 285 with their nine bits. -/
theorem test_table_words :
    decodeTableWord 3 0 = some (.blockStored 0) ∧ decodeTableWord 3 4 = some (.blockDynamic 0) ∧
    decodeTableWord 9 257 = some .len257 ∧ decodeTableWord 9 285 = some .len285 ∧
    decodeTableWord 5 31 = some .distReserved31 ∧ decodeTableWord 5 16 = some .clRep16 ∧
    decodeTableWord 0 0 = some .fixedTables ∧ decodeTableWord 9 288 = none := by
  decide +kernel

/-! ## The BitReader (95_test_vectors.md B1 to B14) -/

theorem test_readBits_B1_B2 :
    (frontAt [0xB2] 0).readBits 3 = .ok 2 (frontAt [0xB2] 3) ∧
    (frontAt [0xB2] 3).readBits 5 = .ok 22 (frontAt [0xB2] 8) := by decide

theorem test_readBit_B3 : (frontAt [0xB2] 8).readBit = .raised .unexpectedEof (frontAt [0xB2] 8) := by
  decide

theorem test_readBits_B4_B5 :
    (frontAt [0xFF, 0x01] 4).readBits 8 = .ok 0x1F (frontAt [0xFF, 0x01] 12) ∧
    (frontAt [0x34, 0x12] 0).readBits 16 = .ok 0x1234 (frontAt [0x34, 0x12] 16) := by decide

theorem test_readBits_B6_B7_B8 :
    (frontAt [0xFF] 4).readBits 5 = .raised .unexpectedEof (frontAt [0xFF] 4) ∧
    (frontAt [0xFF] 4).readBits 4 = .ok 0xF (frontAt [0xFF] 8) ∧
    (frontAt [] 0).readBits 0 = .ok 0 (frontAt [] 0) := by decide

theorem test_align_B9_B10 :
    (frontAt [0, 1, 2, 3, 4, 5] 35).alignToByte = frontAt [0, 1, 2, 3, 4, 5] 40 ∧
    (frontAt [0, 1, 2, 3, 4, 5] 40).alignToByte = frontAt [0, 1, 2, 3, 4, 5] 40 := by decide

theorem test_bytesRemaining_B11 :
    (frontAt [0, 1, 2, 3, 4, 5, 6, 7, 8, 9] 24).bytesRemaining = 7 ∧
    (frontAt [0, 1, 2, 3, 4, 5, 6, 7, 8, 9] 29).bytesRemaining = 6 := by decide

theorem test_readRawBytes_B12_B13_B14 :
    (frontAt [1, 2, 0, 0xFD, 0xFF, 0x48, 0x69] 40).readRawBytes 2 =
      .ok (bytesOf [0x48, 0x69]) (frontAt [1, 2, 0, 0xFD, 0xFF, 0x48, 0x69] 56) ∧
    (frontAt [1, 2, 0, 0xFD, 0xFF, 0x48, 0x69] 40).readRawBytes 3 =
      .raised .unexpectedEof (frontAt [1, 2, 0, 0xFD, 0xFF, 0x48, 0x69] 40) ∧
    (frontAt [1, 2, 0, 0xFD, 0xFF, 0x48, 0x69] 56).readRawBytes 0 =
      .ok [] (frontAt [1, 2, 0, 0xFD, 0xFF, 0x48, 0x69] 56) := by decide

/-! ## Huffman tables (95_test_vectors.md H1 to H18) -/

theorem test_build_H1 :
    (build [2, 1, 3, 3]).map HuffmanTable.entries =
      some [⟨2, 0b10, 0⟩, ⟨1, 0b0, 1⟩, ⟨3, 0b110, 2⟩, ⟨3, 0b111, 3⟩] := by decide

theorem test_build_H2 :
    (build [3, 3, 3, 3, 3, 2, 4, 4]).map HuffmanTable.entries =
      some [⟨3, 0b010, 0⟩, ⟨3, 0b011, 1⟩, ⟨3, 0b100, 2⟩, ⟨3, 0b101, 3⟩, ⟨3, 0b110, 4⟩,
        ⟨2, 0b00, 5⟩, ⟨4, 0b1110, 6⟩, ⟨4, 0b1111, 7⟩] := by decide

theorem test_build_H4 :
    (build [1, 2, 3, 4, 5, 6, 7, 8, 9, 10, 11, 12, 13, 14, 15, 15]).map
      (fun T => (T.codeOf 14, T.codeOf 15)) =
      some (some (15, 0b111111111111110), some (15, 0b111111111111111)) := by decide +kernel

theorem test_build_H6_H8 :
    (build [0, 1]).map HuffmanTable.entries = some [⟨1, 0b0, 1⟩] ∧
    (build [0, 0, 0]).map HuffmanTable.entries = some [] := by decide

theorem test_build_H9_H10 :
    build [1, 1, 1] = none ∧ fromCodeLengths (bytesOf [16]) = none := by decide

theorem test_decode_H13 :
    (frontAt [0xFF, 0xFF] 0).decode { entries := [⟨1, 0, 0⟩] } =
      .raised .invalidHuffmanCode (frontAt [0xFF, 0xFF] 15) := by decide

theorem test_decode_H14 :
    (match (frontAt [0x01] 0).decode { entries := [⟨1, 0, 0⟩] } with
      | .raised .unexpectedEof f => (f.curByte, f.curBit) == (1, 0)
      | _ => false) = true := by decide

theorem test_decode_H15 :
    (frontAt [0x03] 0).decode { entries := [⟨2, 2, 0⟩, ⟨1, 0, 1⟩, ⟨3, 6, 2⟩, ⟨3, 7, 3⟩] } =
      .ok 2 (frontAt [0x03] 3) := by decide

/-- The tables of the model that the decoder's words stand on are those Build makes
(42_huffman.md R85, R86; program P3). -/
theorem test_tables_are_built :
    build fixedDistLengths = some fixedDist ∧ build (List.replicate 19 5) = some flatClTable ∧
    build [0, 2, 2, 0, 0, 0, 0, 0, 0, 0, 0, 0, 0, 0, 0, 0, 0, 0, 1] = some p3Cl := by
  decide +kernel

/-! ## One step of each kind -/

/-- S4: BTYPE 11, error at (0, 3), after its trace event. -/
theorem test_step_reserved_S4 :
    raised (step { busyAt [0x07, 0xFF] 0 .readHeader with bfinal := none }) .reservedBlockType 0 3 0 &&
      after (step (busyAt [0x07, 0xFF] 0 .readHeader)) (fun t => t.traceLog == [.hdr 0 1 3]) =
        true := by decide

/-- P2: the header of a final fixed block. -/
theorem test_step_header_P2 :
    after (step (busyAt [0x4B, 0x1A, 0x05, 0x00] 0 .readHeader)) (fun t =>
      t.phase == .fixed && t.bfinal == some 1 && t.btype == some 1 && t.curBit == 3 &&
        t.traceLog == [.hdr 0 1 1]) = true := by decide

/-- D2: BFINAL is read, BTYPE needs two bits and one remains: the cursor stays after BFINAL. -/
theorem test_step_header_D2 :
    raised (step { busyAt [0x9A, 0x30, 0x61, 0xC2, 0x04, 0x40] 46 .readHeader with blockIndex := 1 })
      .unexpectedEof 5 7 1 = true := by decide

/-- T1 and T2: a stored body, with any pad bits. -/
theorem test_exec_storedBody_T1_T2 :
    (after (exec .storedBody (busyAt [0x01, 0x02, 0x00, 0xFD, 0xFF, 0x48, 0x69] 3 .stored)) (fun t =>
      t.out == some (Memory.ofBytes (bytesOf [0x48, 0x69])) && t.curByte == 7 && t.curBit == 0 &&
        t.phase == .blockDone) &&
    after (exec .storedBody (busyAt [0xF9, 0x01, 0x00, 0xFE, 0xFF, 0x5A] 3 .stored)) (fun t =>
      t.out == some (Memory.ofBytes (bytesOf [0x5A])))) = true := by decide

/-- T3, T4 and T5: the errors of a stored body. -/
theorem test_exec_storedBody_T3_T4_T5 :
    (raised (exec .storedBody (busyAt [0x01, 0x03, 0x00, 0xFC, 0xFF, 0x41] 3 .stored))
      .unexpectedEof 5 0 0 &&
    raised (exec .storedBody (busyAt [0x01, 0x03] 3 .stored)) .unexpectedEof 1 0 0 &&
    raised (exec .storedBody (busyAt [0x01, 0x00, 0x00, 0x00, 0x00] 3 .stored))
      .storedLengthMismatch 5 0 0) = true := by decide

/-- P2: the fixed tables, no bit read. -/
theorem test_step_fixedTables_P2 :
    after (step (busyAt [0x4B, 0x1A, 0x05, 0x00] 3 .fixed)) (fun t =>
      t.litTable == some fixedLit && t.distTable == some fixedDist && t.curByte == 0 &&
        t.curBit == 3 && t.phase == .decoding) = true := by decide +kernel

/-- P3: the counts and CL_TABLE, to stream bit 71. -/
theorem test_exec_dynHeader_P3 :
    after (exec .dynHeader (busyAt [0x0D, 0xC0, 0x81, 0x00, 0x00, 0x00, 0x00, 0x80, 0x20] 3 .dynamic))
      (fun t => t.hlit == some 258 && t.hdist == some 1 && t.hclen == some 18 &&
        t.clTable == some p3Cl && t.lens == some [] && t.toFront.pos == 71 &&
        t.traceLog == [.dyn 0 258 1 18]) = true := by decide +kernel

/-- Y3: an over-subscribed CL table, right after the last CL length. -/
theorem test_exec_dynHeader_Y3 :
    raised (exec .dynHeader (busyAt [0x05, 0x00, 0x92, 0x00] 3 .dynamic))
      .invalidCodeLengths 3 5 0 = true := by decide +kernel

/-- LENS = [8], then CL16 with extra 2, gives six 8s; LENS = [5, 0] then CL16 with extra 0. -/
theorem test_exec_clRep16 :
    (after (exec .clRep16 (headerAt [0x02] 0 257 1 [8] runCl)) (fun t =>
      t.lens == some [8, 8, 8, 8, 8, 8] && t.toFront.pos == 2) &&
    after (exec .clRep16 (headerAt [0x00] 0 257 1 [5, 0] runCl)) (fun t =>
      t.lens == some [5, 0, 0, 0, 0])) = true := by decide

/-- Y1: no previous length; the two extra bits are not read. -/
theorem test_exec_clRep16_Y1 :
    raised (exec .clRep16 (headerAt [0x05, 0x00, 0x02, 0x24] 30 257 1 [] runCl))
      .invalidDynamicHeader 3 6 0 = true := by decide

/-- CL17 with extra 7: ten zeros. CL18 with extra 0: eleven. -/
theorem test_exec_clZeros :
    (after (exec .clZero17 (headerAt [0x07] 0 257 1 [] runCl)) (fun t =>
      t.lens == some (List.replicate 10 0) && t.toFront.pos == 3) &&
    after (exec .clZero18 (headerAt [0x00] 0 257 1 [] runCl)) (fun t =>
      t.lens == some (List.replicate 11 0) && t.toFront.pos == 7)) = true := by decide

/-- Y2: the second run of 138 zeros overshoots 258, after its seven extra bits. -/
theorem test_exec_clZero18_Y2 :
    raised (exec .clZero18 (headerAt [0x05, 0x00, 0x80, 0xE4, 0xFF, 0x1F] 38 257 1
      (List.replicate 138 0) runCl)) .invalidDynamicHeader 5 5 0 = true := by decide +kernel

/-- CL_LEN appends its own value (43_dynamic_header.md R95). -/
theorem test_exec_clLen :
    after (exec (.clLen 15) (headerAt [] 0 257 1 [3] runCl)) (fun t =>
      t.lens == some [3, 15]) = true := by decide

/-- F1: literals at both ends of the alphabet, appended at |out|. -/
theorem test_exec_lit :
    (after (exec (.lit 0xFF) (decodingAt [] 0 [0x00, 0x8F, 0x90] none)) (fun t =>
      t.out == some (Memory.ofBytes (bytesOf [0x00, 0x8F, 0x90, 0xFF])) && t.phase == .decoding) &&
    after (exec (.lit 0) (decodingAt [] 0 [] none)) (fun t =>
      t.out == some (Memory.ofBytes (bytesOf [0x00])))) = true := by decide +kernel

theorem test_exec_eob :
    after (exec .eob (decodingAt [] 0 [1] none)) (fun t => t.phase == .blockDone) = true := by
  decide +kernel

/-- F2 and F3: the reserved symbols raise at once. -/
theorem test_exec_reserved :
    (raised (exec .litlenReserved286 (decodingAt [0x1B, 0x03] 11 [] none))
      .invalidHuffmanCode 1 3 0 &&
    raised (exec .litlenReserved287 (decodingAt [0x1B, 0x03] 11 [] none))
      .invalidHuffmanCode 1 3 0 &&
    raised (exec .distReserved30 (decodingAt [0x4B, 0x04, 0x7E] 23 [0x61] (some 3)))
      .invalidDistanceCode 2 7 0 &&
    raised (exec .distReserved31 (decodingAt [0x4B, 0x04, 0x7E] 23 [0x61] (some 3)))
      .invalidDistanceCode 2 7 0) = true := by decide +kernel

/-- The lengths the spec's vectors list: `LEN 257 x=0` = 3, `LEN 265 x=1` = 12, `LEN 269 x=3` = 22,
`LEN 273 x=7` = 42, `LEN 277 x=15` = 82, `LEN 281 x=31` = 162, `LEN 284 x=31` = 258,
`LEN 285 x=0` = 258 (95_test_vectors.md 2.4, S9). -/
theorem test_exec_lengths :
    ([(.len257, 0, 3), (.len265, 1, 12), (.len269, 3, 22), (.len273, 7, 42), (.len277, 15, 82),
      (.len281, 31, 162), (.len284, 31, 258), (.len285, 0, 258)] :
        List (Instr × Nat × Nat)).all (fun (i, x, n) =>
      after (exec i (decodingAt [x] 0 [] none)) fun t => t.length == some n) = true := by
  decide +kernel

/-- The distances the spec's vectors list, against an OUT one byte too short for each: `DIST 0 x=0` = 1,
`DIST 4 x=1` = 6, `DIST 9 x=7` = 32 (95_test_vectors.md 2.4, S9; 44_block_decoder.md R114). -/
theorem test_exec_distances :
    ([(.dist0, 0, 1), (.dist4, 1, 6), (.dist9, 7, 32)] : List (Instr × Nat × Nat)).all
      (fun (i, x, d) =>
        after (exec i (decodingAt [x] 0 (List.replicate d 0x61) (some 3))) (fun t =>
          t.out == some (Memory.ofBytes (bytesOf (List.replicate (d + 3) 0x61))) &&
            t.length == none && t.distance == none) &&
        after (exec i (decodingAt [x] 0 (List.replicate (d - 1) 0x61) (some 3))) (fun t =>
          t.errCode == .invalidDistance)) = true := by decide +kernel

/-- K5: out = `xyz`, LENGTH 7, DISTANCE 2 appends `yzyzyzy`. K3: DISTANCE 3 above |out| = 2. -/
theorem test_exec_copy_K5_K3 :
    (after (exec .dist1 (decodingAt [] 0 [0x78, 0x79, 0x7A] (some 7))) (fun t =>
      t.out == some (Memory.ofBytes (bytesOf
        [0x78, 0x79, 0x7A, 0x79, 0x7A, 0x79, 0x7A, 0x79, 0x7A, 0x79]))) &&
    raised (exec .dist2 (decodingAt [0x4B, 0x4C, 0x02, 0x22, 0x00] 31 [0x61, 0x62] (some 3)))
      .invalidDistance 3 7 0) = true := by decide +kernel

/-- Y6, at list level: the run of 2s ends the literal/length lengths and starts the distance ones. -/
theorem test_step_dynEnd_Y6 :
    after (step (headerAt [] 0 258 4
        (List.replicate 254 0 ++ [2, 2, 2, 2] ++ [2, 2, 2, 2]) runCl)) (fun t =>
      t.phase == .decoding && t.hlit == none && t.clTable == none && t.lens == none &&
        t.litTable.map (fun T => T.codeOf 257) == some (some (2, 0b11)) &&
        t.distTable.map (fun T => T.codeOf 1) == some (some (2, 0b01))) = true := by
  decide +kernel

/-- P3: Finish rounds the cursor (13, 5) up to CONSUMED = 14. P4: BlockDone after block 0. -/
theorem test_step_blockDone_P3_P4 :
    (after (step { busyAt (List.replicate 14 0) 109 .blockDone with
        out := some (Memory.ofBytes (bytesOf [0x61, 0x61, 0x61, 0x61])) }) (fun t =>
      t.status == .done && t.outLen == some 4 && t.consumed == some 14 && t.phase == .halt) &&
    after (step { busyAt (List.replicate 14 0) 38 .blockDone with bfinal := some 0 }) (fun t =>
      t.status == .busy && t.blockIndex == 1 && t.phase == .readHeader && t.toFront.pos == 38)) =
        true := by decide

/-- 60_exceptions.md R200: at OUT_CAP the engine is stuck. -/
theorem test_exec_lit_at_outCap :
    (match exec (.lit 1) { decodingAt [] 0 [7] none with cfg := { outCap := some 1, trace := false } }
      with
      | .fault .outCapStuck => true
      | _ => false) = true := by decide +kernel

/-! ## The next step runs a placed word as the first after reset -/

theorem test_fetch_after_reset :
    (after (step (State.reset.withFetchWord 3 2)) (fun t => t.phase == .fixed) &&
    after (step (State.reset.withFetchWord 9 257)) (fun t => t.length == some 3) &&
    after (step (State.reset.withFetchWord 9 65)) (fun t =>
      t.out == some (Memory.ofBytes (bytesOf [65]))) &&
    after (step (State.reset.withFetchWord 5 17)) (fun t => t.lens == some [0, 0, 0]) &&
    after (step (State.reset.withFetchWord 5 0)) (fun t => t.phase == .stored)) = true := by
  decide +kernel

/-! ## The host (70_reset_and_hazards.md R209; 45_decoder_top.md R177, R178) -/

theorem test_host_load_and_start :
    after (hostLoad (bytesOf [0x03]) State.reset) (fun t =>
      after (hostStart t) (fun u =>
        u == State.started Config.powerOn (bytesOf [0x03]))) = true := by decide

/-- D1: an empty IN. -/
theorem test_step_empty_input_D1 :
    raised (step (State.started Config.powerOn [])) .unexpectedEof 0 0 0 = true := by decide

/-! ## Stream assembly (95_test_vectors.md P1 to P5) -/

theorem test_assemble_P1 :
    assemble [.block 1 .stored, .stored 2 none (bytesOf [0x48, 0x69])] =
      some (bytesOf [0x01, 0x02, 0x00, 0xFD, 0xFF, 0x48, 0x69]) := by decide +kernel

theorem test_assemble_P2 :
    assemble [.block 1 .fixed, .lit 0x62, .copy 258 1, .eob] =
      some (bytesOf [0x4B, 0x1A, 0x05, 0x00]) := by decide +kernel

theorem test_assemble_P3 :
    assemble [.block 1 .dynamic, .dyn 258 1 18 [0, 0, 1, 0, 0, 0, 0, 0, 0, 0, 0, 0, 0, 0, 0, 2, 0, 2],
      .cl18 97, .cl 1, .cl18 138, .cl18 20, .cl 2, .cl 2, .cl 1, .lit 0x61, .copy 3 1, .eob] =
      some (bytesOf
        [0x0D, 0xC0, 0x81, 0x00, 0x00, 0x00, 0x00, 0x80, 0x20, 0xD6, 0xFC, 0x25, 0x3E, 0x0B]) := by
  decide +kernel

theorem test_assemble_P5 :
    assemble [.block 0 .fixed, .lit 0x78, .eob, .block 1 .fixed, .len 257 0, .dist 30 0] =
      some (bytesOf [0xAA, 0x00, 0x0C, 0xF8, 0x00]) := by decide +kernel

/-! ## Witnesses: states and operands that meet the hypotheses of the statements, clause by clause -/

/-- The cursor invariant, as a test. -/
def okB (f : Front) : Bool :=
  f.input.wf && decide (f.curByte ≤ f.input.size) && decide (f.curBit < 8) &&
    (f.curBit == 0 || decide (f.curByte < f.input.size))

theorem ok_of {f : Front} (h : okB f = true) : f.ok := by
  simp only [okB, Bool.and_eq_true, Bool.or_eq_true, decide_eq_true_eq, beq_iff_eq] at h
  obtain ⟨⟨⟨h1, h2⟩, h3⟩, h4⟩ := h
  exact ⟨h1, h2, h3, fun hb => h4.resolve_left hb⟩

theorem unbounded (n : Nat) : withinCap Config.powerOn n := by
  intro cap h; cases h

theorem fixedLit_built : BuiltFor litLenSymbols fixedLit :=
  ⟨fixedLitLengths, by decide +kernel, by decide +kernel⟩

theorem fixedDist_built : BuiltFor distSymbols fixedDist :=
  ⟨fixedDistLengths, by decide +kernel, by decide +kernel⟩

theorem witness_ReadBitTakesTheNextStreamBit :
    ((frontAt [0xB2] 7).ok ∧ 1 ≤ (frontAt [0xB2] 7).bitsRemaining) ∧
    (frontAt [0xB2] 8).ok ∧ (frontAt [0xB2] 8).bitsRemaining < 1 := by
  refine ⟨⟨ok_of ?_, ?_⟩, ok_of ?_, ?_⟩ <;> decide

theorem witness_ReadBitsIsTheNextBitsAsANumber :
    ((frontAt [1, 2] 0).ok ∧ 16 ≤ (frontAt [1, 2] 0).bitsRemaining) ∧
    ((frontAt [1, 2] 1).ok ∧ (frontAt [1, 2] 1).bitsRemaining < 16) ∧ 16 < 17 := by
  refine ⟨⟨ok_of ?_, ?_⟩, ⟨ok_of ?_, ?_⟩, ?_⟩ <;> decide

theorem witness_FieldsAreLeastSignificantBitFirst :
    (frontAt [0x34, 0x12] 0).ok ∧
    (frontAt [0x34, 0x12] 0).readBits 16 = .ok 0x1234 (frontAt [0x34, 0x12] 16) := by
  refine ⟨ok_of ?_, ?_⟩ <;> decide

theorem witness_AlignToByteMovesForwardToAByte :
    ((frontAt [1] 8).ok ∧ (frontAt [1] 8).curBit = 0) ∧
    (frontAt [1] 7).ok ∧ (frontAt [1] 7).curBit ≠ 0 := by
  refine ⟨⟨ok_of ?_, ?_⟩, ok_of ?_, ?_⟩ <;> decide

theorem witness_RawBytesAreAllOrNothing :
    ((frontAt [1, 2, 3] 8).ok ∧ (frontAt [1, 2, 3] 8).curBit = 0 ∧ 2 ≤ 3 - (frontAt [1, 2, 3] 8).curByte) ∧
    (3 - (frontAt [1, 2, 3] 8).curByte < 3) ∧
    (frontAt [1, 2, 3] 23).ok ∧ (frontAt [1, 2, 3] 23).curBit ≠ 0 := by
  refine ⟨⟨ok_of ?_, ?_, ?_⟩, ?_, ok_of ?_, ?_⟩ <;> decide

theorem witness_StoredLengthIsLowPlusShiftedHigh :
    (frontAt [0x05, 0x01, 0xFA, 0xFF] 0).ok ∧ (frontAt [0x05, 0x01, 0xFA, 0xFF] 0).curBit = 0 ∧
    (frontAt [0x05, 0x01, 0xFA, 0xFF] 0).input.read 0 = some 0x05 ∧
    (frontAt [0x05, 0x01, 0xFA, 0xFF] 0).input.read 1 = some 0x01 ∧
    (frontAt [0x05, 0x01, 0xFA, 0xFF] 0).input.read 2 = some 0xFA ∧
    (frontAt [0x05, 0x01, 0xFA, 0xFF] 0).input.read 3 = some 0xFF ∧
    0xFA + (0xFF <<< 8) ≠ (0x05 + (0x01 <<< 8)) ^^^ 0xFFFF ∧
    (busyAt [0x05, 0x01, 0xFA, 0xFF] 0 .stored).toFront = frontAt [0x05, 0x01, 0xFA, 0xFF] 0 := by
  refine ⟨ok_of ?_, ?_, ?_, ?_, ?_, ?_, ?_, ?_⟩ <;> decide

theorem witness_BuildIsCanonical :
    (∃ l ∈ [16], 15 < l) ∧
    ((∀ l ∈ [1, 1, 15], l ≤ 15) ∧
      2 ^ 15 < ([1, 1, 15].map fun l => if l = 0 then 0 else 2 ^ (15 - l)).sum) ∧
    (∀ l ∈ [2, 1, 3, 3], l ≤ 15) ∧
      ([2, 1, 3, 3].map fun l => if l = 0 then 0 else 2 ^ (15 - l)).sum ≤ 2 ^ 15 := by
  decide

theorem witness_LookupIsTheAssignedCode :
    build [2, 1, 3, 3] = some { entries := [⟨2, 2, 0⟩, ⟨1, 0, 1⟩, ⟨3, 6, 2⟩, ⟨3, 7, 3⟩] } := by
  decide

theorem witness_CodesArePrefixFree :
    build [15, 1] = some { entries := [⟨15, 0x4000, 0⟩, ⟨1, 0, 1⟩] } := by decide

theorem witness_DecodeReadsOneCode :
    (build [2, 1, 3, 3] = some { entries := [⟨2, 2, 0⟩, ⟨1, 0, 1⟩, ⟨3, 6, 2⟩, ⟨3, 7, 3⟩] } ∧
      (frontAt [0x07] 0).ok ∧
      symbolBits { entries := [⟨2, 2, 0⟩, ⟨1, 0, 1⟩, ⟨3, 6, 2⟩, ⟨3, 7, 3⟩] } 3 =
        some [true, true, true] ∧
      [true, true, true] <+: (frontAt [0x07] 0).unread) ∧
    (build [1] = some { entries := [⟨1, 0, 0⟩] } ∧ (frontAt [0xFF, 0xFF] 1).ok ∧
      (frontAt [0xFF, 0xFF] 1).bitsRemaining = 15 ∧ (frontAt [0xFF, 0xFF] 2).ok ∧
      (frontAt [0xFF, 0xFF] 2).bitsRemaining < 15 ∧
      ∀ s bits, symbolBits { entries := [⟨1, 0, 0⟩] } s = some bits →
        ¬ bits <+: (frontAt [0xFF, 0xFF] 1).unread ∧ ¬ bits <+: (frontAt [0xFF, 0xFF] 2).unread) := by
  refine ⟨⟨by decide, ok_of (by decide), by decide, by decide⟩, by decide, ok_of (by decide),
    by decide, ok_of (by decide), by decide, ?_⟩
  intro s bits h
  match s with
  | 0 =>
    have : bits = [false] := by
      have h' : symbolBits { entries := [⟨1, 0, 0⟩] } 0 = some [false] := by decide
      rw [h'] at h; exact (Option.some.inj h).symm
    subst this; decide
  | n + 1 => simp [symbolBits, HuffmanTable.codeOf] at h

theorem witness_FixedLiteralLengthTable : (frontAt [0xFF, 0xFF] 0).ok := ok_of (by decide)

theorem witness_EveryElementDecodesFromItsBits :
    (Selector.litLen fixedLit).built ∧ (Instr.lit 255).wellFormed = true ∧
    encode (.litLen fixedLit) (.lit 255) = some (List.replicate 9 true) ∧
    (frontAt [0xFF, 0x01] 0).ok ∧
    ((frontAt [0xFF, 0x01] 0).accCode = none ∧ (frontAt [0xFF, 0x01] 0).accLen = none) ∧
    (frontAt [0xFF, 0x01] 0).unread = List.replicate 9 true ++ List.replicate 7 false := by
  refine ⟨fixedLit_built, ?_, ?_, ok_of ?_, ?_, ?_⟩ <;> decide +kernel

theorem witness_DecodedBitsAreTheEncoding :
    (Selector.dist fixedDist).built ∧ (frontAt [0x1F] 0).ok ∧
    decodeAt (.dist fixedDist) (frontAt [0x1F] 0) = .ok .distReserved31 (frontAt [0x1F] 5) := by
  refine ⟨fixedDist_built, ok_of ?_, ?_⟩ <;> decide +kernel

theorem witness_EveryElementHasAnEncoding :
    (Instr.blockReserved 1).wellFormed = true ∧ (Instr.lit 255).wellFormed = true ∧
    (Instr.clLen 15).wellFormed = true := by decide

theorem witness_TableWordIsFetchedAndRun :
    decodeTableWord 9 287 = some .litlenReserved287 ∧ decodeTableWord 3 6 = some (.blockReserved 0) ∧
    decodeTableWord 5 18 = some .clZero18 ∧ decodeTableWord 0 0 = some .fixedTables ∧
    after (step (State.reset.withFetchWord 3 6)) (fun t =>
      t.errCode == .reservedBlockType && t.errBit == some 3) = true := by
  decide +kernel

theorem witness_StepRunsTheDecodedElement :
    ((busyAt [0x03] 0 .readHeader).action = .element .header ∧
      decodeAt .header (busyAt [0x03] 0 .readHeader).toFront = .ok (.blockFixed 1) (frontAt [0x03] 3)) ∧
    (busyAt [0x03] 6 .readHeader).action = .element .header ∧
    decodeAt .header (busyAt [0x03] 6 .readHeader).toFront =
      .raised .unexpectedEof (frontAt [0x03] 7) := by decide

theorem witness_PhaseChoosesTheStep :
    State.reset.status ≠ .busy ∧
    (∀ p, (busyAt [] 0 p).status = .busy ∧ (busyAt [] 0 p).phase = p ∧
      (busyAt [] 0 p).clTable = none) ∧
    ((headerAt [] 0 257 1 [] runCl).status = .busy ∧ (headerAt [] 0 257 1 [] runCl).phase = .dynamic ∧
      (headerAt [] 0 257 1 [] runCl).clTable = some runCl ∧
      (headerAt [] 0 257 1 [] runCl).lens = some [] ∧ (List.replicate 257 0).length < 257 + 1 ∧
      257 + 1 ≤ (List.replicate 258 0).length) ∧
    (∀ n, (decodingAt [] 0 [] n).status = .busy ∧ (decodingAt [] 0 [] n).phase = .decoding ∧
      (decodingAt [] 0 [] n).length = n ∧ (decodingAt [] 0 [] n).litTable = some fixedLit ∧
      (decodingAt [] 0 [] n).distTable = some fixedDist) :=
  ⟨by decide, fun _ => ⟨rfl, rfl, rfl⟩, ⟨rfl, rfl, rfl, rfl, by rewrite [List.length_replicate]; decide,
    Nat.le_of_eq List.length_replicate.symm⟩,
    fun _ => ⟨rfl, rfl, rfl, rfl, rfl⟩⟩

theorem witness_BlockHeaderSelectsTheBody :
    (busyAt [0x01] 3 .readHeader).status = .busy ∧ (busyAt [0x01] 3 .readHeader).clTable = none ∧
    ∃ t, exec (.blockDynamic 1) (busyAt [0x01] 3 .readHeader) = .next t := ⟨rfl, rfl, _, rfl⟩

theorem witness_ReservedBlockTypeStopsAfterThreeBits :
    (busyAt [0x07, 0xE0] 13 .readHeader).toFront.ok ∧
    (busyAt [0x07, 0xE0] 13 .readHeader).status = .busy ∧
    (busyAt [0x07, 0xE0] 13 .readHeader).phase = .readHeader ∧
    3 ≤ (busyAt [0x07, 0xE0] 13 .readHeader).toFront.bitsRemaining ∧
    ((busyAt [0x07, 0xE0] 13 .readHeader).toFront.advance 1).peek 2 = 3 := by
  refine ⟨ok_of ?_, ?_, ?_, ?_, ?_⟩ <;> decide

theorem witness_StoredBodyCopiesItsBytes :
    (busyAt [0x01, 0x02, 0x00, 0xFD, 0xFF, 0x48, 0x69] 3 .stored).toFront.ok ∧
    (busyAt [0x01, 0x02, 0x00, 0xFD, 0xFF, 0x48, 0x69] 3 .stored).out = some [] ∧
    Memory.wf [] = true ∧
    1 = (busyAt [0x01, 0x02, 0x00, 0xFD, 0xFF, 0x48, 0x69] 3 .stored).toFront.alignToByte.curByte ∧
    1 + 4 + 2 ≤ (busyAt [0x01, 0x02, 0x00, 0xFD, 0xFF, 0x48, 0x69] 3 .stored).input.size ∧
    (busyAt [0x01, 0x02, 0x00, 0xFD, 0xFF, 0x48, 0x69] 3 .stored).toFront.alignToByte.peek 16 = 2 ∧
    ((busyAt [0x01, 0x02, 0x00, 0xFD, 0xFF, 0x48, 0x69] 3 .stored).toFront.alignToByte.advance
      16).peek 16 = 2 ^^^ 0xFFFF ∧
    withinCap Config.powerOn (0 + 2) := by
  refine ⟨ok_of ?_, ?_, ?_, ?_, ?_, ?_, ?_, unbounded _⟩ <;> decide

theorem witness_StoredBodyErrorsInOrder :
    ((frontAt [0, 1] 1).ok ∧ (frontAt [0, 1] 1).alignToByte.bitsRemaining < 16) ∧
    ((frontAt [0, 1, 2, 3] 1).ok ∧ 16 ≤ (frontAt [0, 1, 2, 3] 1).alignToByte.bitsRemaining ∧
      (frontAt [0, 1, 2, 3] 1).alignToByte.bitsRemaining < 32) ∧
    ((frontAt [1, 0, 0, 0, 0] 3).ok ∧ 32 ≤ (frontAt [1, 0, 0, 0, 0] 3).alignToByte.bitsRemaining ∧
      ((frontAt [1, 0, 0, 0, 0] 3).alignToByte.advance 16).peek 16 ≠
        (frontAt [1, 0, 0, 0, 0] 3).alignToByte.peek 16 ^^^ 0xFFFF) ∧
    ((frontAt [1, 1, 0, 0xFE, 0xFF] 3).ok ∧
      32 ≤ (frontAt [1, 1, 0, 0xFE, 0xFF] 3).alignToByte.bitsRemaining ∧
      ((frontAt [1, 1, 0, 0xFE, 0xFF] 3).alignToByte.advance 16).peek 16 =
        (frontAt [1, 1, 0, 0xFE, 0xFF] 3).alignToByte.peek 16 ^^^ 0xFFFF ∧
      (frontAt [1, 1, 0, 0xFE, 0xFF] 3).input.size <
        (frontAt [1, 1, 0, 0xFE, 0xFF] 3).alignToByte.curByte + 4 + 1) := by
  refine ⟨⟨ok_of ?_, ?_⟩, ⟨ok_of ?_, ?_, ?_⟩, ⟨ok_of ?_, ?_, ?_⟩, ok_of ?_, ?_, ?_, ?_⟩ <;> decide

theorem witness_DynHeaderReadsCountsAndClTable :
    ((frontAt [0x05, 0, 0, 0] 3).ok ∧ 4 + ((frontAt [0x05, 0, 0, 0] 3).advance 10).peek 4 = 4 ∧
      14 + 3 * 4 ≤ (frontAt [0x05, 0, 0, 0] 3).bitsRemaining ∧
      build (headerClLens ((frontAt [0x05, 0, 0, 0] 3).advance 14) 4) = some { entries := [] }) ∧
    ((frontAt [0x05, 0, 0x92, 0] 3).ok ∧ 4 + ((frontAt [0x05, 0, 0x92, 0] 3).advance 10).peek 4 = 4 ∧
      14 + 3 * 4 ≤ (frontAt [0x05, 0, 0x92, 0] 3).bitsRemaining ∧
      build (headerClLens ((frontAt [0x05, 0, 0x92, 0] 3).advance 14) 4) = none) ∧
    ((frontAt [0] 4).ok ∧ (frontAt [0] 4).bitsRemaining < 5) ∧
    ((frontAt [0] 3).ok ∧ 5 ≤ (frontAt [0] 3).bitsRemaining ∧ (frontAt [0] 3).bitsRemaining < 10) ∧
    ((frontAt [0, 0] 3).ok ∧ 10 ≤ (frontAt [0, 0] 3).bitsRemaining ∧
      (frontAt [0, 0] 3).bitsRemaining < 14) ∧
    ((frontAt [0, 0, 0, 0] 7).ok ∧ 14 ≤ (frontAt [0, 0, 0, 0] 7).bitsRemaining ∧
      (frontAt [0, 0, 0, 0] 7).bitsRemaining <
        14 + 3 * (4 + ((frontAt [0, 0, 0, 0] 7).advance 10).peek 4)) := by
  refine ⟨⟨ok_of ?_, ?_, ?_, ?_⟩, ⟨ok_of ?_, ?_, ?_, ?_⟩, ⟨ok_of ?_, ?_⟩, ⟨ok_of ?_, ?_, ?_⟩,
    ⟨ok_of ?_, ?_, ?_⟩, ok_of ?_, ?_, ?_⟩ <;> decide +kernel

theorem witness_ClLenAppendsItsLength : (headerAt [] 0 257 1 [] runCl).lens = some [] := rfl

theorem witness_ClRep16RepeatsThePreviousLength :
    ((headerAt [0xFF] 6 257 1 [] runCl).toFront.ok ∧
      (headerAt [0xFF] 6 257 1 [] runCl).lens = some [] ∧
      (headerAt [0xFF] 6 257 1 [] runCl).hlit = some 257 ∧
      (headerAt [0xFF] 6 257 1 [] runCl).hdist = some 1) ∧
    ((headerAt [0xFF] 7 257 1 [8] runCl).toFront.ok ∧ [8].getLast? = some 8 ∧
      (headerAt [0xFF] 7 257 1 [8] runCl).toFront.bitsRemaining < 2) ∧
    ((headerAt [0xFF] 6 257 1 (List.replicate 253 8) runCl).toFront.ok ∧
      (List.replicate 253 8).getLast? = some 8 ∧
      2 ≤ (headerAt [0xFF] 6 257 1 (List.replicate 253 8) runCl).toFront.bitsRemaining ∧
      257 + 1 < (List.replicate 253 8).length +
        (3 + (headerAt [0xFF] 6 257 1 (List.replicate 253 8) runCl).toFront.peek 2)) ∧
    ((headerAt [0xFF] 6 257 1 (List.replicate 252 8) runCl).toFront.ok ∧
      (List.replicate 252 8).getLast? = some 8 ∧
      (List.replicate 252 8).length +
        (3 + (headerAt [0xFF] 6 257 1 (List.replicate 252 8) runCl).toFront.peek 2) ≤ 257 + 1) := by
  refine ⟨⟨ok_of ?_, ?_, ?_, ?_⟩, ⟨ok_of ?_, ?_, ?_⟩, ⟨ok_of ?_, ?_, ?_, ?_⟩, ok_of ?_, ?_, ?_⟩ <;>
    decide +kernel

theorem witness_ClZeroRunsAppendZeros :
    ((headerAt [0xFF] 0 257 1 (List.replicate 120 0) runCl).toFront.ok ∧
      7 ≤ (headerAt [0xFF] 0 257 1 (List.replicate 120 0) runCl).toFront.bitsRemaining ∧
      (List.replicate 120 0).length +
        (11 + (headerAt [0xFF] 0 257 1 (List.replicate 120 0) runCl).toFront.peek 7) ≤ 257 + 1 ∧
      257 + 1 < (List.replicate 121 0).length +
        (11 + (headerAt [0xFF] 0 257 1 (List.replicate 121 0) runCl).toFront.peek 7)) ∧
    ((headerAt [0xFF] 6 257 1 [] runCl).toFront.ok ∧
      (headerAt [0xFF] 6 257 1 [] runCl).toFront.bitsRemaining < 3) ∧
    ((headerAt [0xFF] 5 257 1 (List.replicate 248 0) runCl).toFront.ok ∧
      3 ≤ (headerAt [0xFF] 5 257 1 (List.replicate 248 0) runCl).toFront.bitsRemaining ∧
      (List.replicate 248 0).length +
        (3 + (headerAt [0xFF] 5 257 1 (List.replicate 248 0) runCl).toFront.peek 3) ≤ 257 + 1) := by
  refine ⟨⟨ok_of ?_, ?_, ?_, ?_⟩, ⟨ok_of ?_, ?_⟩, ok_of ?_, ?_, ?_⟩ <;> decide +kernel

theorem witness_DynEndBuildsTheTwoTables :
    (List.replicate 258 0).length = 257 + 1 ∧
    build ((List.replicate 258 0).take 257) = some { entries := [] } ∧
    build ((List.replicate 258 0).drop 257) = some { entries := [] } ∧
    build ((1 :: 1 :: 1 :: List.replicate 255 0).take 257) = none ∧
    build ((List.replicate 257 0 ++ [1, 1, 1]).drop 257) = none ∧
    (headerAt [] 0 257 1 (List.replicate 258 0) runCl).clTable = some runCl ∧
    (headerAt [] 0 257 3 (List.replicate 257 0 ++ [1, 1, 1]) runCl).lens =
      some (List.replicate 257 0 ++ [1, 1, 1]) ∧
    (headerAt [] 0 257 1 (List.replicate 258 0) runCl).phase = .dynamic ∧
    (headerAt [] 0 257 1 (List.replicate 258 0) runCl).status = .busy := by
  refine ⟨?_, ?_, ?_, ?_, ?_, rfl, rfl, rfl, rfl⟩ <;> decide +kernel

theorem witness_LiteralAppendsItsByte :
    255 ≤ 255 ∧ (decodingAt [] 0 [7] none).out = some (Memory.ofBytes (bytesOf [7])) ∧
    (Memory.ofBytes (bytesOf [7])).wf = true ∧
    withinCap (decodingAt [] 0 [7] none).cfg ((Memory.ofBytes (bytesOf [7])).size + 1) :=
  ⟨by decide, rfl, by decide, unbounded _⟩

theorem witness_LengthSymbolsSetLength :
    (lengthInstrs[28]? = some .len285 ∧ lenBase[28]? = some 258 ∧ lenExtra[28]? = some 0) ∧
    (lengthInstrs[27]? = some .len284 ∧ lenBase[27]? = some 227 ∧ lenExtra[27]? = some 5) ∧
    ((decodingAt [0xFF] 3 [] none).toFront.ok ∧
      5 ≤ (decodingAt [0xFF] 3 [] none).toFront.bitsRemaining) ∧
    (decodingAt [0xFF] 4 [] none).toFront.ok ∧
      (decodingAt [0xFF] 4 [] none).toFront.bitsRemaining < 5 := by
  refine ⟨?_, ?_, ⟨ok_of ?_, ?_⟩, ok_of ?_, ?_⟩ <;> decide

theorem witness_DistanceSymbolsCopyFromOut :
    (distInstrs[4]? = some .dist4 ∧ distBase[4]? = some 5 ∧ distExtra[4]? = some 1) ∧
    (decodingAt [0x80] 7 [1, 2, 3, 4, 5, 6] (some 258)).toFront.ok ∧
    (decodingAt [0x80] 7 [1, 2, 3, 4, 5, 6] (some 258)).out =
      some (Memory.ofBytes (bytesOf [1, 2, 3, 4, 5, 6])) ∧
    (Memory.ofBytes (bytesOf [1, 2, 3, 4, 5, 6])).wf = true ∧
    (decodingAt [0x80] 7 [1, 2, 3, 4, 5, 6] (some 258)).length = some 258 ∧
    1 ≤ (decodingAt [0x80] 7 [1, 2, 3, 4, 5, 6] (some 258)).toFront.bitsRemaining ∧
    6 = 5 + (decodingAt [0x80] 7 [1, 2, 3, 4, 5, 6] (some 258)).toFront.peek 1 ∧
    6 ≤ (Memory.ofBytes (bytesOf [1, 2, 3, 4, 5, 6])).size ∧
    withinCap Config.powerOn ((Memory.ofBytes (bytesOf [1, 2, 3, 4, 5, 6])).size + 258) := by
  refine ⟨?_, ok_of ?_, ?_, ?_, ?_, ?_, ?_, ?_, unbounded _⟩ <;> decide

theorem witness_DistanceBeyondOutRaises :
    (distInstrs[29]? = some .dist29 ∧ distBase[29]? = some 24577 ∧ distExtra[29]? = some 13) ∧
    ((decodingAt [0xFF, 0xFF] 3 [1] (some 3)).toFront.ok ∧
      13 ≤ (decodingAt [0xFF, 0xFF] 3 [1] (some 3)).toFront.bitsRemaining ∧
      (Memory.ofBytes (bytesOf [1])).size <
        24577 + (decodingAt [0xFF, 0xFF] 3 [1] (some 3)).toFront.peek 13) ∧
    (decodingAt [0xFF, 0xFF] 4 [1] (some 3)).toFront.ok ∧
    (decodingAt [0xFF, 0xFF] 4 [1] (some 3)).toFront.bitsRemaining < 13 := by
  refine ⟨?_, ⟨ok_of ?_, ?_, ?_⟩, ok_of ?_, ?_⟩ <;> decide +kernel

/-- A decode inside a fixed block meets the invariant. -/
theorem inv_decodingAt (l : List Nat) (pos : Nat) (out : List Nat) (h : okB (frontAt l pos) = true) :
    (decodingAt l pos out none).Inv where
  inputWf := (ok_of h).1
  outWf := ⟨by
    rw [Memory.wf, Memory.ofBytes]
    have key : ∀ (bs : List Byte) (a : Nat),
        (Memory.ofBytesFrom a bs).map Prod.fst = List.range' a (Memory.ofBytesFrom a bs).length := by
      intro bs
      induction bs with
      | nil => intro a; rfl
      | cons b bs ih => intro a; simp [Memory.ofBytesFrom, ih, List.range'_succ]
    rw [key, List.range_eq_range']
    exact beq_self_eq_true _, unbounded _⟩
  accBottom := ⟨rfl, rfl⟩
  distanceBottom := rfl
  bfinalRange := Nat.le_refl 1
  btypeRange := by show 1 ≤ 3; decide
  phase := ⟨⟨fixedLit_built, fixedDist_built⟩, ⟨rfl, rfl, rfl, rfl, rfl, rfl⟩, trivial, .inl rfl⟩
  status := ⟨nofun, rfl, rfl, rfl, rfl, rfl, rfl, nofun, ok_of h, fun _ => Nat.le_refl 1⟩

/-- A decode at the start of a dynamic header meets the invariant. -/
theorem inv_busyAt_dynamic (l : List Nat) (pos : Nat) (h : okB (frontAt l pos) = true) :
    (busyAt l pos .dynamic).Inv where
  inputWf := (ok_of h).1
  outWf := ⟨rfl, unbounded _⟩
  accBottom := ⟨rfl, rfl⟩
  distanceBottom := rfl
  bfinalRange := Nat.le_refl 1
  btypeRange := by show 2 ≤ 3; decide
  phase := ⟨⟨rfl, rfl⟩, .inl ⟨rfl, rfl, rfl, rfl, rfl, rfl⟩, rfl, rfl⟩
  status := ⟨nofun, rfl, rfl, rfl, rfl, rfl, rfl, nofun, ok_of h, fun _ => Nat.le_refl 1⟩

/-- LEN 284 x=31 and DIST 4 x=1 over six bytes of OUT. -/
theorem witness_BackReferenceIsOneElementStep :
    (decodingAt [0x23, 0x9F, 0x04] 0 [1, 2, 3, 4, 5, 6] none).Inv ∧
    (decodingAt [0x23, 0x9F, 0x04] 0 [1, 2, 3, 4, 5, 6] none).status = .busy ∧
    (lenBase[27]? = some 227 ∧ lenExtra[27]? = some 5 ∧ distBase[4]? = some 5 ∧
      distExtra[4]? = some 1 ∧ 31 < 2 ^ 5 ∧ 1 < 2 ^ 1) ∧
    symbolBits fixedLit (257 + 27) = some [true, true, false, false, false, true, false, false] ∧
    symbolBits fixedDist 4 = some [false, false, true, false, false] ∧
    (decodingAt [0x23, 0x9F, 0x04] 0 [1, 2, 3, 4, 5, 6] none).toFront.unread =
      [true, true, false, false, false, true, false, false] ++ fieldBits 5 31 ++
        [false, false, true, false, false] ++ fieldBits 1 1 ++ List.replicate 5 false ∧
    5 + 1 ≤ (Memory.ofBytes (bytesOf [1, 2, 3, 4, 5, 6])).size ∧
    withinCap Config.powerOn ((Memory.ofBytes (bytesOf [1, 2, 3, 4, 5, 6])).size + (227 + 31)) := by
  refine ⟨inv_decodingAt _ _ _ ?_, rfl, ?_, ?_, ?_, ?_, ?_, unbounded _⟩ <;> decide +kernel

/-- An instance whose OUT is full after two bytes. -/
def cappedAt (l : List Nat) (pos : Nat) (phase : Phase) (out : List Nat) (len : Option Nat) : State :=
  { decodingAt l pos out len with phase := phase, cfg := { outCap := some 2, trace := false } }

theorem witness_WritePastOutCapIsStuck :
    ((cappedAt [] 0 .decoding [1, 2] none).cfg.outCap = some 2 ∧
      (cappedAt [] 0 .decoding [1, 2] none).out = some (Memory.ofBytes (bytesOf [1, 2])) ∧
      (Memory.ofBytes (bytesOf [1, 2])).size = 2 ∧ (Memory.ofBytes (bytesOf [1, 2])).wf = true) ∧
    (distInstrs[0]? = some .dist0 ∧ distBase[0]? = some 1 ∧ distExtra[0]? = some 0 ∧
      (cappedAt [] 0 .decoding [1] (some 3)).toFront.ok ∧
      1 + (cappedAt [] 0 .decoding [1] (some 3)).toFront.peek 0 ≤ 1 ∧ 2 < 1 + 3) ∧
    ((cappedAt [1, 3, 0, 0xFC, 0xFF, 7, 8, 9] 3 .stored [] none).toFront.ok ∧
      1 = (cappedAt [1, 3, 0, 0xFC, 0xFF, 7, 8, 9] 3 .stored [] none).toFront.alignToByte.curByte ∧
      1 + 4 + 3 ≤ (cappedAt [1, 3, 0, 0xFC, 0xFF, 7, 8, 9] 3 .stored [] none).input.size ∧
      (cappedAt [1, 3, 0, 0xFC, 0xFF, 7, 8, 9] 3 .stored [] none).toFront.alignToByte.peek 16 = 3 ∧
      ((cappedAt [1, 3, 0, 0xFC, 0xFF, 7, 8, 9] 3 .stored [] none).toFront.alignToByte.advance
        16).peek 16 = 3 ^^^ 0xFFFF ∧ 2 < 0 + 3) := by
  refine ⟨⟨rfl, rfl, ?_, ?_⟩, ⟨?_, ?_, ?_, ok_of ?_, ?_, ?_⟩, ok_of ?_, ?_, ?_, ?_, ?_, ?_⟩ <;>
    decide +kernel

theorem witness_BlockDoneEndsOrGoesOn :
    ((busyAt [0] 5 .blockDone).status = .busy ∧ (busyAt [0] 5 .blockDone).phase = .blockDone ∧
      (busyAt [0] 5 .blockDone).out = some [] ∧ (busyAt [0] 5 .blockDone).bfinal = some 1) ∧
    ({ busyAt [0] 5 .blockDone with bfinal := some 0 } : State).bfinal = some 0 :=
  ⟨⟨rfl, rfl, rfl, rfl⟩, rfl⟩

theorem witness_StartBeginsADecode :
    (busyAt [] 0 .readHeader).status = .busy ∧ State.reset.status ≠ .busy ∧
    State.reset.cfg.trace = true := by decide

theorem witness_HostReadsOnlyWhatIsValid :
    (busyAt [] 0 .readHeader).status = .busy ∧ HostReg.consumed ≠ .status ∧
    (State.reset.status ≠ .busy ∧ State.reset.errByte = none ∧ State.reset.errBit = none ∧
      State.reset.errBlock = none ∧ State.reset.outLen = none ∧ State.reset.consumed = none ∧
      State.reset.status = .idle) ∧
    ((State.reset.raise .invalidDistance).status = .error ∧
      (State.reset.raise .invalidDistance).errByte = some 0 ∧
      (State.reset.raise .invalidDistance).errBit = some 0 ∧
      (State.reset.raise .invalidDistance).errBlock = some 0) ∧
    (({ State.reset with status := .done, outLen := some 0, consumed := some 1 } : State).status = .done ∧
      ({ State.reset with status := .done, outLen := some 0, consumed := some 1 } : State).out =
        some [] ∧
      ({ State.reset with status := .done, outLen := some 0, consumed := some 1 } : State).outLen =
        some 0 ∧
      ({ State.reset with status := .done, outLen := some 0, consumed := some 1 } : State).consumed =
        some 1) := by decide

theorem witness_StatusTransitions :
    after (step (State.started Config.powerOn [])) (fun t => t.status == .error) = true ∧
    after (step (busyAt [0] 5 .blockDone)) (fun t => t.status == .done) = true ∧
    after (hostMove .start State.reset) (fun t => t.status == .busy) = true ∧
    after (hostMove .reset (busyAt [] 0 .stored)) (fun t => t.status == .idle) = true ∧
    after (hostMove (.load [1]) State.reset) (fun t => t.status == .idle) = true := by decide

theorem witness_CursorNeverMovesBackward :
    (busyAt [0x07] 5 .readHeader).toFront.ok ∧
    after (step (busyAt [0x07] 5 .readHeader)) (fun t => t.toFront.pos == 8) = true := by
  refine ⟨ok_of ?_, ?_⟩ <;> decide

theorem witness_InputAndParametersAreNeverWritten :
    after (step (busyAt [0x03] 0 .readHeader)) (fun t => t.phase == .fixed) = true := by decide

theorem witness_OutIsAppendOnly :
    after (step (decodingAt [0x0C] 0 [9] none)) (fun t =>
      t.out == some (Memory.ofBytes (bytesOf [9, 0]))) = true ∧
    after (step (decodingAt [] 0 [9] none)) (fun t => t.out == none) = true := by decide +kernel

theorem witness_TraceRecordsHeadersAndChangesNothingElse :
    after (step (busyAt [0x03] 0 .readHeader)) (fun t => t.traceLog == [.hdr 0 1 1]) = true ∧
    ((busyAt [0x03] 0 .readHeader).action = .element .header ∧
      (frontAt [0x03] 0).readBits 1 = .ok 1 (frontAt [0x03] 1) ∧
      (frontAt [0x03] 1).readBits 2 = .ok 1 (frontAt [0x03] 3)) ∧
    after (step (busyAt [0x05, 0, 0, 0] 3 .dynamic)) (fun t => t.traceLog == [.dyn 0 257 1 4]) = true ∧
    ((busyAt [0x05, 0, 0, 0] 3 .dynamic).action = .element .dynHeader ∧
      (frontAt [0x05, 0, 0, 0] 3).readBits 5 = .ok 0 (frontAt [0x05, 0, 0, 0] 8) ∧
      (frontAt [0x05, 0, 0, 0] 8).readBits 5 = .ok 0 (frontAt [0x05, 0, 0, 0] 13) ∧
      (frontAt [0x05, 0, 0, 0] 13).readBits 4 = .ok 0 (frontAt [0x05, 0, 0, 0] 17)) ∧
    after (step (decodingAt [0x0C] 0 [9] none)) (fun t => t.traceLog == []) = true ∧
    (busyAt [] 0 .dynamic).cfg.trace = true := by decide +kernel

theorem witness_TrailingBytesDoNotMatter :
    (busyAt [0x03] 5 .readHeader).toFront.ok ∧
    after (step (busyAt [0x03] 5 .readHeader)) (fun t => t.errCode != .unexpectedEof) = true := by
  refine ⟨ok_of ?_, ?_⟩ <;> decide

theorem witness_StepKeepsTheInvariant :
    (decodingAt [0x00] 0 [1] none).Inv ∧
    after (step (decodingAt [0x00] 0 [1] none)) (fun t => t.phase == .blockDone) = true :=
  ⟨inv_decodingAt _ _ _ (by decide), by decide +kernel⟩

theorem witness_HostMovesKeepTheInvariant :
    (decodingAt [0x00] 0 [1] none).Inv ∧
    after (hostMove .reset (decodingAt [0x00] 0 [1] none)) (fun t => t.status == .idle) = true :=
  ⟨inv_decodingAt _ _ _ (by decide), by decide +kernel⟩

theorem witness_EngineAlwaysStepsOn : (decodingAt [] 0 [] none).Inv :=
  inv_decodingAt _ _ _ (by decide)

theorem witness_EveryDecodeEnds : Config.powerOn.outCap = none := rfl

theorem witness_ElementStepEndsBetweenElements :
    (busyAt [0x05, 0, 0, 0, 0xFF, 0xFF] 3 .dynamic).Inv ∧
    (busyAt [0x05, 0, 0, 0, 0xFF, 0xFF] 3 .dynamic).status = .busy ∧
    (busyAt [0x05, 0, 0, 0, 0xFF, 0xFF] 3 .dynamic).phase = .dynamic ∧
    after (elementStep (busyAt [0x05, 0, 0, 0, 0xFF, 0xFF] 3 .dynamic)) (fun t =>
      t.errCode == .invalidHuffmanCode) = true :=
  ⟨inv_busyAt_dynamic _ _ (by decide), rfl, rfl, by decide +kernel⟩

theorem witness_DynHeaderEntryPointAgrees :
    (busyAt [0x05, 0, 0x92, 0] 3 .dynamic).Inv ∧
    (busyAt [0x05, 0, 0x92, 0] 3 .dynamic).status = .busy ∧
    (busyAt [0x05, 0, 0x92, 0] 3 .dynamic).phase = .dynamic ∧
    (busyAt [0x05, 0, 0x92, 0] 3 .dynamic).midElement = false ∧
    after (elementStep (busyAt [0x05, 0, 0x92, 0] 3 .dynamic)) (fun t => t.status == .error) = true :=
  ⟨inv_busyAt_dynamic _ _ (by decide), rfl, rfl, rfl, by decide +kernel⟩

/-- A decode right after START meets the invariant. -/
theorem inv_started (cfg : Config) (l : List Nat)
    (h : okB (State.started cfg (bytesOf l)).toFront = true) :
    (State.started cfg (bytesOf l)).Inv where
  inputWf := (ok_of h).1
  outWf := ⟨rfl, fun _ _ => Nat.zero_le _⟩
  accBottom := ⟨rfl, rfl⟩
  distanceBottom := rfl
  bfinalRange := trivial
  btypeRange := trivial
  phase := ⟨⟨rfl, rfl⟩, ⟨rfl, rfl, rfl, rfl, rfl, rfl⟩, rfl, .inl ⟨rfl, rfl, rfl⟩⟩
  status := ⟨nofun, rfl, rfl, rfl, rfl, rfl, rfl, nofun, ok_of h, fun h => absurd rfl h⟩

/-- A whole block, a reserved block type, and a block that does not fit in OUT_CAP. -/
theorem witness_BlockEntryPointAgrees :
    (State.started Config.powerOn (bytesOf [1, 2, 0, 0xFD, 0xFF, 0x48, 0x69])).Inv ∧
    (State.started Config.powerOn (bytesOf [7])).Inv ∧
    (State.started { outCap := some 1, trace := false }
      (bytesOf [1, 2, 0, 0xFD, 0xFF, 0x48, 0x69])).Inv ∧
    ∀ cfg bs, (State.started cfg bs).status = .busy ∧ (State.started cfg bs).phase = .readHeader ∧
      (State.started cfg bs).out = some [] :=
  ⟨inv_started _ _ (by decide), inv_started _ _ (by decide), inv_started _ _ (by decide),
    fun _ _ => ⟨rfl, rfl, rfl⟩⟩

/-- 44_block_decoder.md R176: a stored block of "Hi" into a window that holds a byte already. -/
theorem test_decodeBlock_stored :
    decodeBlock Config.powerOn (frontAt [1, 2, 0, 0xFD, 0xFF, 0x48, 0x69] 0)
        (Memory.ofBytes (bytesOf [7])) =
      .ok (1, Memory.ofBytes (bytesOf [7, 0x48, 0x69]))
        (frontAt [1, 2, 0, 0xFD, 0xFF, 0x48, 0x69] 56) := by decide +kernel

/-- 44_block_decoder.md R176 with 00_scope.md R11: the window holds two bytes and no more. -/
theorem test_decodeBlock_outCap :
    decodeBlock { outCap := some 2, trace := true } (frontAt [1, 2, 0, 0xFD, 0xFF, 0x48, 0x69] 0)
      (Memory.ofBytes (bytesOf [7])) = .fault .outCapStuck := by decide +kernel

theorem witness_StoredBlockRoundTrip :
    Config.powerOn.outCap = none ∧ (List.replicate 65535 (7 : Byte)).length ≤ 65535 :=
  ⟨rfl, Nat.le_of_eq List.length_replicate⟩

theorem witness_FixedLiteralsRoundTrip : Config.powerOn.outCap = none := rfl

end Sys2Proof.Tests.Slice0
end

/-! ## What a step keeps (O45)

An element that goes on writes neither IN nor the parameters nor STATUS nor ERRCODE, and only appends
to OUT: `State.Frame`. An element that ends in a `raise` does so from a state inside that frame:
`State.ErrorFrom`. Each operation is held to this once, in the order of the model's files; a step is
then one of the two, a step that does nothing, or Finish (`step_cases`). -/

namespace Sys2Proof.Machine

/-! ### The front end -/

/-- An operation of the front end that leaves IN at `m`, and raises one of the eight errors if any
(20_memory.md R37, 60_exceptions.md R188). -/
def Read.KeepsInput {α : Type} (m : Memory) : Read α → Prop
  | .ok _ f => f.input = m
  | .raised e f => e ≠ .noError ∧ f.input = m
  | .fault _ | .refused _ => True

theorem Read.KeepsInput.andThen {α β : Type} {m : Memory} {r : Read α} {k : α → Front → Read β}
    (hr : r.KeepsInput m) (hk : ∀ a f, f.input = m → (k a f).KeepsInput m) :
    (r.andThen k).KeepsInput m := by
  cases r with
  | ok a f => exact hk a f hr
  | raised e f => exact hr
  | fault x => trivial
  | refused x => trivial

@[simp] theorem Front.nextBit_input (f : Front) : f.nextBit.input = f.input := by
  unfold Front.nextBit
  split <;> rfl

section
variable {m : Memory} {f : Front} (h : f.input = m)
include h

theorem Front.readBit_keepsInput : f.readBit.KeepsInput m := by
  unfold Front.readBit
  split
  · exact ⟨nofun, h⟩
  · split
    · trivial
    · exact f.nextBit_input.trans h

theorem Front.readBitsLoop_keepsInput (n i v : Nat) :
    (Front.readBitsLoop n i v f).KeepsInput m := by
  induction n generalizing f i v with
  | zero => exact h
  | succ n ih => exact (Front.readBit_keepsInput h).andThen fun b g hg => ih hg (i + 1) _

theorem Front.readBits_keepsInput (n : Nat) : (f.readBits n).KeepsInput m := by
  unfold Front.readBits
  split
  · trivial
  · split
    · exact ⟨nofun, h⟩
    · exact Front.readBitsLoop_keepsInput h n 0 0

theorem Front.readRawBytes_keepsInput (n : Nat) : (f.readRawBytes n).KeepsInput m := by
  unfold Front.readRawBytes
  split
  · exact ⟨nofun, h⟩
  · split
    · trivial
    · exact h

theorem Front.alignToByte_input : f.alignToByte.input = m := by
  unfold Front.alignToByte
  split <;> exact h

theorem Front.decodeLoop_keepsInput (T : HuffmanTable) (n : Nat) :
    (Front.decodeLoop T n f).KeepsInput m := by
  induction n generalizing f with
  | zero => exact ⟨nofun, h⟩
  | succ n ih =>
    refine (Front.readBit_keepsInput h).andThen fun b g hg => ?_
    split
    · split
      · exact hg
      · exact ih hg
    · trivial

theorem Front.decode_keepsInput (T : HuffmanTable) : (f.decode T).KeepsInput m :=
  Front.decodeLoop_keepsInput (f := { f with accCode := some 0, accLen := some 0 }) h T maxCodeBits

theorem decodeRow_keepsInput (sel : Selector) : (decodeRow sel f).KeepsInput m := by
  cases sel with
  | header =>
    exact (Front.readBits_keepsInput h 1).andThen fun _ g hg =>
      (Front.readBits_keepsInput hg 2).andThen fun _ _ hk => hk
  | storedBody | fixedTables | dynHeader => exact h
  | clSym T | litLen T | dist T => exact (Front.decode_keepsInput h T).andThen fun _ _ hg => hg

theorem decodeAt_keepsInput (sel : Selector) : (decodeAt sel f).KeepsInput m := by
  refine (decodeRow_keepsInput h sel).andThen fun row g hg => ?_
  split
  · exact hg
  · trivial

end

/-! ### The frame, and the ways an operation can end -/

/-- What an element that goes on keeps: STATUS, ERRCODE, the parameters and IN; OUT is appended to
(10_state.md R31, 20_memory.md R37, R38). -/
def State.Frame (s t : State) : Prop :=
  t.status = s.status ∧ t.errCode = s.errCode ∧ t.cfg = s.cfg ∧ t.input = s.input ∧
    (t.out = s.out ∨ ∃ m bs, s.out = some m ∧ t.out = some (m.appendAll bs))

/-- The state of an error taken within the frame (60_exceptions.md R198). -/
def State.ErrorFrom (s t : State) : Prop :=
  ∃ e u, e ≠ .noError ∧ s.Frame u ∧ t = u.raise e

/-- An outcome whose next state, if any, is within the frame or an error taken there. -/
def State.Leads (s : State) (o : Host.Outcome State Fault Refusal) : Prop :=
  ∀ t, o = .next t → s.Frame t ∨ s.ErrorFrom t

/-- An operation that goes on within the frame, or ends the element as `State.Leads` says. -/
def OpRes.Framed {α : Type} (s : State) : OpRes α → Prop
  | .done _ t => s.Frame t
  | .stop o => s.Leads o

theorem State.Frame.refl (s : State) : s.Frame s := ⟨rfl, rfl, rfl, rfl, .inl rfl⟩

theorem State.Frame.status_eq {s t : State} (h : s.Frame t) : t.status = s.status := h.1

theorem State.Frame.withFront {s t : State} {f : Front} (h : s.Frame t) (hf : f.input = t.input) :
    s.Frame (t.withFront f) := by
  obtain ⟨hstatus, herr, hcfg, hin, hout⟩ := h
  exact ⟨hstatus, herr, hcfg, hf.trans hin, hout⟩

theorem State.Frame.traced {s t : State} (h : s.Frame t) (e : TraceEvent) :
    s.Frame (t.traced e) := by
  unfold State.traced
  split <;> exact h

theorem State.Frame.setHeader {s t : State} (h : s.Frame t) (bfinal btype : Nat) :
    s.Frame (t.setHeader bfinal btype) :=
  State.Frame.traced (t := { t with bfinal := some bfinal, btype := some btype }) h _

/-- One more byte at the end of OUT stays within the frame (20_memory.md R38). -/
theorem State.Frame.append {s t : State} {m : Memory} (h : s.Frame t) (hm : t.out = some m)
    (v : Byte) : s.Frame { t with out := some (m.append v) } := by
  obtain ⟨hstatus, herr, hcfg, hin, hout⟩ := h
  refine ⟨hstatus, herr, hcfg, hin, .inr ?_⟩
  obtain hout | ⟨m₀, bs, hm₀, hout⟩ := hout
  · exact ⟨m, [v], hout.symm.trans hm, rfl⟩
  · obtain rfl : m = m₀.appendAll bs := Option.some.inj (hm.symm.trans hout)
    exact ⟨m₀, bs ++ [v], hm₀, by rw [Memory.appendAll_append]; rfl⟩

theorem State.Leads.next {s t : State} (h : s.Frame t) : s.Leads (.next t) := by
  rintro u ⟨⟩
  exact .inl h

theorem State.Leads.raise {s t : State} {e : ErrCode} (he : e ≠ .noError) (h : s.Frame t) :
    s.Leads (.next (t.raise e)) := by
  rintro u ⟨⟩
  exact .inr ⟨e, t, he, h, rfl⟩

theorem State.Leads.fault (s : State) (r : Fault) : s.Leads (.fault r) := by
  intro t h
  cases h

theorem State.Leads.refused (s : State) (r : Refusal) : s.Leads (.refused r) := by
  intro t h
  cases h

theorem OpRes.Framed.andThen {α β : Type} {s : State} {r : OpRes α} {k : α → State → OpRes β}
    (hr : r.Framed s) (hk : ∀ a t, s.Frame t → (k a t).Framed s) : (r.andThen k).Framed s := by
  cases r with
  | done a t => exact hk a t hr
  | stop o => exact hr

theorem OpRes.Framed.outcome {α : Type} {s : State} {r : OpRes α} (h : r.Framed s) :
    s.Leads r.outcome := by
  cases r with
  | done a t => exact .next h
  | stop o => exact h

/-! ### The shared operations -/

section
variable {s t : State} (h : s.Frame t)
include h

theorem raiseError_framed {α : Type} {e : ErrCode} (he : e ≠ .noError) :
    (raiseError e t : OpRes α).Framed s := State.Leads.raise he h

theorem liftRead_framed {α : Type} {r : Read α} (hr : r.KeepsInput t.input) :
    (liftRead t r).Framed s := by
  cases r with
  | ok a f => exact h.withFront hr
  | raised e f =>
    obtain ⟨he, hf⟩ := hr
    exact raiseError_framed (h.withFront hf) he
  | fault x => exact .fault s x
  | refused x => exact .refused s x

theorem readBits_framed (n : Nat) : (t.readBits n).Framed s :=
  liftRead_framed h (Front.readBits_keepsInput rfl n)

theorem readRawBytes_framed (n : Nat) : (t.readRawBytes n).Framed s :=
  liftRead_framed h (Front.readRawBytes_keepsInput rfl n)

theorem fetch_framed (sel : Selector) : (fetch sel t).Framed s :=
  liftRead_framed h (decodeAt_keepsInput rfl sel)

theorem readOffset_framed (base extra : Nat) : (readOffset base extra t).Framed s :=
  (readBits_framed h extra).andThen fun _ _ hu => hu

theorem needReg_framed {α : Type} (r : Reg) (v : Option α) : (needReg r v t).Framed s := by
  cases v with
  | none => exact .fault s _
  | some a => exact h

theorem outSize_framed : (outSize t).Framed s := by
  unfold outSize
  split
  · exact .fault s _
  · exact h

theorem memReadOut_framed (a : Nat) : (memReadOut a t).Framed s := by
  unfold memReadOut
  split
  · exact .fault s _
  · split
    · exact .fault s _
    · exact h

theorem memWriteOut_framed (v : Byte) : (memWriteOut v t).Framed s := by
  unfold memWriteOut
  split
  · exact .fault s _
  · next m hm =>
    split
    · exact .fault s _
    · exact h.append hm v

theorem appendBytes_framed (bs : List Byte) : (appendBytes bs t).Framed s := by
  induction bs generalizing t with
  | nil => exact h
  | cons b bs ih => exact (memWriteOut_framed h b).andThen fun _ _ hu => ih hu

theorem copyBack_framed (n dist : Nat) : (copyBack n dist t).Framed s := by
  induction n generalizing t with
  | zero => exact h
  | succ n ih =>
    exact (outSize_framed h).andThen fun _ _ hu =>
      (memReadOut_framed hu _).andThen fun b _ hv =>
        (memWriteOut_framed hv b).andThen fun _ _ hw => ih hw

theorem buildTable_framed (lengths : List Nat) : (buildTable lengths t).Framed s := by
  unfold buildTable
  split
  · exact h
  · exact raiseError_framed h nofun

/-! ### The elements -/

theorem readCounts_framed : (readCounts t).Framed s :=
  (readOffset_framed h 257 5).andThen fun a u hu =>
    (readOffset_framed (t := { u with hlit := some a }) hu 1 5).andThen fun b v hv =>
      (readOffset_framed (t := { v with hdist := some b }) hv 4 4).andThen fun c w hw =>
        State.Frame.traced
          (t := { w with hclen := some c, clLens := some (List.replicate clSymbols 0) }) hw _

theorem readClLens_framed (syms : List Nat) : (readClLens syms t).Framed s := by
  induction syms generalizing t with
  | nil => exact h
  | cons sym rest ih =>
    exact (readBits_framed h 3).andThen fun _ _ hu =>
      (needReg_framed hu _ _).andThen fun L v hv => ih (t := { v with clLens := _ }) hv

theorem execDynHeader_leads : s.Leads (execDynHeader t) :=
  OpRes.Framed.outcome <| (readCounts_framed h).andThen fun _ _ hu =>
    (readClLens_framed hu _).andThen fun _ _ hv =>
      (needReg_framed hv _ _).andThen fun _ _ hw =>
        (buildTable_framed hw _).andThen fun _ _ hx => hx

theorem lensTotal_framed : (lensTotal t).Framed s :=
  (needReg_framed h _ _).andThen fun _ _ hu =>
    (needReg_framed hu _ _).andThen fun _ _ hv => hv

theorem appendRun_framed (r v : Nat) : (appendRun r v t).Framed s := by
  refine (lensTotal_framed h).andThen fun total u hu =>
    (needReg_framed hu _ _).andThen fun L w hw => ?_
  split
  · exact raiseError_framed hw nofun
  · exact hw

theorem execClLen_leads (len : Nat) : s.Leads (execClLen len t) :=
  OpRes.Framed.outcome <| (needReg_framed h _ _).andThen fun _ _ hu => hu

theorem execClRep16_leads : s.Leads (execClRep16 t) := by
  refine OpRes.Framed.outcome <| (needReg_framed h _ _).andThen fun L u hu => ?_
  split
  · exact raiseError_framed hu nofun
  · exact (readOffset_framed hu 3 2).andThen fun r _ hv => appendRun_framed hv r _

theorem readOffset_appendRun_leads (base extra : Nat) :
    s.Leads ((readOffset base extra t).andThen fun r u => appendRun r 0 u).outcome :=
  OpRes.Framed.outcome <| (readOffset_framed h base extra).andThen fun r _ hu =>
    appendRun_framed hu r 0

theorem dynEnd_leads : s.Leads (dynEnd t) :=
  OpRes.Framed.outcome <| (needReg_framed h _ _).andThen fun _ _ hu =>
    (needReg_framed hu _ _).andThen fun _ _ hv =>
      (needReg_framed hv _ _).andThen fun _ _ hw =>
        (buildTable_framed hw _).andThen fun _ _ hx =>
          (buildTable_framed hx _).andThen fun _ _ hy => hy

theorem startBody_leads (bfinal btype : Nat) (body : Phase) :
    s.Leads (startBody bfinal btype body t) :=
  .next (t := { t.setHeader bfinal btype with phase := body }) (h.setHeader bfinal btype)

theorem execStoredBody_leads : s.Leads (execStoredBody t) := by
  have haligned := h.withFront (Front.alignToByte_input rfl)
  refine OpRes.Framed.outcome <| (readBits_framed haligned 16).andThen fun len u hu =>
    (readBits_framed hu 16).andThen fun nlen v hv => ?_
  split
  · exact raiseError_framed hv nofun
  · exact (readRawBytes_framed hv len).andThen fun bs _ hw =>
      (appendBytes_framed hw bs).andThen fun _ _ hx => hx

theorem lengthSymbol_leads (base extra : Nat) : s.Leads (lengthSymbol base extra t) :=
  OpRes.Framed.outcome <| (readOffset_framed h base extra).andThen fun _ _ hu => hu

theorem distanceSymbol_leads (base extra : Nat) : s.Leads (distanceSymbol base extra t) := by
  refine OpRes.Framed.outcome <| (readOffset_framed h base extra).andThen fun d u hu =>
    (outSize_framed (t := { u with distance := some d }) hu).andThen fun size v hv => ?_
  split
  · exact raiseError_framed hv nofun
  · exact (needReg_framed hv _ _).andThen fun n _ hw =>
      (copyBack_framed hw n d).andThen fun _ _ hx => hx

/-- Every element keeps the frame or takes an error (10_state.md R31). -/
theorem exec_leads (i : Instr) : s.Leads (exec i t) := by
  cases i with
  | blockStored f | blockFixed f | blockDynamic f => exact startBody_leads h f _ _
  | blockReserved f => exact .raise nofun (h.setHeader f 3)
  | storedBody => exact execStoredBody_leads h
  | fixedTables => exact .next h
  | dynHeader => exact execDynHeader_leads h
  | lit sym => exact (memWriteOut_framed h _).outcome
  | eob => exact .next h
  | len257 | len258 | len259 | len260 | len261 | len262 | len263 | len264 | len285 =>
    exact lengthSymbol_leads h _ 0
  | len265 | len266 | len267 | len268 | len269 | len270 | len271 | len272 | len273 | len274 | len275
  | len276 | len277 | len278 | len279 | len280 | len281 | len282 | len283 | len284 =>
    exact lengthSymbol_leads h _ _
  | dist0 | dist1 | dist2 | dist3 | dist4 | dist5 | dist6 | dist7 | dist8 | dist9 | dist10 | dist11
  | dist12 | dist13 | dist14 | dist15 | dist16 | dist17 | dist18 | dist19 | dist20 | dist21 | dist22
  | dist23 | dist24 | dist25 | dist26 | dist27 | dist28 | dist29 =>
    exact distanceSymbol_leads h _ _
  | litlenReserved286 | litlenReserved287 | distReserved30 | distReserved31 => exact .raise nofun h
  | clLen n => exact execClLen_leads h n
  | clRep16 => exact execClRep16_leads h
  | clZero17 | clZero18 => exact readOffset_appendRun_leads h _ _

end

/-! ### The step -/

/-- The state after a final block's BlockDone and its Finish, over the OUT `m` (45_decoder_top.md R181,
R182). -/
def State.finished (s : State) (m : Memory) : State :=
  { s with
    litTable := none
    distTable := none
    outLen := some m.size
    consumed := some (s.curByte + if s.curBit ≠ 0 then 1 else 0)
    phase := .halt
    status := .done }

/-- What BlockDone can do: go on within the frame, or, after a final block, Finish (45_decoder_top.md
R181, R182). -/
theorem blockDone_cases {s t : State} (h : blockDone s = .next t) :
    s.Frame t ∨ (s.bfinal = some 1 ∧ ∃ m, s.out = some m ∧ t = s.finished m) := by
  unfold blockDone testFinal finish outSize at h
  cases hf : s.bfinal with
  | none => simp [hf] at h
  | some f =>
    by_cases h1 : f = 1
    · subst h1
      cases hm : s.out with
      | none => simp [hf, hm] at h
      | some m => exact .inr ⟨rfl, m, rfl, by simpa [hf, hm, State.finished] using h.symm⟩
    · left
      obtain rfl : _ = t := by simpa [hf, h1] using h
      exact State.Frame.refl s

/-- The dispatcher has a step only while STATUS = BUSY (45_decoder_top.md R180). -/
theorem State.action_busy {s : State} (h : s.action ≠ .noStep) : s.status = .busy := by
  unfold State.action at h
  cases hs : s.status with
  | busy => rfl
  | idle | done | error => exact absurd (by rw [hs]) h

/-- In PHASE DYNAMIC no step is BlockDone. -/
theorem State.dynamicAction_ne_blockDone (s : State) : s.dynamicAction ≠ .blockDone := by
  unfold State.dynamicAction
  repeat' split
  all_goals nofun

/-- In PHASE DECODING no step is BlockDone. -/
theorem State.decodingAction_ne_blockDone (s : State) : s.decodingAction ≠ .blockDone := by
  unfold State.decodingAction symbolUnder
  repeat' split
  all_goals nofun

/-- BlockDone is run in PHASE BLOCK_DONE only (45_decoder_top.md R180). -/
theorem State.action_blockDone {s : State} (h : s.action = .blockDone) : s.phase = .blockDone := by
  have hbusy := State.action_busy (s := s) (by rw [h]; nofun)
  unfold State.action at h
  rw [hbusy] at h
  cases hp : s.phase with
  | blockDone => rfl
  | dynamic => rw [hp] at h; exact absurd h s.dynamicAction_ne_blockDone
  | decoding => rw [hp] at h; exact absurd h s.decodingAction_ne_blockDone
  | readHeader | stored | fixed | halt => rw [hp] at h; cases h

/-- What a step can do: nothing, where there is none; or, while BUSY, keep the frame, take an error
within it, or Finish after a final block (45_decoder_top.md R180 to R183). -/
theorem step_cases {s t : State} (h : step s = .next t) :
    t = s ∨ (s.status = .busy ∧ (s.Frame t ∨ s.ErrorFrom t ∨
      (s.phase = .blockDone ∧ s.bfinal = some 1 ∧ ∃ m, s.out = some m ∧ t = s.finished m))) := by
  have hs := State.Frame.refl s
  cases ha : s.action with
  | noStep => rw [step_noStep ha] at h; cases h; exact .inl rfl
  | bottom r => simp [step, ha] at h
  | dynEnd =>
    rw [step_dynEnd ha] at h
    exact .inr ⟨State.action_busy (by rw [ha]; nofun), (dynEnd_leads hs t h).imp_right .inl⟩
  | blockDone =>
    rw [step_blockDone ha] at h
    refine .inr ⟨State.action_busy (by rw [ha]; nofun), ?_⟩
    exact (blockDone_cases h).imp_right fun hfin => .inr ⟨State.action_blockDone ha, hfin⟩
  | element sel =>
    refine .inr ⟨State.action_busy (by rw [ha]; nofun), Or.imp_right .inl ?_⟩
    have hfetch := fetch_framed hs sel
    cases hf : fetch sel s with
    | done i u =>
      rw [step_element ha hf] at h
      rw [hf] at hfetch
      exact exec_leads hfetch i t h
    | stop o =>
      rw [step_element_stop ha hf] at h
      rw [hf] at hfetch
      exact hfetch t h

/-! ### The host's moves -/

/-- START is answered when STATUS is not BUSY, and sets it (45_decoder_top.md R177, R178). -/
theorem hostStart_status {s t : State} (h : hostStart s = .next t) :
    s.status ≠ .busy ∧ t.status = .busy := by
  unfold hostStart at h
  split at h
  · cases h
  · cases h; exact ⟨‹_›, rfl⟩

/-- A load is answered when STATUS is not BUSY, and leaves it (45_decoder_top.md R178, R179). -/
theorem hostLoad_status {s t : State} {bs : List Byte} (h : hostLoad bs s = .next t) :
    s.status ≠ .busy ∧ t.status = s.status := by
  unfold hostLoad at h
  split at h
  · cases h
  · cases h; exact ⟨‹_›, rfl⟩

/-- RESET sets STATUS to IDLE (70_reset_and_hazards.md R206). -/
theorem hostReset_status {s t : State} (h : hostReset s = .next t) : t.status = .idle := by
  cases h
  rfl

/-- Settles O45: a step is a case of `step_cases`, a host move one of the three lemmas above. -/
theorem statusTransitions : Obligations.StatusTransitions := by
  unfold Obligations.StatusTransitions
  refine fun s t =>
    ⟨fun h => ?_, hostStart_status, hostReset_status, fun bs => hostLoad_status (bs := bs)⟩
  obtain rfl | ⟨hbusy, hframe | ⟨e, u, he, -, rfl⟩ | ⟨hphase, hfinal, m, -, rfl⟩⟩ := step_cases h
  · exact .inl rfl
  · exact .inl hframe.status_eq
  · exact .inr (.inr ⟨hbusy, rfl, he, rfl⟩)
  · exact .inr (.inl ⟨hbusy, rfl, hphase, hfinal⟩)

end Sys2Proof.Machine

/-! ## The bits of a ReadBits field (O3) -/

namespace Sys2Proof.Machine

/-- A field of more than 16 bits is refused (41_bitreader.md R73). -/
theorem Front.readBits_tooWide {n : Nat} (f : Front) (hn : 16 < n) :
    f.readBits n = .refused .readBitsTooWide := if_pos hn

/-- ReadBits(n) gives a value in one way: at most 16 bits, all of them left (41_bitreader.md R73). -/
theorem Front.readBits_eq_ok {f g : Front} (h : f.ok) {n v : Nat} (hr : f.readBits n = .ok v g) :
    n ≤ 16 ∧ n ≤ f.bitsRemaining ∧ v = f.peek n ∧ g = f.advance n := by
  by_cases h16 : n ≤ 16
  · obtain ⟨hn, hok⟩ | ⟨-, heof⟩ := Front.readBits_cases h h16
    · obtain ⟨rfl, rfl⟩ : f.peek n = v ∧ f.advance n = g := by simpa [hok] using hr
      exact ⟨h16, hn, rfl, rfl⟩
    · rw [heof] at hr
      cases hr
  · rw [f.readBits_tooWide (Nat.lt_of_not_le h16)] at hr
    cases hr

/-- The closed form of ReadBits(n), bit by bit (20_memory.md R43). -/
theorem Front.testBit_peek {f : Front} (h : f.input.wf = true) (n i : Nat) :
    (f.peek n).testBit i = (decide (i < n) && f.streamBit (f.pos + i)) := by
  rw [Front.peek, Nat.testBit_mod_two_pow, Nat.testBit_shiftRight, Front.testBit_streamNat h]

/-- Settles O3: the value is the closed form of ReadBits, whose bits are stream bits. -/
theorem fieldsAreLeastSignificantBitFirst : Obligations.FieldsAreLeastSignificantBitFirst := by
  intro n v f g h hr
  obtain ⟨-, -, rfl, -⟩ := Front.readBits_eq_ok h hr
  refine ⟨f.peek_lt n, fun i hi => ?_⟩
  rw [Front.testBit_peek h.inputWf, decide_eq_true hi, Bool.true_and]

end Sys2Proof.Machine

/-! ## The BitReader (O1, O2, O4, O5) -/

namespace Sys2Proof.Machine

/-- Settles O1: ReadBit over the unread bits, at the two sides of the end of IN. -/
theorem readBitTakesTheNextStreamBit : Obligations.ReadBitTakesTheNextStreamBit := by
  intro f h
  refine ⟨fun h1 => ?_, fun h0 => Front.readBit_eof (Nat.lt_one_iff.mp h0)⟩
  rw [Front.readBit_spec h h1]
  cases f.streamBit f.pos <;> rfl

/-- Settles O2: the closed form of ReadBits, the end of IN inside the field, and the refused width. -/
theorem readBitsIsTheNextBitsAsANumber : Obligations.ReadBitsIsTheNextBitsAsANumber :=
  fun _ f h => ⟨Front.readBits_peek h, Front.readBits_eof, f.readBits_tooWide⟩

/-- AlignToByte at a byte boundary (41_bitreader.md R74). -/
theorem Front.alignToByte_aligned {f : Front} (h0 : f.curBit = 0) : f.alignToByte = f := if_pos h0

/-- AlignToByte inside a byte (41_bitreader.md R74). -/
theorem Front.alignToByte_partial {f : Front} (h0 : f.curBit ≠ 0) :
    f.alignToByte = { f with curByte := f.curByte + 1, curBit := 0 } := if_neg h0

/-- AlignToByte rounds the cursor up to a multiple of 8 bits (41_bitreader.md R74). -/
theorem Front.pos_alignToByte {f : Front} (h : f.ok) : f.alignToByte.pos = 8 * ((f.pos + 7) / 8) := by
  obtain ⟨-, hbit, hbyte, -⟩ := Front.alignToByte_spec h
  rw [Front.pos, hbit, hbyte, Nat.add_zero]

/-- Settles O4: AlignToByte in its two cases, and the cursor rounded up to a byte. -/
theorem alignToByteMovesForwardToAByte : Obligations.AlignToByteMovesForwardToAByte := by
  intro f h
  have hpos := Front.pos_alignToByte h
  exact ⟨Front.alignToByte_aligned, Front.alignToByte_partial, (Front.alignToByte_spec h).1,
    by omega, by omega⟩

/-- BytesRemaining at a byte boundary (41_bitreader.md R75). -/
theorem Front.bytesRemaining_aligned {f : Front} (h0 : f.curBit = 0) :
    f.bytesRemaining = f.input.size - f.curByte := if_pos h0

/-- BytesRemaining inside a byte, which does not count (41_bitreader.md R75). -/
theorem Front.bytesRemaining_partial {f : Front} (h0 : f.curBit ≠ 0) :
    f.bytesRemaining = f.input.size - f.curByte - 1 := if_neg h0

/-- Settles O5: BytesRemaining in its two cases, and ReadRawBytes on either side of it. -/
theorem rawBytesAreAllOrNothing : Obligations.RawBytesAreAllOrNothing :=
  fun _ _ h => ⟨Front.bytesRemaining_aligned, Front.bytesRemaining_partial,
    fun h0 hn => Front.readRawBytes_spec h h0 hn,
    fun h0 hn => Front.readRawBytes_eof (by rwa [Front.bytesRemaining_aligned h0])⟩

end Sys2Proof.Machine

/-! ## The dynamic header up to CL_TABLE (O27)

`readCounts` reads the three counts and traces them, which leaves `State.withCounts`; `readClLens`
then places the code lengths, which are `headerClLens`. Each can end in the end of IN instead, and
`execDynHeader` is the two in a row and Build. -/

namespace Sys2Proof.Machine

/-- The state with the three counts written and traced (43_dynamic_header.md R90, 60_exceptions.md
R204). -/
def State.withCounts (a b c : Nat) (s : State) : State :=
  { s with
    hlit := some a, hdist := some b, hclen := some c
    traceLog := if s.cfg.trace then s.traceLog ++ [.dyn s.blockIndex a b c] else s.traceLog }

@[simp] theorem State.withCounts_toFront (a b c : Nat) (s : State) :
    (s.withCounts a b c).toFront = s.toFront := rfl

/-- The state with CL_LENS set (43_dynamic_header.md R92). -/
def State.withClLens (L : List Nat) (s : State) : State := { s with clLens := some L }

@[simp] theorem State.withClLens_toFront (L : List Nat) (s : State) :
    (s.withClLens L).toFront = s.toFront := rfl

/-- A symbol stands in CL_ORDER where it stands among the first `n`, or else after them. -/
theorem idxOf_clOrder (n c : Nat) :
    clOrder.idxOf c = if c ∈ clOrder.take n then (clOrder.take n).idxOf c
      else (clOrder.drop n).idxOf c + (clOrder.take n).length := by
  rw [← List.idxOf_append, List.take_append_drop]

theorem idxOf_take_clOrder {n c : Nat} (h : c ∈ clOrder.take n) :
    (clOrder.take n).idxOf c = clOrder.idxOf c := by
  rw [idxOf_clOrder n c, if_pos h]

/-- The first `n` symbols of CL_ORDER are those that get one of the `n` values sent
(43_dynamic_header.md R92). -/
theorem mem_take_clOrder {n : Nat} (hn : n ≤ clSymbols) (c : Nat) :
    c ∈ clOrder.take n ↔ clOrder.idxOf c < n := by
  have hlen : (clOrder.take n).length = n := List.length_take_of_le hn
  by_cases hin : c ∈ clOrder.take n
  · have hlt := List.idxOf_lt_length_of_mem hin
    rw [idxOf_take_clOrder hin, hlen] at hlt
    exact iff_of_true hin hlt
  · rw [idxOf_clOrder n c, if_neg hin, hlen]
    exact iff_of_false hin (Nat.not_lt.mpr (Nat.le_add_left n _))

/-- A list with the 3-bit values at the first `n` symbols of CL_ORDER and 0 elsewhere is
`headerClLens` (43_dynamic_header.md R92). -/
theorem eq_headerClLens {f : Front} {n : Nat} {L : List Nat} (hn : n ≤ clSymbols)
    (hlen : L.length = clSymbols)
    (hget : ∀ c, c < clSymbols → L[c]? =
      if c ∈ clOrder.take n then some ((f.advance (3 * (clOrder.take n).idxOf c)).peek 3)
      else some 0) :
    L = headerClLens f n := by
  apply List.ext_getElem?
  intro c
  by_cases hc : c < clSymbols
  · rw [hget c hc, headerClLens, List.getElem?_map, List.getElem?_range hc, Option.map_some]
    have hmem := mem_take_clOrder hn c
    by_cases hin : c ∈ clOrder.take n
    · rw [if_pos hin, if_pos (hmem.mp hin), idxOf_take_clOrder hin]
    · rw [if_neg hin, if_neg (mt hmem.mpr hin)]
  · have hle : clSymbols ≤ c := Nat.le_of_not_lt hc
    have hright : (headerClLens f n).length = clSymbols := by
      rw [headerClLens, List.length_map, List.length_range]
    rw [List.getElem?_eq_none (hlen ▸ hle), List.getElem?_eq_none (hright ▸ hle)]

/-- What reading the first `n` code lengths onto the zeros can do (43_dynamic_header.md R92):
`headerClLens`, or the end of the input with the cursor left at the length that does not fit. -/
theorem readClLens_clOrder_cases {s : State} (h : s.toFront.ok) {n : Nat} (hn : n ≤ clSymbols) :
    (3 * n ≤ s.toFront.bitsRemaining ∧
      readClLens (clOrder.take n) (s.withClLens (List.replicate clSymbols 0)) =
        .done () ((s.withFront (s.toFront.advance (3 * n))).withClLens
          (headerClLens s.toFront n))) ∨
    (s.toFront.bitsRemaining < 3 * n ∧
      readClLens (clOrder.take n) (s.withClLens (List.replicate clSymbols 0)) =
        raiseError .unexpectedEof
          (s.withFront (s.toFront.advance (3 * (s.toFront.bitsRemaining / 3))))) := by
  have hlen : (clOrder.take n).length = n := List.length_take_of_le hn
  have hnd : (clOrder.take n).Nodup := (by decide : clOrder.Nodup).sublist (List.take_sublist n _)
  obtain ⟨hb, L, hLlen, hget, e⟩ | ⟨hb, k, rfl, -, e⟩ :=
    readClLens_cases (s := s.withClLens (List.replicate clSymbols 0)) h rfl hnd
  · rw [hlen] at hb e
    rw [List.length_replicate] at hLlen hget
    have hLeq : L = headerClLens s.toFront n := eq_headerClLens hn hLlen fun c hc => by
      rw [hget c hc, List.getElem?_replicate_of_lt hc, State.withClLens_toFront]
    exact .inl ⟨hb, hLeq ▸ e⟩
  · exact .inr ⟨hlen ▸ hb, e⟩

/-- Build inside an element, of lengths it has a table for (42_huffman.md R78). -/
theorem buildTable_some {L : List Nat} {T : HuffmanTable} (h : build L = some T) (s : State) :
    buildTable L s = .done T s := by
  rw [buildTable, h]

/-- Build inside an element, of an over-subscribed list (42_huffman.md R78). -/
theorem buildTable_none {L : List Nat} (h : build L = none) (s : State) :
    buildTable L s = raiseError .invalidCodeLengths s := by
  rw [buildTable, h]

/-- DYN_HEADER where IN ends inside one of the three counts, after `k` whole fields of 5 bits
(43_dynamic_header.md R90). -/
theorem execDynHeader_counts_eof {s : State} (h : s.toFront.ok)
    (hr : s.toFront.bitsRemaining < 14) {k : Nat} (hk : s.toFront.bitsRemaining / 5 = k) :
    execDynHeader s =
      .next ((s.withFront (s.toFront.advance (5 * k))).raise .unexpectedEof) := by
  obtain ⟨h14, -⟩ | ⟨-, _, rfl, -, e⟩ := readCounts_cases h
  · exact absurd hr (Nat.not_lt.mpr h14)
  · rw [execDynHeader, e, hk]
    rfl

section
variable {s : State} {a b c : Nat} (h : s.toFront.ok) (h14 : 14 ≤ s.toFront.bitsRemaining)
  (ha : a = 257 + s.toFront.peek 5) (hb : b = 1 + (s.toFront.advance 5).peek 5)
  (hc : c = 4 + (s.toFront.advance 10).peek 4)
include h h14 ha hb hc

/-- The three counts with their bits present (43_dynamic_header.md R90). -/
theorem readCounts_ok :
    readCounts s = .done c (((s.withFront (s.toFront.advance 14)).withCounts a b c).withClLens
      (List.replicate clSymbols 0)) := by
  obtain ⟨-, _, _, _, rfl, rfl, rfl, e⟩ | ⟨hlt, -⟩ := readCounts_cases h
  · rw [e, ha, hb, hc, State.traced, State.withCounts, State.withClLens]
    dsimp only
    split <;> rfl
  · exact absurd hlt (Nat.not_lt.mpr h14)

/-- What DYN_HEADER can do once the three counts are read (43_dynamic_header.md R92, R93): Build of
the placed code lengths, or the end of IN inside one of them. -/
theorem execDynHeader_cases :
    (14 + 3 * c ≤ s.toFront.bitsRemaining ∧
      execDynHeader s =
        ((buildTable (headerClLens (s.toFront.advance 14) c)
          (((s.withFront (s.toFront.advance (14 + 3 * c))).withCounts a b c).withClLens
            (headerClLens (s.toFront.advance 14) c))).andThen fun T s =>
          .done () { s with clTable := some T, lens := some [] }).outcome) ∨
    (s.toFront.bitsRemaining < 14 + 3 * c ∧
      execDynHeader s =
        .next (((s.withFront (s.toFront.advance
          (14 + 3 * ((s.toFront.bitsRemaining - 14) / 3)))).withCounts a b c).raise
            .unexpectedEof)) := by
  have hn : c ≤ clSymbols := by
    have := Front.peek_lt 4 (s.toFront.advance 10)
    unfold clSymbols
    omega
  have hlens := readClLens_clOrder_cases
    (s := (s.withFront (s.toFront.advance 14)).withCounts a b c) (h.advance h14) hn
  simp only [State.withCounts_toFront, State.withFront_toFront, Front.bitsRemaining_advance,
    Front.advance_advance] at hlens
  rw [execDynHeader, readCounts_ok h h14 ha hb hc, OpRes.andThen_done]
  obtain ⟨hle, e⟩ | ⟨hlt, e⟩ := hlens
  · exact .inl ⟨by omega, by rw [e]; rfl⟩
  · exact .inr ⟨by omega, by rw [e]; rfl⟩
end

/-- Settles O27: the counts, the code lengths and Build in turn, or the end of IN in the first field
that does not fit. -/
theorem dynHeaderReadsCountsAndClTable : Obligations.DynHeaderReadsCountsAndClTable := by
  rintro s u f a b c r L log rfl h ha hb hc rfl rfl rfl rfl
  refine ⟨fun hall => ?_, fun h5 => ?_, fun h5 h10 => ?_, fun h10 h14 => ?_, fun h14 hlt => ?_⟩
  · obtain ⟨-, e⟩ | ⟨hlt, -⟩ := execDynHeader_cases h (by omega) ha hb hc
    · exact ⟨fun T hT => e.trans (by rw [buildTable_some hT]; rfl),
        fun hN => e.trans (by rw [buildTable_none hN]; rfl)⟩
    · exact absurd hall (Nat.not_le.mpr hlt)
  · refine (execDynHeader_counts_eof h (by omega) (k := 0) (by omega)).trans ?_
    rw [Nat.mul_zero, Front.advance_zero h.curBit_lt, State.withFront_self]
  · exact execDynHeader_counts_eof h (by omega) (k := 1) (by omega)
  · exact execDynHeader_counts_eof h h14 (k := 2) (by omega)
  · obtain ⟨hall, -⟩ | ⟨-, e⟩ := execDynHeader_cases h h14 ha hb hc
    · exact absurd hall (Nat.not_le.mpr hlt)
    · exact e

end Sys2Proof.Machine

/-! ## The codes of a table (O7, O8)

A table that Build gives holds one entry for each symbol and for each code, so that `codeOf` and
`lookup` both read its entries; `mem_entries` says what those are. -/

namespace Sys2Proof.Machine

/-- `find?` gives an entry that is the only one it can stop at. -/
theorem HuffmanTable.find?_eq_some {T : HuffmanTable} {p : HuffEntry → Bool} {e : HuffEntry}
    (he : e ∈ T.entries) (hp : p e = true) (hu : ∀ e' ∈ T.entries, p e' = true → e' = e) :
    T.entries.find? p = some e := by
  cases hf : T.entries.find? p with
  | none => exact absurd hp (List.find?_eq_none.mp hf e he)
  | some e' => rw [hu e' (List.mem_of_find?_eq_some hf) (List.find?_some hf)]

section
variable {L : List Nat} {T : HuffmanTable} (h : build L = some T)
include h

theorem entry_len_le {e : HuffEntry} (he : e ∈ T.entries) : e.len ≤ 15 :=
  (build_eq_some h).1 _ (List.mem_of_getElem? ((mem_entries h e).mp he).1)

/-- A code of length `l` fits in `l` bits (42_huffman.md R81). -/
theorem entry_code_lt {e : HuffEntry} (he : e ∈ T.entries) : e.code < 2 ^ e.len :=
  Nat.lt_of_lt_of_le (code_range h he).2
    (nextCode_room (build_eq_some h).2.1 (entry_len_le h he))

theorem entry_eq_of_sym {e e' : HuffEntry} (he : e ∈ T.entries) (he' : e' ∈ T.entries)
    (hs : e.sym = e'.sym) : e = e' := by
  obtain ⟨hl, -, hc⟩ := (mem_entries h e).mp he
  obtain ⟨hl', -, hc'⟩ := (mem_entries h e').mp he'
  obtain ⟨l, c, s⟩ := e
  obtain ⟨l', c', s'⟩ := e'
  obtain rfl : s = s' := hs
  obtain rfl : l = l' := Option.some.inj (hl.symm.trans hl')
  rw [HuffEntry.mk.injEq]
  exact ⟨rfl, hc.trans hc'.symm, rfl⟩

/-- Among the symbols of one length the codes rise with the symbol (42_huffman.md R78). -/
theorem code_lt_of_sym_lt {e e' : HuffEntry} (he : e ∈ T.entries) (he' : e' ∈ T.entries)
    (hlen : e.len = e'.len) (hs : e.sym < e'.sym) : e.code < e'.code := by
  obtain ⟨hl, -, hc⟩ := (mem_entries h e).mp he
  obtain ⟨-, -, hc'⟩ := (mem_entries h e').mp he'
  have hnext : (L.take (e.sym + 1)).count e.len = (L.take e.sym).count e.len + 1 := by
    rw [List.take_add_one, hl, List.count_append]
    simp
  have hmono := (List.take_sublist_take_left (l := L) (Nat.succ_le_of_lt hs)).count_le e.len
  rw [Nat.succ_eq_add_one, hnext] at hmono
  rw [hc, hc', ← hlen]
  exact Nat.add_lt_add_left hmono _

theorem entry_eq_of_code {e e' : HuffEntry} (he : e ∈ T.entries) (he' : e' ∈ T.entries)
    (hlen : e.len = e'.len) (hcode : e.code = e'.code) : e = e' := by
  obtain hs | hs | hs := Nat.lt_trichotomy e.sym e'.sym
  · exact absurd hcode (Nat.ne_of_lt (code_lt_of_sym_lt h he he' hlen hs))
  · exact entry_eq_of_sym h he he' hs
  · exact absurd hcode (Nat.ne_of_gt (code_lt_of_sym_lt h he' he hlen.symm hs))

theorem lookup_eq_some_iff (l c s : Nat) : T.lookup l c = some s ↔ ⟨l, c, s⟩ ∈ T.entries := by
  constructor
  · intro hlk
    obtain ⟨e, he, rfl, rfl, rfl⟩ := HuffmanTable.lookup_mem hlk
    exact he
  · intro he
    rw [HuffmanTable.lookup, HuffmanTable.find?_eq_some he (by simp) fun e' he' hp => ?_]
    · rfl
    · simp only [Bool.and_eq_true, beq_iff_eq] at hp
      exact entry_eq_of_code h he' he hp.1 hp.2

theorem codeOf_eq_some_iff (s l c : Nat) : T.codeOf s = some (l, c) ↔ ⟨l, c, s⟩ ∈ T.entries := by
  constructor
  · intro hc
    obtain ⟨e, hf, heq⟩ := Option.map_eq_some_iff.mp hc
    obtain ⟨rfl, rfl⟩ := Prod.mk.inj heq
    obtain rfl : e.sym = s := by simpa using List.find?_some hf
    exact List.mem_of_find?_eq_some hf
  · intro he
    rw [HuffmanTable.codeOf, HuffmanTable.find?_eq_some he (by simp) fun e' he' hp =>
      entry_eq_of_sym h he' he (by simpa using hp)]
    rfl

theorem symbolBits_eq_some_iff (s : Nat) (bits : List Bool) :
    symbolBits T s = some bits ↔ ∃ e ∈ T.entries, e.sym = s ∧ codeBits e.len e.code = bits := by
  rw [symbolBits, Option.map_eq_some_iff]
  constructor
  · rintro ⟨⟨l, c⟩, hc, hbits⟩
    exact ⟨_, (codeOf_eq_some_iff h s l c).mp hc, rfl, hbits⟩
  · rintro ⟨e, he, rfl, hbits⟩
    exact ⟨(e.len, e.code), (codeOf_eq_some_iff h e.sym e.len e.code).mpr he, hbits⟩

end

/-- Settles O8: lookup reads the entries, which are the codes Build assigns. -/
theorem lookupIsTheAssignedCode : Obligations.LookupIsTheAssignedCode :=
  fun _ _ h l c s => (lookup_eq_some_iff h l c s).trans (mem_entries h ⟨l, c, s⟩)

/-- What one symbol of length `l` adds to the Kraft sum, in units of `2^-15` (42_huffman.md R79). -/
def kraftWeight (l : Nat) : Nat := if l = 0 then 0 else 2 ^ (15 - l)

theorem blCount_succ (L : List Nat) (n : Nat) : blCount L (n + 1) = L.count (n + 1) :=
  if_neg (Nat.succ_ne_zero n)

/-- One more symbol, of length `l`, moves the first free code after length `n` up by the numbers of
`n` bits that begin with a code of `l` bits. -/
theorem nextCode_cons (l : Nat) (L : List Nat) (n : Nat) :
    nextCode (l :: L) n + blCount (l :: L) n =
      nextCode L n + blCount L n + if l = 0 ∨ n < l then 0 else 2 ^ (n - l) := by
  induction n with
  | zero =>
    have hzero : l = 0 ∨ 0 < l := Nat.eq_zero_or_pos l
    rw [if_pos hzero]
    rfl
  | succ n ih =>
    rw [nextCode, ih, nextCode, Nat.shiftLeft_eq, Nat.shiftLeft_eq, blCount_succ, blCount_succ]
    obtain hl | rfl | hl := Nat.lt_trichotomy l (n + 1)
    · rw [List.count_cons_of_ne (Nat.ne_of_lt hl)]
      by_cases h0 : l = 0
      · rw [if_pos (.inl h0), if_pos (.inl h0)]
        rfl
      · rw [if_neg (by omega), if_neg (by omega), Nat.succ_sub (Nat.le_of_lt_succ hl), Nat.pow_succ]
        omega
    · rw [List.count_cons_self, if_pos (.inr (Nat.lt_succ_self n)), if_neg (by omega), Nat.sub_self]
      rfl
    · rw [List.count_cons_of_ne (Nat.ne_of_gt hl), if_pos (.inr (Nat.lt_of_succ_lt hl)),
        if_pos (.inr hl)]
      rfl

/-- The Kraft sum by lengths is the Kraft sum by symbols (42_huffman.md R78, R79). -/
theorem kraftSum_eq_sum_weights {L : List Nat} (h : ∀ l ∈ L, l ≤ 15) :
    kraftSum L = (L.map kraftWeight).sum := by
  induction L with
  | nil => rfl
  | cons l L ih =>
    obtain ⟨hl, hL⟩ := List.forall_mem_cons.mp h
    have hweight : (if l = 0 ∨ 15 < l then 0 else 2 ^ (15 - l)) = kraftWeight l := by
      rw [kraftWeight]
      by_cases h0 : l = 0
      · rw [if_pos (.inl h0), if_pos h0]
      · rw [if_neg (by omega), if_neg h0]
    rw [kraftSum_eq, nextCode_cons, ← kraftSum_eq, hweight, ih hL, List.map_cons, List.sum_cons,
      Nat.add_comm]

theorem build_none_of_length {L : List Nat} (h : ∃ l ∈ L, 15 < l) : build L = none :=
  if_pos (by
    obtain ⟨l, hl, hlt⟩ := h
    exact List.any_eq_true.mpr ⟨l, hl, decide_eq_true hlt⟩)

/-- Build of lengths that none exceeds 15: the Kraft sum decides (42_huffman.md R78). -/
theorem build_of_lengths {L : List Nat} (h : ∀ l ∈ L, l ≤ 15) :
    build L = if 2 ^ 15 < kraftSum L then none
      else some { entries := assignCodes L 0 ((List.range 16).map (nextCode L)) } :=
  if_neg (by
    rw [List.any_eq_true]
    rintro ⟨l, hl, hlt⟩
    exact absurd (h l hl) (Nat.not_le.mpr (of_decide_eq_true hlt)))

/-- Settles O7: Build's two tests, with the Kraft sum taken by symbols, and the entries it makes. -/
theorem buildIsCanonical : Obligations.BuildIsCanonical := by
  intro L
  refine ⟨build_none_of_length, fun hle hk => ?_, fun hle hk => ?_⟩
  · rw [build_of_lengths hle, if_pos (kraftSum_eq_sum_weights hle ▸ hk)]
  · have hb := build_of_lengths hle
    rw [if_neg (Nat.not_lt.mpr (kraftSum_eq_sum_weights hle ▸ hk))] at hb
    exact ⟨_, hb, fun s l c => (codeOf_eq_some_iff hb s l c).trans (mem_entries hb ⟨l, c, s⟩)⟩

end Sys2Proof.Machine

/-! ## Decode under a table (O10)

`codeBits` and `bitsToNat` of the reversed bits are inverse to each other, so an entry's bits begin
the unread bits exactly when its code is the number they spell; no code begins another. -/

namespace Sys2Proof.Machine

/-! ### A code as bits -/

@[simp] theorem length_codeBits (len code : Nat) : (codeBits len code).length = len := by
  simp [codeBits]

theorem codeBits_bitsToNat (bs : List Bool) : codeBits bs.length (bitsToNat bs.reverse) = bs := by
  apply List.ext_getElem (length_codeBits _ _)
  intro i h1 h2
  have hi : bs.length - 1 - (bs.length - 1 - i) = i := by omega
  have hlt : bs.length - 1 - i < bs.length := by omega
  simp [codeBits, testBit_bitsToNat, hlt, hi]

theorem bitsToNat_codeBits {len code : Nat} (hlt : code < 2 ^ len) :
    bitsToNat (codeBits len code).reverse = code := by
  apply Nat.eq_of_testBit_eq
  intro i
  rw [testBit_bitsToNat, List.getD_eq_getElem?_getD]
  by_cases hi : i < len
  · have hj : len - 1 - (len - 1 - i) = i := by omega
    simp [codeBits, hi, hj]
  · rw [List.getElem?_eq_none (by simpa using hi), Nat.testBit_lt_two_pow]
    · rfl
    · exact Nat.lt_of_lt_of_le hlt (Nat.pow_le_pow_right Nat.two_pos (Nat.le_of_not_lt hi))

theorem take_codeBits {l len : Nat} (hle : l ≤ len) (code : Nat) :
    (codeBits len code).take l = codeBits l (code >>> (len - l)) := by
  apply List.ext_getElem
    (by rw [List.length_take, length_codeBits, length_codeBits, Nat.min_eq_left hle])
  intro i h1 h2
  have hi : i < l := by simpa using h2
  have hadd : len - l + (l - 1 - i) = len - 1 - i := by omega
  simp [codeBits, hadd]

/-! ### No code begins another -/

section
variable {L : List Nat} {T : HuffmanTable} (h : build L = some T)
include h

/-- No code begins another symbol's (42_huffman.md R81): the codes of a greater length start past
every code of a smaller one. -/
theorem entries_prefixFree {e e' : HuffEntry} (he : e ∈ T.entries) (he' : e' ∈ T.entries)
    (hlen : e.len ≤ e'.len) (hpre : e'.code >>> (e'.len - e.len) = e.code) : e = e' := by
  obtain heq | hlt := Nat.eq_or_lt_of_le hlen
  · refine entry_eq_of_code h he he' heq ?_
    rw [← hpre, heq, Nat.sub_self, Nat.shiftRight_zero]
  · have hscale := nextCode_scale L e.len (e'.len - e.len - 1)
    rw [show e.len + (e'.len - e.len - 1) + 1 = e'.len by omega,
      show e'.len - e.len - 1 + 1 = e'.len - e.len by omega] at hscale
    have hge : nextCode L e.len + blCount L e.len ≤ e'.code >>> (e'.len - e.len) := by
      rw [Nat.shiftRight_eq_div_pow, Nat.le_div_iff_mul_le (Nat.two_pow_pos _)]
      exact Nat.le_trans hscale (code_range h he').1
    exact absurd (hpre ▸ hge) (Nat.not_le.mpr (code_range h he).2)

/-- `entries_prefixFree` over the codes as bits in stream order. -/
theorem entry_eq_of_codeBits_prefix {e e' : HuffEntry} (he : e ∈ T.entries) (he' : e' ∈ T.entries)
    (hpre : codeBits e.len e.code <+: codeBits e'.len e'.code) : e = e' := by
  have hle : e.len ≤ e'.len := by simpa using hpre.length_le
  have hbits := List.prefix_iff_eq_take.mp hpre
  rw [length_codeBits, take_codeBits hle] at hbits
  have hlt : e'.code >>> (e'.len - e.len) < 2 ^ e.len := by
    rw [Nat.shiftRight_eq_div_pow, Nat.div_lt_iff_lt_mul (Nat.two_pow_pos _), ← Nat.pow_add,
      Nat.add_sub_cancel' hle]
    exact entry_code_lt h he'
  refine entries_prefixFree h he he' hle ?_
  rw [← bitsToNat_codeBits hlt, ← hbits, bitsToNat_codeBits (entry_code_lt h he)]

end

/-! ### The loop of Decode -/

/-- The running code of Decode after more bits (42_huffman.md R83). -/
def runningCode (c : Nat) (bits : List Bool) : Nat :=
  bits.foldl (fun c b => (c <<< 1) ||| b.toNat) c

theorem bitsToNat_eq_foldr (bits : List Bool) :
    bitsToNat bits = bits.foldr (fun b c => (c <<< 1) ||| b.toNat) 0 := by
  induction bits with
  | nil => rfl
  | cons b bits ih => rw [bitsToNat, bool_add_two_mul, ih, Nat.or_comm, List.foldr_cons]

theorem runningCode_zero (bits : List Bool) : runningCode 0 bits = bitsToNat bits.reverse := by
  rw [bitsToNat_eq_foldr, runningCode, List.foldl_eq_foldr_reverse]

/-- The front end in the middle of a Decode, its accumulator at the code `c` of `l` bits
(10_state.md R28). -/
def Front.withAcc (c l : Nat) (f : Front) : Front := { f with accCode := some c, accLen := some l }

/-- One bit of the loop of Decode (42_huffman.md R83). -/
theorem Front.decodeLoop_succ {T : HuffmanTable} {f : Front} (h : f.ok) (h1 : 1 ≤ f.bitsRemaining)
    (n c l : Nat) :
    Front.decodeLoop T (n + 1) (f.withAcc c l) =
      match T.lookup (l + 1) ((c <<< 1) ||| (f.streamBit f.pos).toNat) with
      | some s => .ok s (f.advance 1).clearAcc
      | none => Front.decodeLoop T n
          ((f.advance 1).withAcc ((c <<< 1) ||| (f.streamBit f.pos).toNat) (l + 1)) := by
  rw [Front.decodeLoop, Front.readBit_spec (f := f.withAcc c l) h h1]
  rfl

/-- The loop of Decode does not pass over a code that the unread bits hold: it gives that symbol, or
one it comes to before. -/
theorem Front.decodeLoop_ok {T : HuffmanTable} {bits : List Bool} (hne : bits ≠ []) {f : Front}
    (h : f.ok) (hpre : bits <+: f.unread) {c l n : Nat} (hn : bits.length ≤ n)
    (hlk : T.lookup (l + bits.length) (runningCode c bits) ≠ none) :
    ∃ s g, Front.decodeLoop T n (f.withAcc c l) = .ok s g := by
  induction bits generalizing f c l n with
  | nil => exact absurd rfl hne
  | cons b bits ih =>
    obtain ⟨n, rfl⟩ := Nat.exists_eq_succ_of_ne_zero (Nat.ne_zero_of_lt hn)
    have h1 : 1 ≤ f.bitsRemaining := by
      rw [← Front.length_unread]
      exact Nat.le_trans (Nat.succ_le_succ (Nat.zero_le _)) hpre.length_le
    rw [Front.unread_eq_cons h1, List.cons_prefix_cons] at hpre
    obtain ⟨rfl, hpre⟩ := hpre
    rw [Front.decodeLoop_succ h h1]
    split
    · exact ⟨_, _, rfl⟩
    · rename_i hnone
      refine ih ?_ (h.advance h1) hpre (Nat.le_of_succ_le_succ hn) ?_
      · rintro rfl
        exact hlk hnone
      · rwa [Nat.add_assoc, Nat.add_comm 1]

/-! ### Decode -/

/-- The number that the next `n` bits spell, first bit highest, has them as its code bits. -/
theorem Front.codeBits_prefix_unread {f : Front} {n code : Nat} (hle : n ≤ f.bitsRemaining)
    (hcode : code = bitsToNat (f.unread.take n).reverse) : codeBits n code <+: f.unread := by
  have hbits := codeBits_bitsToNat (f.unread.take n)
  rw [← hcode, List.length_take_of_le (by rwa [Front.length_unread])] at hbits
  exact hbits ▸ List.take_prefix _ _

/-- Decode(T) where the unread bits begin with a code (42_huffman.md R83): it gives a symbol, and no
other code begins them. -/
theorem Front.decode_of_prefix {L : List Nat} {T : HuffmanTable} (hb : build L = some T)
    {f : Front} (h : f.ok) {e : HuffEntry} (he : e ∈ T.entries)
    (hpre : codeBits e.len e.code <+: f.unread) :
    f.decode T = .ok e.sym (f.advance e.len).clearAcc := by
  have hlk : T.lookup e.len e.code = some e.sym := (lookup_eq_some_iff hb _ _ _).mpr he
  have hok : ∃ s g, f.decode T = .ok s g := by
    refine Front.decodeLoop_ok (bits := codeBits e.len e.code) ?_ h hpre ?_ ?_
    · rw [← List.length_pos_iff, length_codeBits]
      exact Nat.pos_of_ne_zero ((mem_entries hb e).mp he).2.1
    · rw [length_codeBits]
      exact entry_len_le hb he
    · rw [length_codeBits, Nat.zero_add, runningCode_zero, bitsToNat_codeBits (entry_code_lt hb he),
        hlk]
      nofun
  obtain ⟨s, g, hd⟩ := hok
  obtain ⟨e', he', -, -, hle, hcode, hd'⟩ | ⟨-, hd'⟩ | ⟨-, _, hd', -⟩ := Front.decode_cases T h
  · have hpre' := Front.codeBits_prefix_unread hle hcode
    obtain rfl : e = e' :=
      (List.prefix_or_prefix_of_prefix hpre hpre').elim
        (entry_eq_of_codeBits_prefix hb he he')
        fun hp => (entry_eq_of_codeBits_prefix hb he' he hp).symm
    exact hd'
  · cases hd.symm.trans hd'
  · cases hd.symm.trans hd'

/-- Decode(T) where the unread bits begin with no code (42_huffman.md R83, R84). -/
theorem Front.decode_of_no_prefix {T : HuffmanTable} {f : Front} (h : f.ok)
    (hno : ∀ e ∈ T.entries, ¬ codeBits e.len e.code <+: f.unread) :
    (15 ≤ f.bitsRemaining ∧
      f.decode T = .raised .invalidHuffmanCode (f.advance 15).clearAcc) ∨
    (f.bitsRemaining < 15 ∧ ∃ g, f.decode T = .raised .unexpectedEof g ∧
      g.clearAcc = (f.advance f.bitsRemaining).clearAcc) := by
  obtain ⟨e, he, -, -, hle, hcode, -⟩ | hraised := Front.decode_cases T h
  · exact absurd (Front.codeBits_prefix_unread hle hcode) (hno e he)
  · exact hraised

/-- The cursor past all unread bits is (IN_LEN, 0) (10_state.md R21, R22). -/
theorem Front.cursor_at_end {f g : Front} (h : f.ok)
    (hg : g.clearAcc = (f.advance f.bitsRemaining).clearAcc) :
    g.input = f.input ∧ g.curByte = f.input.size ∧ g.curBit = 0 := by
  have hend : f.pos + f.bitsRemaining = 8 * f.input.size := by
    rw [f.bitsRemaining_eq, Nat.add_sub_cancel' h.pos_le]
  obtain ⟨hin, hbyte, hbit, -, -⟩ := Front.mk.inj hg
  refine ⟨hin, hbyte.trans ?_, hbit.trans ?_⟩ <;> simp only [Front.advance] <;> omega

/-- Settles O10: a code that begins the unread bits is found, and is the one found; with none, the
number of bits left says which error. -/
theorem decodeReadsOneCode : Obligations.DecodeReadsOneCode := by
  intro L T f hb h
  have hno (hall : ∀ s bits, symbolBits T s = some bits → ¬ bits <+: f.unread) :=
    Front.decode_of_no_prefix h fun e he =>
      hall e.sym _ ((symbolBits_eq_some_iff hb _ _).mpr ⟨e, he, rfl, rfl⟩)
  refine ⟨fun s bits hs hpre => ?_, fun hall h15 => ?_, fun hall h15 => ?_⟩
  · obtain ⟨e, he, rfl, rfl⟩ := (symbolBits_eq_some_iff hb s bits).mp hs
    rw [length_codeBits]
    exact Front.decode_of_prefix hb h he hpre
  · obtain ⟨-, hd⟩ | ⟨hlt, -⟩ := hno hall
    · exact hd
    · exact absurd h15 (Nat.not_le.mpr hlt)
  · obtain ⟨hle, -⟩ | ⟨-, g, hd, hg⟩ := hno hall
    · exact absurd h15 (Nat.not_lt.mpr hle)
    · exact ⟨g, hd, Front.cursor_at_end h hg⟩

end Sys2Proof.Machine

/-! ## The fixed tables (O11, O12)

A complete table, whose Kraft sum is one, has a code at the start of every 15 bits. A run of symbols
of one length gets a run of consecutive codes, which is how the fixed tables are written. -/

namespace Sys2Proof.Machine

/-! ### A complete table -/

/-- The symbols of length `l` are counted off one by one. -/
theorem exists_symbol_of_count {L : List Nat} {l k : Nat} (hk : k < L.count l) :
    ∃ s, L[s]? = some l ∧ (L.take s).count l = k := by
  induction L generalizing k with
  | nil => exact absurd hk (Nat.not_lt_zero k)
  | cons x xs ih =>
    by_cases hx : x = l
    · subst hx
      rw [List.count_cons_self] at hk
      cases k with
      | zero => exact ⟨0, rfl, rfl⟩
      | succ k =>
        obtain ⟨s, hs, hc⟩ := ih (Nat.lt_of_succ_lt_succ hk)
        exact ⟨s + 1, hs, by rw [List.take_succ_cons, List.count_cons_self, hc]⟩
    · rw [List.count_cons_of_ne hx] at hk
      obtain ⟨s, hs, hc⟩ := ih hk
      exact ⟨s + 1, hs, by rw [List.take_succ_cons, List.count_cons_of_ne hx, hc]⟩

section
variable {L : List Nat} {T : HuffmanTable} (h : build L = some T)
include h

/-- The converse of `code_range`: each number of the range is a code. -/
theorem exists_entry_of_code {l c : Nat} (hge : nextCode L l ≤ c)
    (hlt : c < nextCode L l + blCount L l) : ∃ e ∈ T.entries, e.len = l ∧ e.code = c := by
  have hl : l ≠ 0 := by
    rintro rfl
    exact absurd hlt (Nat.not_lt.mpr hge)
  rw [blCount, if_neg hl] at hlt
  obtain ⟨s, hs, hc⟩ := exists_symbol_of_count (Nat.sub_lt_left_of_lt_add hge hlt)
  refine ⟨⟨l, c, s⟩, (mem_entries h _).mpr ⟨hs, hl, ?_⟩, rfl, rfl⟩
  rw [hc, Nat.add_sub_cancel' hge]

/-- A number of `l` bits below the first free code after length `l` begins with a code: it is one of
length `l`, or without its last bit it is below the first free code after length `l - 1`. -/
theorem exists_entry_of_lt {l x : Nat} (hx : x < nextCode L l + blCount L l) :
    ∃ e ∈ T.entries, e.len ≤ l ∧ x >>> (l - e.len) = e.code := by
  induction l generalizing x with
  | zero => exact absurd hx (Nat.not_lt_zero x)
  | succ l ih =>
    by_cases hge : nextCode L (l + 1) ≤ x
    · obtain ⟨e, he, hlen, rfl⟩ := exists_entry_of_code h hge hx
      exact ⟨e, he, Nat.le_of_eq hlen, by rw [hlen, Nat.sub_self, Nat.shiftRight_zero]⟩
    · have hshift : x >>> 1 < nextCode L l + blCount L l := by
        rw [nextCode, Nat.shiftLeft_eq] at hge
        rw [Nat.shiftRight_eq_div_pow]
        omega
      obtain ⟨e, he, hle, hcode⟩ := ih hshift
      refine ⟨e, he, Nat.le_succ_of_le hle, ?_⟩
      rw [← hcode, ← Nat.shiftRight_add, Nat.succ_sub hle, Nat.add_comm 1]

/-- Decode under a complete table never raises InvalidHuffmanCode (42_huffman.md R85). -/
theorem Front.decode_ne_invalid (hk : kraftSum L = 2 ^ 15) {f : Front} (hf : f.ok) (g : Front) :
    f.decode T ≠ .raised .invalidHuffmanCode g := by
  intro hd
  obtain ⟨_, _, -, -, -, -, hd'⟩ | ⟨h15, -⟩ | ⟨-, _, hd', -⟩ := Front.decode_cases T hf
  · cases hd.symm.trans hd'
  · have hlt := bitsToNat_lt (f.unread.take 15).reverse
    rw [List.length_reverse, List.length_take_of_le (by rwa [Front.length_unread]), ← hk,
      kraftSum_eq] at hlt
    obtain ⟨e, he, hle, hcode⟩ := exists_entry_of_lt h hlt
    have hpre : codeBits e.len e.code <+: f.unread := by
      rw [← hcode, ← take_codeBits hle]
      exact (List.take_prefix _ _).trans (Front.codeBits_prefix_unread h15 rfl)
    cases hd.symm.trans (Front.decode_of_prefix h hf he hpre)
  · cases hd.symm.trans hd'

end

/-! ### Build of a run -/

/-- Symbols in a row with one length get consecutive codes (42_huffman.md R78, step 3). -/
theorem assignCodes_replicate_append {l : Nat} (hl : l ≠ 0) (n : Nat) (ls : List Nat) (sym : Nat)
    {next : List Nat} (hlt : l < next.length) :
    assignCodes (List.replicate n l ++ ls) sym next =
      codeRun n l (next.getD l 0) sym ++
        assignCodes ls (sym + n) (next.set l (next.getD l 0 + n)) := by
  induction n generalizing sym next with
  | zero => simp [codeRun, hlt]
  | succ n ih =>
    rw [List.replicate_succ, List.cons_append, assignCodes, if_neg hl, ih _ (by simpa using hlt),
      codeRun, List.cons_append]
    simp [List.getD_eq_getElem?_getD, hlt, Nat.add_assoc, Nat.add_comm 1]

theorem assignCodes_replicate {l : Nat} (hl : l ≠ 0) (n sym : Nat) {next : List Nat}
    (hlt : l < next.length) :
    assignCodes (List.replicate n l) sym next = codeRun n l (next.getD l 0) sym := by
  have happ := assignCodes_replicate_append hl n [] sym hlt
  rwa [List.append_nil, assignCodes, List.append_nil] at happ

/-! ### The fixed literal/length table

`List.reduceReplicate` would write the runs out symbol by symbol, so `simp` goes without it. -/

theorem fixedLitLengths_eq : fixedLitLengths =
    List.replicate 144 8 ++ (List.replicate 112 9 ++ (List.replicate 24 7 ++
      List.replicate 8 8)) := rfl

theorem fixedLitLengths_le : ∀ l ∈ fixedLitLengths, l ≤ 15 := by
  simp [fixedLitLengths_eq, -List.reduceReplicate]

theorem kraftSum_fixedLitLengths : kraftSum fixedLitLengths = 2 ^ 15 := by
  rw [kraftSum_eq_sum_weights fixedLitLengths_le, fixedLitLengths_eq]
  simp [kraftWeight, -List.reduceReplicate]

theorem nextCode_fixedLitLengths : (List.range 16).map (nextCode fixedLitLengths) =
    [0, 0, 0, 0, 0, 0, 0, 0, 48, 400, 1024, 2048, 4096, 8192, 16384, 32768] := by
  simp [List.range_succ, nextCode, blCount, fixedLitLengths_eq, List.count_replicate,
    -List.reduceReplicate]

/-- FIXED_LIT is what Build makes of the fixed lengths: each of the four runs of lengths is a run of
codes (42_huffman.md R85, R87). -/
theorem build_fixedLitLengths : build fixedLitLengths = some fixedLit := by
  rw [build_of_lengths fixedLitLengths_le,
    if_neg (Nat.not_lt.mpr (Nat.le_of_eq kraftSum_fixedLitLengths)),
    nextCode_fixedLitLengths, fixedLitLengths_eq]
  simp [assignCodes_replicate_append, assignCodes_replicate, fixedLit, -List.reduceReplicate]

/-- The length of each symbol, by the four ranges (42_huffman.md R85). -/
theorem getElem?_fixedLitLengths {s : Nat} (hs : s < 288) : fixedLitLengths[s]? =
    some (if s ≤ 143 then 8 else if s ≤ 255 then 9 else if s ≤ 279 then 7 else 8) := by
  simp only [fixedLitLengths_eq, List.getElem?_append, List.getElem?_replicate,
    List.length_replicate]
  grind

/-- Settles O11: the four runs of lengths, and Decode under a complete table. -/
theorem fixedLiteralLengthTable : Obligations.FixedLiteralLengthTable :=
  ⟨by simp [fixedLitLengths_eq, -List.reduceReplicate], fun _ => getElem?_fixedLitLengths,
    build_fixedLitLengths, kraftSum_fixedLitLengths,
    fun _ g h => Front.decode_ne_invalid build_fixedLitLengths kraftSum_fixedLitLengths h g⟩

/-! ### The fixed distance table -/

theorem fixedDistLengths_eq : fixedDistLengths = List.replicate 32 5 := rfl

theorem fixedDistLengths_le : ∀ l ∈ fixedDistLengths, l ≤ 15 := by
  simp [fixedDistLengths_eq, -List.reduceReplicate]

theorem kraftSum_fixedDistLengths : kraftSum fixedDistLengths = 2 ^ 15 := by
  rw [kraftSum_eq_sum_weights fixedDistLengths_le, fixedDistLengths_eq]
  simp [kraftWeight, -List.reduceReplicate]

theorem nextCode_fixedDistLengths : nextCode fixedDistLengths 5 = 0 := by
  simp [nextCode, blCount, fixedDistLengths_eq, List.count_replicate, -List.reduceReplicate]

/-- FIXED_DIST is what Build makes of the fixed lengths, one run (42_huffman.md R86, R87). -/
theorem build_fixedDistLengths : build fixedDistLengths = some fixedDist := by
  rw [build_of_lengths fixedDistLengths_le,
    if_neg (Nat.not_lt.mpr (Nat.le_of_eq kraftSum_fixedDistLengths))]
  refine congrArg (fun entries => some (HuffmanTable.mk entries)) ?_
  rw [fixedDistLengths_eq, assignCodes_replicate (Nat.succ_ne_zero 4) 32 0 (by simp),
    ← fixedDistLengths_eq, nextCode_getD _ (by omega), nextCode_fixedDistLengths]

/-- Symbol `d` of the fixed distance table has the code `d` of 5 bits (42_huffman.md R86): `d` lower
symbols have its length. -/
theorem codeOf_fixedDist {d : Nat} (hd : d < 32) : fixedDist.codeOf d = some (5, d) := by
  have hcount : (fixedDistLengths.take d).count 5 = d := by
    rw [fixedDistLengths_eq, List.take_replicate, List.count_replicate_self,
      Nat.min_eq_left (Nat.le_of_lt hd)]
  rw [codeOf_eq_some_iff build_fixedDistLengths, mem_entries build_fixedDistLengths]
  refine ⟨List.getElem?_replicate_of_lt hd, Nat.succ_ne_zero 4, ?_⟩
  rw [nextCode_fixedDistLengths, hcount, Nat.zero_add]

/-- Settles O12: one run of lengths; the reserved symbols are read off `distInstr`. -/
theorem fixedDistanceTable : Obligations.FixedDistanceTable :=
  ⟨fixedDistLengths_eq, build_fixedDistLengths, kraftSum_fixedDistLengths,
    fun _ => codeOf_fixedDist, rfl, rfl⟩

end Sys2Proof.Machine

/-! ## The code-length symbols (O28, O29, O30)

CL_REP16, CL_ZERO17 and CL_ZERO18 differ in their extra bits and in the length they repeat: each is
`repeatLength`, once CL_REP16 has found its previous length. -/

namespace Sys2Proof.Machine

/-- The part shared by the repeating code-length symbols (43_dynamic_header.md R96 to R98): the repeat
count is read, and a run of that many `v` is appended to LENS. -/
def repeatLength (base extra v : Nat) (s : State) : OpRes Unit :=
  (readOffset base extra s).andThen fun r s => appendRun r v s

theorem exec_clLen (n : Nat) (s : State) : exec (.clLen n) s = execClLen n s := rfl

theorem exec_clRep16 (s : State) : exec .clRep16 s = execClRep16 s := rfl

/-- CL_LEN is an append to LENS (43_dynamic_header.md R95). -/
theorem exec_clLen_of_lens {s : State} {L : List Nat} (hL : s.lens = some L) (n : Nat) :
    exec (.clLen n) s = .next { s with lens := some (L ++ [n]) } := by
  rw [exec_clLen, execClLen, needReg_eq hL]
  rfl

/-- CL_REP16 with LENS empty (43_dynamic_header.md R96): no extra bit is read. -/
theorem exec_clRep16_of_empty {s : State} (hL : s.lens = some []) :
    exec .clRep16 s = .next (s.raise .invalidDynamicHeader) := by
  rw [exec_clRep16, execClRep16, needReg_eq hL]
  rfl

/-- CL_REP16 repeats the last length of LENS, 3 + x times with x of two bits (43_dynamic_header.md
R96). -/
theorem exec_clRep16_of_last {s : State} {L : List Nat} (hL : s.lens = some L) {v : Nat}
    (hv : L.getLast? = some v) : exec .clRep16 s = (repeatLength 3 2 v s).outcome := by
  rw [exec_clRep16, execClRep16, needReg_eq hL, OpRes.andThen_done, hv]
  rfl

theorem exec_clZero17 (s : State) : exec .clZero17 s = (repeatLength 3 3 0 s).outcome := rfl

theorem exec_clZero18 (s : State) : exec .clZero18 s = (repeatLength 11 7 0 s).outcome := rfl

theorem repeatLength_eof {s : State} (base v : Nat) {extra : Nat} (h16 : extra ≤ 16)
    (hlt : s.toFront.bitsRemaining < extra) :
    repeatLength base extra v s = raiseError .unexpectedEof s := by
  rw [repeatLength, readOffset_eof base h16 hlt]
  rfl

section
variable {s : State} {L : List Nat} {a b extra : Nat} (h : s.toFront.ok) (hL : s.lens = some L)
  (ha : s.hlit = some a) (hb : s.hdist = some b) (h16 : extra ≤ 16)
include h hL ha hb h16

/-- What a repeating symbol can do with its extra bits present (43_dynamic_header.md R96 to R99):
append the whole run, or append nothing and raise. -/
theorem repeatLength_cases (base v : Nat) (hle : extra ≤ s.toFront.bitsRemaining) :
    (L.length + (base + s.toFront.peek extra) ≤ a + b ∧
      repeatLength base extra v s =
        .done () { s.withFront (s.toFront.advance extra) with
          lens := some (L ++ List.replicate (base + s.toFront.peek extra) v) }) ∨
    (a + b < L.length + (base + s.toFront.peek extra) ∧
      repeatLength base extra v s =
        raiseError .invalidDynamicHeader (s.withFront (s.toFront.advance extra))) := by
  rw [repeatLength, readOffset_ok h base h16 hle, OpRes.andThen_done]
  exact appendRun_cases (s := s.withFront (s.toFront.advance extra)) ha hb hL _ v

/-- The three endings of a repeating symbol (43_dynamic_header.md R96 to R99). -/
theorem repeatLength_outcome (base v : Nat) :
    (s.toFront.bitsRemaining < extra →
      (repeatLength base extra v s).outcome = .next (s.raise .unexpectedEof)) ∧
    (extra ≤ s.toFront.bitsRemaining → a + b < L.length + (base + s.toFront.peek extra) →
      (repeatLength base extra v s).outcome =
        .next ((s.withFront (s.toFront.advance extra)).raise .invalidDynamicHeader)) ∧
    (extra ≤ s.toFront.bitsRemaining → L.length + (base + s.toFront.peek extra) ≤ a + b →
      (repeatLength base extra v s).outcome =
        .next { s.withFront (s.toFront.advance extra) with
          lens := some (L ++ List.replicate (base + s.toFront.peek extra) v) }) := by
  refine ⟨fun hlt => ?_, fun hle hover => ?_, fun hle hfit => ?_⟩
  · rw [repeatLength_eof base v h16 hlt]
    rfl
  · obtain ⟨hfit, -⟩ | ⟨-, e⟩ := repeatLength_cases h hL ha hb h16 base v hle
    · exact absurd hover (Nat.not_lt.mpr hfit)
    · rw [e]
      rfl
  · obtain ⟨-, e⟩ | ⟨hover, -⟩ := repeatLength_cases h hL ha hb h16 base v hle
    · rw [e]
      rfl
    · exact absurd hover (Nat.not_lt.mpr hfit)
end

/-- Settles O28: CL_LEN reads LENS and appends. -/
theorem clLenAppendsItsLength : Obligations.ClLenAppendsItsLength :=
  fun _ _ n hL => exec_clLen_of_lens hL n

/-- Settles O29: the empty LENS, and the three endings of the run of its last length. -/
theorem clRep16RepeatsThePreviousLength : Obligations.ClRep16RepeatsThePreviousLength := by
  intro s L a b h hL ha hb
  refine ⟨?_, fun v hv => ?_⟩
  · rintro rfl
    exact exec_clRep16_of_empty hL
  · rw [exec_clRep16_of_last hL hv]
    exact repeatLength_outcome h hL ha hb (by decide) 3 v

/-- Settles O30: both symbols are runs of the length 0. -/
theorem clZeroRunsAppendZeros : Obligations.ClZeroRunsAppendZeros := by
  intro s L a b h hL ha hb i base extra hi
  obtain ⟨rfl, rfl, rfl⟩ | ⟨rfl, rfl, rfl⟩ :
      (i = .clZero17 ∧ base = 3 ∧ extra = 3) ∨ (i = .clZero18 ∧ base = 11 ∧ extra = 7) := by
    simpa using hi
  · rw [exec_clZero17]
    exact repeatLength_outcome h hL ha hb (by decide) 3 0
  · rw [exec_clZero18]
    exact repeatLength_outcome h hL ha hb (by decide) 11 0

end Sys2Proof.Machine

/-! ## The block headers and the fixed tables (O22, O23, O26)

The three headers that have a body are one `startBody`, whose next state is `State.withHeader` with
the PHASE of the body; PHASE then selects the next element. The reserved header is fetched like them
and raises. -/

namespace Sys2Proof.Machine

/-- The state with the header of a block written and traced (44_block_decoder.md R102,
60_exceptions.md R204). -/
def State.withHeader (bfinal btype : Nat) (s : State) : State :=
  { s with
    bfinal := some bfinal, btype := some btype
    traceLog :=
      if s.cfg.trace then s.traceLog ++ [.hdr s.blockIndex bfinal btype] else s.traceLog }

theorem State.setHeader_eq_withHeader (bfinal btype : Nat) (s : State) :
    s.setHeader bfinal btype = s.withHeader bfinal btype := by
  unfold State.setHeader State.withHeader State.traced
  split <;> rfl

theorem startBody_eq (bfinal btype : Nat) (body : Phase) (s : State) :
    startBody bfinal btype body s = .next { s.withHeader bfinal btype with phase := body } := by
  rw [startBody, State.setHeader_eq_withHeader]

theorem exec_blockStored (bfinal : Nat) (s : State) :
    exec (.blockStored bfinal) s = startBody bfinal 0 .stored s := rfl

theorem exec_blockFixed (bfinal : Nat) (s : State) :
    exec (.blockFixed bfinal) s = startBody bfinal 1 .fixed s := rfl

theorem exec_blockDynamic (bfinal : Nat) (s : State) :
    exec (.blockDynamic bfinal) s = startBody bfinal 2 .dynamic s := rfl

theorem exec_blockReserved (bfinal : Nat) (s : State) :
    exec (.blockReserved bfinal) s = .next ((s.setHeader bfinal 3).raise .reservedBlockType) := rfl

/-! ### The action each PHASE of a block selects (45_decoder_top.md R180) -/

section
variable {s : State} (hb : s.status = .busy)
include hb

theorem State.action_of_readHeader (hp : s.phase = .readHeader) : s.action = .element .header := by
  simp [State.action, hb, hp]

theorem State.action_of_stored (hp : s.phase = .stored) : s.action = .element .storedBody := by
  simp [State.action, hb, hp]

theorem State.action_of_fixed (hp : s.phase = .fixed) : s.action = .element .fixedTables := by
  simp [State.action, hb, hp]

/-- While CL_TABLE is ⊥, the dynamic header comes first (43_dynamic_header.md R89). -/
theorem State.action_of_dynamic (hp : s.phase = .dynamic) (hcl : s.clTable = none) :
    s.action = .element .dynHeader := by
  simp [State.action, hb, hp, State.dynamicAction, hcl]

end

/-- Settles O22: each header is `startBody`, and the PHASE it leaves selects the body. -/
theorem blockHeaderSelectsTheBody : Obligations.BlockHeaderSelectsTheBody := by
  intro f s
  have hstored := (exec_blockStored f s).trans (startBody_eq f 0 .stored s)
  have hfixed := (exec_blockFixed f s).trans (startBody_eq f 1 .fixed s)
  have hdynamic := (exec_blockDynamic f s).trans (startBody_eq f 2 .dynamic s)
  refine ⟨hstored, hfixed, hdynamic, fun hb hcl => ⟨fun _ ht => ?_, fun _ ht => ?_, fun _ ht => ?_⟩⟩
  · cases hstored.symm.trans ht
    exact State.action_of_stored hb rfl
  · cases hfixed.symm.trans ht
    exact State.action_of_fixed hb rfl
  · cases hdynamic.symm.trans ht
    exact State.action_of_dynamic hb rfl hcl

/-- Settles O26: the next state is the one FIXED_TABLES is defined by, which reads no operand and
has no way to fail. -/
theorem fixedTablesAreInstalled : Obligations.FixedTablesAreInstalled := fun _ => rfl

/-! ### The reserved block type -/

/-- A header whose three bits are all there is read as BFINAL and then BTYPE (44_block_decoder.md
R102). -/
theorem decodeRow_header_ok {f : Front} (h : f.ok) (h3 : 3 ≤ f.bitsRemaining) :
    decodeRow .header f =
      .ok (.header (f.peek 1 + ((f.advance 1).peek 2 <<< 1))) (f.advance 3) := by
  have h1 : 1 ≤ f.bitsRemaining := by omega
  have h2 : 2 ≤ (f.advance 1).bitsRemaining := by rw [Front.bitsRemaining_advance]; omega
  rw [decodeRow, Front.readBits_peek h (by decide) h1, Read.andThen,
    Front.readBits_peek (h.advance h1) (by decide) h2, Read.andThen, Front.advance_advance]

theorem headerInstr_reserved {bfinal : Nat} (h : bfinal < 2) :
    headerInstr (bfinal + (3 <<< 1)) = some (.blockReserved bfinal) := by
  have : ∀ b, b < 2 → headerInstr (b + (3 <<< 1)) = some (.blockReserved b) := by decide
  exact this bfinal h

/-- The fetch of a header whose BTYPE is 3 (44_block_decoder.md R106). -/
theorem fetch_header_reserved {s : State} (h : s.toFront.ok) (h3 : 3 ≤ s.toFront.bitsRemaining)
    (hty : (s.toFront.advance 1).peek 2 = 3) :
    fetch .header s =
      .done (.blockReserved (s.toFront.peek 1)) (s.withFront (s.toFront.advance 3)) := by
  have hrow := decodeRow_header_ok h h3
  have hi := headerInstr_reserved (s.toFront.peek_lt 1)
  rw [hty] at hrow
  simp only [fetch, decodeAt, hrow, Read.andThen, OpcodeRow.instr, hi, liftRead]

/-- Settles O23: the step fetches the reserved header, three bits on, and runs it; the error's
record is then read off `State.raise`. -/
theorem reservedBlockTypeStopsAfterThreeBits : Obligations.ReservedBlockTypeStopsAfterThreeBits := by
  refine ⟨exec_blockReserved, fun s h hb hp h3 hty => ?_⟩
  have hstep := step_element (State.action_of_readHeader hb hp) (fetch_header_reserved h h3 hty)
  rw [exec_blockReserved, State.setHeader_eq_withHeader] at hstep
  exact ⟨_, hstep, rfl, rfl, rfl, rfl, rfl, rfl, rfl, rfl⟩

end Sys2Proof.Machine

/-! ## The literal and the end of a block (O32, O33) -/

namespace Sys2Proof.Machine

/-- One more byte at |out| changes no read at another address, before or after it (20_memory.md R38,
R50). -/
theorem Memory.read_append_ne {m : Memory} (h : m.wf = true) (v : Byte) {a : Nat}
    (ha : a ≠ m.size) : (m.append v).read a = m.read a := by
  obtain hlt | hgt := Nat.lt_or_gt_of_ne ha
  · exact Memory.read_append_lt h v hlt
  · have hnew : (m.append v).read a = none := by
      rw [Memory.read_eq_none_iff (Memory.wf_append h v), Memory.size_append]
      exact hgt
    rw [hnew, (Memory.read_eq_none_iff h a).2 (Nat.le_of_lt hgt)]

/-- A literal's byte is its symbol (44_block_decoder.md R110). -/
theorem toNat_literalByte {sym : Nat} (h : sym ≤ 255) : (literalByte sym).toNat = sym := by
  rw [literalByte, BitVec.toNat_ofNat]
  omega

theorem exec_lit (sym : Nat) (s : State) :
    exec (.lit sym) s = (memWriteOut (literalByte sym) s).outcome := rfl

/-- LIT within OUT_CAP is one byte appended to OUT (44_block_decoder.md R110). -/
theorem exec_lit_ok {s : State} {m : Memory} (hm : s.out = some m)
    (hc : withinCap s.cfg (m.size + 1)) (sym : Nat) :
    exec (.lit sym) s = .next { s with out := some (m.append (literalByte sym)) } := by
  rw [exec_lit, memWriteOut_ok hm _ hc, OpRes.outcome_done]

/-- Settles O32: LIT is one append, and the facts about the new OUT are those of an append. -/
theorem literalAppendsItsByte : Obligations.LiteralAppendsItsByte :=
  fun _ m b hb hm hw hc =>
    ⟨m.append (literalByte b), literalByte b, exec_lit_ok hm hc b, toNat_literalByte hb,
      Memory.size_append m _, Memory.wf_append hw _, Memory.read_append_size hw _,
      fun _ ha => Memory.read_append_ne hw _ ha⟩

/-- Settles O33: the next state is the one EOB is defined by, with no operand and no other write. -/
theorem endOfBlockOnlySetsPhase : Obligations.EndOfBlockOnlySetsPhase := fun _ => rfl

end Sys2Proof.Machine

/-! ## The end of a block and START (O41, O42) -/

namespace Sys2Proof.Machine

/-- In PHASE BLOCK_DONE the step is BlockDone (45_decoder_top.md R180). -/
theorem State.action_of_blockDone {s : State} (hb : s.status = .busy) (hp : s.phase = .blockDone) :
    s.action = .blockDone := by
  simp only [State.action, hb, hp]

theorem testFinal_eq {s : State} {f : Nat} (hf : s.bfinal = some f) :
    testFinal s = .done (f == 1) s := by
  rw [testFinal, needReg_eq hf, OpRes.andThen_done]

/-- Finish reads OUT for its length and reads no bit (45_decoder_top.md R182). -/
theorem finish_eq {s : State} {m : Memory} (hm : s.out = some m) :
    finish s = .done ()
      { s with
        outLen := some m.size
        consumed := some (s.curByte + if s.curBit ≠ 0 then 1 else 0)
        phase := .halt
        status := .done } := by
  rw [finish, outSize_eq hm, OpRes.andThen_done]

/-- BlockDone after a final block discards the tables and is Finish (45_decoder_top.md R181, R182). -/
theorem blockDone_final {s : State} {m : Memory} (hf : s.bfinal = some 1) (hm : s.out = some m) :
    blockDone s = .next (s.finished m) := by
  rw [blockDone, testFinal_eq (s := { s with litTable := none, distTable := none }) hf,
    OpRes.andThen_done, if_pos (beq_self_eq_true 1),
    finish_eq (s := { s with litTable := none, distTable := none }) hm]
  rfl

/-- BlockDone after any other block goes on to the next header (45_decoder_top.md R181). -/
theorem blockDone_notFinal {s : State} {f : Nat} (hf : s.bfinal = some f) (h1 : f ≠ 1) :
    blockDone s = .next
      { s with
        litTable := none, distTable := none, blockIndex := s.blockIndex + 1
        phase := .readHeader } := by
  rw [blockDone, testFinal_eq (s := { s with litTable := none, distTable := none }) hf,
    OpRes.andThen_done, if_neg (by simpa using h1), OpRes.outcome_done]

/-- Settles O41: the step is BlockDone, and BFINAL selects its branch. -/
theorem blockDoneEndsOrGoesOn : Obligations.BlockDoneEndsOrGoesOn := by
  intro s m hb hp hm
  rw [step_blockDone (State.action_of_blockDone hb hp)]
  exact ⟨fun hf => blockDone_final hf hm, fun hf => blockDone_notFinal hf Nat.zero_ne_one⟩

/-- Settles O42: STATUS selects the branch of START, and each register is then read off the state it
writes. Only TRACE_LOG depends on a parameter. -/
theorem startBeginsADecode : Obligations.StartBeginsADecode := by
  intro s
  refine ⟨fun hbusy => if_pos hbusy, fun hready => ⟨_, if_neg hready, ?_⟩⟩
  have hlog (htrace : s.cfg.trace = true) : (if s.cfg.trace then [] else s.traceLog) = [] :=
    if_pos htrace
  exact ⟨rfl, rfl, rfl, rfl, rfl, rfl, rfl, rfl, rfl, rfl, rfl, rfl, rfl, rfl, hlog, rfl, rfl, rfl,
    rfl⟩

end Sys2Proof.Machine

/-! ## Taking an error, and the errors of a stored body (O21, O25, O38)

A stored body is LEN, NLEN, their test, and then `storedData`; each of the first two can end in the
end of IN instead, and so can the third. -/

namespace Sys2Proof.Machine

section
open State

/-- Settles O21: one law of `State.raise` for each register, first those it writes, then those it
drops, then the ones it keeps. -/
theorem raiseTakesTheError : Obligations.RaiseTakesTheError := fun e s =>
  ⟨raise_errCode e s, raise_errByte e s, raise_errBit e s, raise_errBlock e s,
    raise_out e s, raise_litTable e s, raise_distTable e s, raise_hlit e s, raise_hdist e s,
    raise_hclen e s, raise_clLens e s, raise_clTable e s, raise_lens e s, raise_accCode e s,
    raise_accLen e s, raise_length e s, raise_distance e s, raise_bfinal e s, raise_btype e s,
    raise_phase e s, raise_status e s,
    raise_input e s, raise_curByte e s, raise_curBit e s, raise_cfg e s, raise_blockIndex e s,
    raise_outLen e s, raise_consumed e s, raise_traceLog e s⟩

end

/-- Settles O38: the next state of either symbol is the one it is defined by, with no extra bit
read. -/
theorem reservedDistanceSymbolsRaise : Obligations.ReservedDistanceSymbolsRaise :=
  fun _ => ⟨rfl, rfl⟩

/-! ### The stored body -/

/-- The part of a stored body after LEN and NLEN (44_block_decoder.md R107): LEN bytes of IN to OUT,
and the end of the block. -/
def storedData (len : Nat) (s : State) : OpRes Unit :=
  (s.readRawBytes len).andThen fun bs s =>
    (appendBytes bs s).andThen fun _ s => .done () { s with phase := .blockDone }

/-- The test of NLEN against LEN, and the data of the block if it holds (44_block_decoder.md R107). -/
def storedTested (len nlen : Nat) (s : State) : OpRes Unit :=
  if nlen ≠ complement16 len then raiseError .storedLengthMismatch s else storedData len s

/-- STORED_BODY from the front end `f` at the byte boundary (44_block_decoder.md R107). -/
theorem exec_storedBody {s : State} {f : Front} (hf : f = s.toFront.alignToByte) :
    exec .storedBody s =
      ((readLen16 (s.withFront f)).andThen fun len s =>
        (readLen16 s).andThen fun nlen s => storedTested len nlen s).outcome := by
  subst hf
  rfl

/-- LEN or NLEN with its 16 bits left (20_memory.md R44). -/
theorem readLen16_ok {s : State} {f : Front} (h : f.ok) (hn : 16 ≤ f.bitsRemaining) :
    readLen16 (s.withFront f) = .done (f.peek 16) (s.withFront (f.advance 16)) :=
  State.readBits_ok (s := s.withFront f) h (Nat.le_refl 16) hn

/-- LEN or NLEN where IN ends inside it (20_memory.md R44). -/
theorem readLen16_eof {s : State} {f : Front} (hn : f.bitsRemaining < 16) :
    readLen16 (s.withFront f) = raiseError .unexpectedEof (s.withFront f) :=
  State.readBits_eof (s := s.withFront f) (Nat.le_refl 16) hn

section
variable {s : State} {f : Front} (hf : f = s.toFront.alignToByte)
include hf

theorem exec_storedBody_len_eof (hr : f.bitsRemaining < 16) :
    exec .storedBody s = .next ((s.withFront f).raise .unexpectedEof) := by
  rw [exec_storedBody hf, readLen16_eof hr]
  rfl

variable (h : f.ok)
include h

theorem exec_storedBody_nlen_eof (h16 : 16 ≤ f.bitsRemaining) (hr : f.bitsRemaining < 32) :
    exec .storedBody s = .next ((s.withFront (f.advance 16)).raise .unexpectedEof) := by
  have hnlen : (f.advance 16).bitsRemaining < 16 := by rw [Front.bitsRemaining_advance]; omega
  rw [exec_storedBody hf, readLen16_ok h h16, OpRes.andThen_done, readLen16_eof hnlen]
  rfl

/-- With LEN and NLEN read, what is left is their test and the data (44_block_decoder.md R107). -/
theorem exec_storedBody_lengths (h32 : 32 ≤ f.bitsRemaining) :
    exec .storedBody s =
      (storedTested (f.peek 16) ((f.advance 16).peek 16) (s.withFront (f.advance 32))).outcome := by
  have hlen : 16 ≤ f.bitsRemaining := by omega
  have hnlen : 16 ≤ (f.advance 16).bitsRemaining := by rw [Front.bitsRemaining_advance]; omega
  rw [exec_storedBody hf, readLen16_ok h hlen, OpRes.andThen_done,
    readLen16_ok (h.advance hlen) hnlen, OpRes.andThen_done, Front.advance_advance]

end

theorem storedTested_mismatch {len nlen : Nat} (hne : nlen ≠ complement16 len) (s : State) :
    storedTested len nlen s = raiseError .storedLengthMismatch s := if_pos hne

theorem storedTested_match {len nlen : Nat} (heq : nlen = complement16 len) (s : State) :
    storedTested len nlen s = storedData len s := if_neg (not_not_intro heq)

/-- Too few data bytes: UnexpectedEof before any of them is appended (44_block_decoder.md R107). -/
theorem storedData_eof {s : State} {len : Nat} (hlt : s.toFront.bytesRemaining < len) :
    storedData len s = raiseError .unexpectedEof s := by
  rw [storedData, State.readRawBytes_eof hlt]
  rfl

/-- LEN and NLEN are the 4 bytes at the byte boundary, and the bytes left come after them
(41_bitreader.md R75). -/
theorem Front.input_size_eq_after_lengths {f : Front} (h : f.ok) (h0 : f.curBit = 0)
    (h32 : 32 ≤ f.bitsRemaining) :
    f.input.size = f.curByte + 4 + (f.advance 32).bytesRemaining := by
  rw [Front.bytesRemaining_eq (h.advance h32), Front.bitsRemaining_advance]
  rw [Front.bitsRemaining, h0] at h32 ⊢
  omega

/-- Settles O25: the end of IN in LEN or in NLEN; with both read, the test of NLEN, and only then the
data. -/
theorem storedBodyErrorsInOrder : Obligations.StoredBodyErrorsInOrder := by
  rintro s f len nlen hok hf rfl rfl
  obtain ⟨h, h0, -, hin, -⟩ := Front.alignToByte_spec hok
  rw [← hf] at h h0 hin
  refine ⟨exec_storedBody_len_eof hf, exec_storedBody_nlen_eof hf h, fun h32 hne => ?_,
    fun h32 heq hlt => ?_⟩
  · rw [exec_storedBody_lengths hf h h32, storedTested_mismatch hne]
    rfl
  · have hleft : (f.advance 32).bytesRemaining < f.peek 16 := by
      have hsize := Front.input_size_eq_after_lengths h h0 h32
      rw [hin] at hsize
      omega
    rw [exec_storedBody_lengths hf h h32, storedTested_match heq, storedData_eof hleft]
    rfl

end Sys2Proof.Machine

/-! ## The 16-bit lengths of a stored body, byte by byte, and RESET (O6, O43)

At a byte boundary the stream bits not yet read are those of the bytes from CUR_BYTE on, so the
closed form of ReadBits(16) is the number that the next two bytes spell, the first one lowest. -/

namespace Sys2Proof.Machine

/-- A byte that is there is within IN_LEN (20_memory.md R36). -/
theorem Memory.lt_size_of_read {m : Memory} (h : m.wf = true) {a : Nat} {b : Byte}
    (hr : m.read a = some b) : a < m.size := by
  refine Nat.lt_of_not_le fun hge => ?_
  rw [(Memory.read_eq_none_iff h a).2 hge] at hr
  cases hr

/-- A byte that is there heads the bytes from its address on. -/
theorem Memory.drop_bytes_of_read {m : Memory} (h : m.wf = true) {a : Nat} {b : Byte}
    (hr : m.read a = some b) : m.bytes.drop a = b :: m.bytes.drop (a + 1) := by
  rw [Memory.read_eq h] at hr
  obtain ⟨hlt, rfl⟩ := List.getElem?_eq_some_iff.1 hr
  exact List.drop_eq_getElem_cons hlt

/-- The bytes from the `n`th on spell the number without its low `8 * n` bits. -/
theorem bytesToNat_drop (bs : List Byte) (n : Nat) :
    bytesToNat (bs.drop n) = bytesToNat bs >>> (8 * n) := by
  induction bs generalizing n with
  | nil => simp [bytesToNat]
  | cons b bs ih =>
    cases n with
    | zero => rfl
    | succ n =>
      have hb : b.toNat < 256 := b.isLt
      have hbyte : (b.toNat + 256 * bytesToNat bs) >>> 8 = bytesToNat bs := by
        rw [Nat.shiftRight_eq_div_pow]
        omega
      rw [List.drop_succ_cons, ih, bytesToNat, Nat.mul_succ, Nat.add_comm (8 * n), Nat.shiftRight_add,
        hbyte]

/-- From a byte boundary, `8 * n` bits are `n` bytes (10_state.md R21). -/
theorem Front.advance_bytes {f : Front} (h0 : f.curBit = 0) (n : Nat) :
    f.advance (8 * n) = { f with curByte := f.curByte + n } := by
  have hpos : f.pos + 8 * n = 8 * (f.curByte + n) := by rw [Front.pos, h0]; omega
  rw [Front.advance, hpos, Nat.mul_div_cancel_left _ (by decide), Nat.mul_mod_right, ← h0]

/-- At a byte boundary with the byte at CUR_BYTE + n there, all bits up to its end are unread
(10_state.md R22). -/
theorem Front.le_bitsRemaining_of_read {f : Front} (h : f.ok) (h0 : f.curBit = 0) {n : Nat} {b : Byte}
    (hr : f.input.read (f.curByte + n) = some b) : 8 * (n + 1) ≤ f.bitsRemaining := by
  have hlt := Memory.lt_size_of_read h.inputWf hr
  rw [Front.bitsRemaining, h0]
  omega

/-- The closed form of ReadBits(16) at a byte boundary: the little-endian number of the next two
bytes, with no bit of a later byte in it (70_reset_and_hazards.md R213). -/
theorem Front.peek_two_bytes {f : Front} (h : f.ok) (h0 : f.curBit = 0) {low high : Byte}
    (hlow : f.input.read f.curByte = some low)
    (hhigh : f.input.read (f.curByte + 1) = some high) :
    f.peek 16 = low.toNat + (high.toNat <<< 8) := by
  have hbytes : f.input.bytes.drop f.curByte = low :: high :: f.input.bytes.drop (f.curByte + 2) := by
    rw [Memory.drop_bytes_of_read h.inputWf hlow, Memory.drop_bytes_of_read h.inputWf hhigh]
  have hlow8 : low.toNat < 256 := low.isLt
  have hhigh8 : high.toNat < 256 := high.isLt
  rw [Front.peek, Front.pos, h0, Nat.add_zero, ← bytesToNat_drop, hbytes, bytesToNat, bytesToNat,
    Nat.shiftLeft_eq]
  omega

/-- Settles O6: LEN and NLEN are each the number of two bytes, and when they do not match the error is
the one of O25. -/
theorem storedLengthIsLowPlusShiftedHigh : Obligations.StoredLengthIsLowPlusShiftedHigh := by
  intro f low high h h0 hlow hhigh
  have hlen := Front.peek_two_bytes h h0 hlow hhigh
  have h16 : 16 ≤ f.bitsRemaining := Front.le_bitsRemaining_of_read h h0 hhigh
  have hpast : f.advance 16 = { f with curByte := f.curByte + 2 } := Front.advance_bytes h0 2
  refine ⟨?_, ?_⟩
  · rw [Front.readBits_peek h (Nat.le_refl 16) h16, hlen, hpast]
  · rintro s nlow nhigh rfl hnlow hnhigh hne
    have hnlen : (s.toFront.advance 16).peek 16 = nlow.toNat + (nhigh.toNat <<< 8) :=
      Front.peek_two_bytes (h.advance h16) (by rw [hpast, h0]) (by rwa [hpast]) (by rwa [hpast])
    have h32 : 32 ≤ s.toFront.bitsRemaining := Front.le_bitsRemaining_of_read h h0 hnhigh
    obtain ⟨-, -, hmismatch, -⟩ := storedBodyErrorsInOrder s s.toFront _ _ h
      (Front.alignToByte_aligned h0).symm hlen.symm hnlen.symm
    rw [hmismatch h32 hne, ← Front.advance_bytes h0 4]

/-- RESET is the reset state over the instance's own parameters and IN, in every STATUS
(70_reset_and_hazards.md R206). -/
theorem hostReset_eq (s : State) : hostReset s = .next (State.resetWith s.cfg s.input) := rfl

/-- Settles O43: the next state is the reset state, whose registers are then read off one by one; the
power-on state is the reset state over its own parameters and IN. -/
theorem resetGivesTheResetValues : Obligations.ResetGivesTheResetValues := by
  refine ⟨fun s => ⟨_, hostReset_eq s, ?_⟩, hostReset_eq State.reset⟩
  exact ⟨rfl, rfl, rfl, rfl, rfl, rfl, rfl, rfl, rfl, rfl, rfl, rfl, rfl, rfl, rfl, rfl, rfl, rfl, rfl,
    rfl, rfl, rfl, rfl, rfl, rfl, rfl, rfl, rfl, rfl⟩

end Sys2Proof.Machine

/-! ## Codes, elements and their bits (O9, O13 to O20)

An element's bits select a place of the opcode map (`encodeRow`), and `decodeRow` reads that place
from them and from no others. The map has one element at each place, in both directions. -/

namespace Sys2Proof.Machine

/-! ### The codes of a table -/

theorem entry_len_pos {L : List Nat} {T : HuffmanTable} (h : build L = some T) {e : HuffEntry}
    (he : e ∈ T.entries) : 1 ≤ e.len := by
  obtain ⟨-, hne, -⟩ := (mem_entries h e).mp he
  exact Nat.pos_of_ne_zero hne

/-- Settles O9: the range of each code, and the codes of a greater length past those of a smaller
one. -/
theorem codesArePrefixFree : Obligations.CodesArePrefixFree :=
  fun _ _ h =>
    ⟨fun _ he => ⟨entry_len_pos h he, entry_len_le h he, entry_code_lt h he⟩,
      fun _ he₁ _ he₂ hlen hpre => entries_prefixFree h he₁ he₂ hlen hpre⟩

/-- A symbol of nonzero length has a code (42_huffman.md R77). -/
theorem exists_symbolBits {L : List Nat} {T : HuffmanTable} (h : build L = some T) {s l : Nat}
    (hs : L[s]? = some l) (hl : l ≠ 0) : ∃ bits, symbolBits T s = some bits :=
  ⟨_, (symbolBits_eq_some_iff h s _).mpr ⟨⟨l, nextCode L l + (L.take s).count l, s⟩,
    (mem_entries h _).mpr ⟨hs, hl, rfl⟩, rfl, rfl⟩⟩

theorem mem_codeRun {n i : Nat} (hi : i < n) (len code sym : Nat) :
    (⟨len, code + i, sym + i⟩ : HuffEntry) ∈ codeRun n len code sym := by
  induction n generalizing i code sym with
  | zero => exact absurd hi (Nat.not_lt_zero i)
  | succ n ih =>
    rw [codeRun, List.mem_cons]
    cases i with
    | zero => exact .inl rfl
    | succ i =>
      have := ih (Nat.lt_of_succ_lt_succ hi) (code + 1) (sym + 1)
      exact .inr (by simpa only [Nat.add_assoc, Nat.add_comm 1] using this)

/-- A symbol of the fixed literal/length table has the code of its entry, in stream order. -/
theorem symbolBits_fixedLit {len code sym : Nat}
    (h : (⟨len, code, sym⟩ : HuffEntry) ∈ fixedLit.entries) :
    symbolBits fixedLit sym = some (codeBits len code) :=
  (symbolBits_eq_some_iff build_fixedLitLengths _ _).mpr ⟨_, h, rfl, rfl⟩

theorem mem_fixedLit_iff (e : HuffEntry) : e ∈ fixedLit.entries ↔
    e ∈ codeRun 144 8 0x30 0 ∨ e ∈ codeRun 112 9 0x190 144 ∨ e ∈ codeRun 24 7 0 256 ∨
      e ∈ codeRun 8 8 0xC0 280 := by
  simp only [fixedLit, List.mem_append, or_assoc]

/-- Settles O13: each listed range is a run of the fixed tables. -/
theorem fixedCodesAreThoseListed : Obligations.FixedCodesAreThoseListed := by
  refine ⟨fun s hs => ?_, fun s hge hle => ?_, fun s hge hle => ?_, fun s hge hle => ?_,
    fun d hd => ?_⟩
  · refine symbolBits_fixedLit ((mem_fixedLit_iff _).mpr (.inl ?_))
    simpa using mem_codeRun (n := 144) (i := s) (by omega) 8 0x30 0
  · obtain ⟨i, rfl⟩ := Nat.exists_eq_add_of_le hge
    rw [Nat.add_sub_cancel_left]
    exact symbolBits_fixedLit ((mem_fixedLit_iff _).mpr (.inr (.inl (mem_codeRun (by omega) 9 _ _))))
  · obtain ⟨i, rfl⟩ := Nat.exists_eq_add_of_le hge
    refine symbolBits_fixedLit ((mem_fixedLit_iff _).mpr (.inr (.inr (.inl ?_))))
    simpa using mem_codeRun (n := 24) (i := i) (by omega) 7 0 256
  · obtain ⟨i, rfl⟩ := Nat.exists_eq_add_of_le hge
    rw [Nat.add_sub_cancel_left]
    exact symbolBits_fixedLit
      ((mem_fixedLit_iff _).mpr (.inr (.inr (.inr (mem_codeRun (by omega) 8 _ _)))))
  · rw [symbolBits, codeOf_fixedDist (Nat.lt_succ_of_le hd)]
    rfl

/-! ### Fields as bits -/

@[simp] theorem length_fieldBits (n v : Nat) : (fieldBits n v).length = n := by
  simp [fieldBits]

theorem fieldBits_bitsToNat (bs : List Bool) : fieldBits bs.length (bitsToNat bs) = bs := by
  apply List.ext_getElem (length_fieldBits _ _)
  intro i _ hi
  simp [fieldBits, testBit_bitsToNat, hi]

theorem bitsToNat_fieldBits {n v : Nat} (hv : v < 2 ^ n) : bitsToNat (fieldBits n v) = v := by
  apply Nat.eq_of_testBit_eq
  intro i
  rw [testBit_bitsToNat, List.getD_eq_getElem?_getD]
  by_cases hi : i < n
  · simp [fieldBits, hi]
  · rw [List.getElem?_eq_none (by simpa using hi), Nat.testBit_lt_two_pow]
    · rfl
    · exact Nat.lt_of_lt_of_le hv (Nat.pow_le_pow_right Nat.two_pos (Nat.le_of_not_lt hi))

theorem Front.length_le_of_prefix {f : Front} {bits : List Bool} (hpre : bits <+: f.unread) :
    bits.length ≤ f.bitsRemaining := f.length_unread ▸ hpre.length_le

/-- The unread bits begin with the field that ReadBits reads there (41_bitreader.md R73). -/
theorem Front.fieldBits_peek_prefix {f : Front} (h : f.ok) {n : Nat} (hn : n ≤ f.bitsRemaining) :
    fieldBits n (f.peek n) <+: f.unread := by
  have hbits := fieldBits_bitsToNat (f.unread.take n)
  rw [List.length_take_of_le (by rwa [f.length_unread]), ← Front.peek_eq h hn] at hbits
  exact hbits ▸ List.take_prefix _ _

/-- A field at the start of the unread bits is the one ReadBits reads. -/
theorem Front.peek_of_prefix {f : Front} (h : f.ok) {n v : Nat} (hv : v < 2 ^ n)
    (hpre : fieldBits n v <+: f.unread) : f.peek n = v := by
  have hn : n ≤ f.bitsRemaining := length_fieldBits n v ▸ Front.length_le_of_prefix hpre
  have htake := List.prefix_iff_eq_take.mp hpre
  rw [length_fieldBits] at htake
  rw [Front.peek_eq h hn, ← htake, bitsToNat_fieldBits hv]

/-- Three bits read as one field are one bit and then two (44_block_decoder.md R102). -/
theorem Front.peek_three (f : Front) : f.peek 3 = f.peek 1 + ((f.advance 1).peek 2 <<< 1) := by
  simp only [Front.peek, Front.pos_advance, Front.advance_input, Nat.shiftRight_add,
    Nat.shiftLeft_eq, Nat.shiftRight_eq_div_pow _ 1]
  omega

/-! ### The elements and their places -/

/-- Each well-formed element stands at its own place of the opcode map (30_encoding.md R66). -/
theorem instr_row {i : Instr} (h : i.wellFormed = true) : i.row.instr = some i := by
  cases i with
  | blockStored f => exact Laws.OpcodeMap.blockStored f h
  | blockFixed f => exact Laws.OpcodeMap.blockFixed f h
  | blockDynamic f => exact Laws.OpcodeMap.blockDynamic f h
  | blockReserved f => exact Laws.OpcodeMap.blockReserved f h
  | lit s => exact Laws.OpcodeMap.lit s h
  | clLen n => exact Laws.OpcodeMap.clLen n h
  | _ => rfl

theorem headerInstr_eq_some {v : Nat} {i : Instr} (h : headerInstr v = some i) :
    v < 8 ∧ i.wellFormed = true ∧ i.row = .header v := by
  have hv : v < 8 := by
    refine Nat.lt_of_not_le fun hge => ?_
    obtain ⟨k, hk⟩ : ∃ k, v / 2 = k + 4 := ⟨v / 2 - 4, by omega⟩
    rw [headerInstr, hk] at h
    cases h
  have hall : ∀ v, v < 8 → (headerInstr v).all fun i => i.wellFormed && i.row == .header v := by
    decide
  have hi := hall v hv
  rw [h] at hi
  exact ⟨hv, by simpa using hi⟩

theorem litLenInstr_eq_some {s : Nat} {i : Instr} (h : litLenInstr s = some i) :
    i.wellFormed = true ∧ i.row = .litLen s := by
  have hall : ∀ k, k < 31 →
      (lengthInstrs[k]?).all fun i => i.wellFormed && i.row == .litLen (257 + k) := by
    decide
  unfold litLenInstr at h
  split at h
  · rename_i hs
    cases h
    exact ⟨decide_eq_true hs, rfl⟩
  · split at h
    · rename_i hs
      cases h
      exact ⟨rfl, by rw [hs]; rfl⟩
    · obtain ⟨hk, -⟩ := List.getElem?_eq_some_iff.mp h
      have hi := hall (s - 257) hk
      rw [h, show 257 + (s - 257) = s by omega] at hi
      simpa using hi

theorem distInstr_eq_some {d : Nat} {i : Instr} (h : distInstr d = some i) :
    i.wellFormed = true ∧ i.row = .dist d := by
  have hall : ∀ k, k < 32 → (distInstrs[k]?).all fun i => i.wellFormed && i.row == .dist k := by
    decide
  obtain ⟨hk, -⟩ := List.getElem?_eq_some_iff.mp h
  have hi := hall d hk
  rw [show distInstrs[d]? = some i from h] at hi
  simpa using hi

theorem clInstr_eq_some {c : Nat} {i : Instr} (h : clInstr c = some i) :
    i.wellFormed = true ∧ i.row = .clSym c := by
  have hc : c < 19 := by
    refine Nat.lt_of_not_le fun hge => ?_
    rw [clInstr, if_neg (by omega), if_neg (by omega), if_neg (by omega), if_neg (by omega)] at h
    cases h
  have hall : ∀ c, c < 19 → (clInstr c).all fun i => i.wellFormed && i.row == .clSym c := by
    decide
  have hi := hall c hc
  rw [h] at hi
  simpa using hi

/-- Each element of the opcode map is well formed and stands at one place only (30_encoding.md
R66). -/
theorem row_of_instr {row : OpcodeRow} {i : Instr} (h : row.instr = some i) :
    i.wellFormed = true ∧ i.row = row := by
  cases row with
  | header v => exact (headerInstr_eq_some h).2
  | litLen s => exact litLenInstr_eq_some h
  | dist d => exact distInstr_eq_some h
  | clSym c => exact clInstr_eq_some h
  | storedBody | fixedTables | dynHeader => cases h; exact ⟨rfl, rfl⟩

/-! ### Decode of encode, and encode of decode -/

/-- The bits that select a place of the opcode map: `encode`, by places. -/
def encodeRow : Selector → OpcodeRow → Option (List Bool)
  | .header, .header v => some (fieldBits 3 v)
  | .storedBody, .storedBody | .fixedTables, .fixedTables | .dynHeader, .dynHeader => some []
  | .clSym T, .clSym s | .litLen T, .litLen s | .dist T, .dist s => symbolBits T s
  | _, _ => none

theorem encode_eq_encodeRow (sel : Selector) (i : Instr) : encode sel i = encodeRow sel i.row := rfl

/-- The front end after `n` bits, ACC as it was or at ⊥: a place read as a field leaves ACC alone, one
read as a symbol clears it (10_state.md R28). -/
def Front.Past (f : Front) (n : Nat) (g : Front) : Prop :=
  g = f.advance n ∨ g = (f.advance n).clearAcc

theorem Front.Past.clearAcc_eq {f g : Front} {n : Nat} (h : f.Past n g) :
    g.clearAcc = (f.advance n).clearAcc := by
  obtain rfl | rfl := h
  · rfl
  · rw [Front.clearAcc_clearAcc]

theorem Front.Past.unread_eq {f g : Front} {n : Nat} (h : f.Past n g) :
    g.unread = f.unread.drop n := by
  obtain rfl | rfl := h
  · exact Front.unread_advance n f
  · exact Front.unread_advance n f

/-- With ACC at ⊥, as it is between Decodes, a place leaves it so. -/
theorem Front.Past.eq_advance {f g : Front} {n : Nat} (h : f.Past n g)
    (ha : f.accCode = none ∧ f.accLen = none) : g = f.advance n := by
  obtain rfl | rfl := h
  · rfl
  · exact Front.clearAcc_eq (f := f.advance n) ha

theorem Front.past_zero {f : Front} (h : f.ok) : f.Past 0 f :=
  .inl (Front.advance_zero h.curBit_lt).symm

section
variable {f : Front} (h : f.ok)
include h

/-- Decode(T) of the bits of a symbol (42_huffman.md R83). -/
theorem Front.decode_of_symbolBits {n s : Nat} {T : HuffmanTable} {bits : List Bool}
    (hT : BuiltFor n T) (hs : symbolBits T s = some bits) (hpre : bits <+: f.unread) :
    f.decode T = .ok s (f.advance bits.length).clearAcc := by
  obtain ⟨L, -, hb⟩ := hT
  obtain ⟨hdecode, -, -⟩ := decodeReadsOneCode L T f hb h
  exact hdecode s bits hs hpre

/-- What Decode(T) gives is a symbol whose bits it consumed (42_huffman.md R83). -/
theorem Front.symbolBits_of_decode {n s : Nat} {T : HuffmanTable} {g : Front}
    (hT : BuiltFor n T) (hd : f.decode T = .ok s g) :
    ∃ bits, symbolBits T s = some bits ∧ bits <+: f.unread ∧
      g = (f.advance bits.length).clearAcc := by
  obtain ⟨L, -, hb⟩ := hT
  obtain ⟨e, he, -, -, hle, hcode, hd'⟩ | ⟨-, hd'⟩ | ⟨-, _, hd', -⟩ := Front.decode_cases T h
  · obtain ⟨rfl, rfl⟩ : e.sym = s ∧ (f.advance e.len).clearAcc = g := by
      simpa using hd'.symm.trans hd
    exact ⟨codeBits e.len e.code, (symbolBits_eq_some_iff hb _ _).mpr ⟨e, he, rfl, rfl⟩,
      Front.codeBits_prefix_unread hle hcode, by rw [length_codeBits]⟩
  · cases hd'.symm.trans hd
  · cases hd'.symm.trans hd

/-- The bits of a place, with anything after them, are read as that place and no further. -/
theorem decodeRow_of_bits {sel : Selector} (hsel : sel.built) {row : OpcodeRow}
    (hrow : row.instr ≠ none) {bits : List Bool} (henc : encodeRow sel row = some bits)
    (hpre : bits <+: f.unread) :
    ∃ g, decodeRow sel f = .ok row g ∧ f.Past bits.length g := by
  unfold encodeRow at henc
  split at henc
  · next v =>
    cases henc
    obtain ⟨i, hi⟩ := Option.ne_none_iff_exists'.mp hrow
    obtain ⟨hv, -⟩ := headerInstr_eq_some hi
    have h3 : 3 ≤ f.bitsRemaining := Front.length_le_of_prefix hpre
    refine ⟨_, decodeRow_header_ok h h3 |>.trans ?_, .inl rfl⟩
    rw [← Front.peek_three, Front.peek_of_prefix h hv hpre]
    rfl
  · cases henc; exact ⟨f, rfl, Front.past_zero h⟩
  · cases henc; exact ⟨f, rfl, Front.past_zero h⟩
  · cases henc; exact ⟨f, rfl, Front.past_zero h⟩
  · exact ⟨_, by rw [decodeRow, Front.decode_of_symbolBits h hsel henc hpre]; rfl, .inr rfl⟩
  · exact ⟨_, by rw [decodeRow, Front.decode_of_symbolBits h hsel henc hpre]; rfl, .inr rfl⟩
  · exact ⟨_, by rw [decodeRow, Front.decode_of_symbolBits h hsel henc hpre]; rfl, .inr rfl⟩
  · cases henc

/-- A place that is a symbol: the bits that Decode consumed. -/
theorem bits_of_symbol {n : Nat} {T : HuffmanTable} {mk : Nat → OpcodeRow} {row : OpcodeRow}
    {g : Front} (hT : BuiltFor n T) (hd : ((f.decode T).andThen fun s f => .ok (mk s) f) = .ok row g) :
    ∃ s bits, row = mk s ∧ symbolBits T s = some bits ∧ bits <+: f.unread ∧
      f.Past bits.length g := by
  cases hdec : f.decode T with
  | ok s g' =>
    obtain ⟨bits, hs, hpre, rfl⟩ := Front.symbolBits_of_decode h hT hdec
    rw [hdec] at hd
    cases hd
    exact ⟨s, bits, rfl, hs, hpre, .inr rfl⟩
  | raised e g' => rw [hdec] at hd; cases hd
  | fault r => rw [hdec] at hd; cases hd
  | refused r => rw [hdec] at hd; cases hd

/-- What was read as a place are the bits of that place. -/
theorem bits_of_decodeRow {sel : Selector} (hsel : sel.built) {row : OpcodeRow} {g : Front}
    (hd : decodeRow sel f = .ok row g) :
    ∃ bits, encodeRow sel row = some bits ∧ bits <+: f.unread ∧ f.Past bits.length g := by
  cases sel with
  | header =>
    by_cases h3 : 3 ≤ f.bitsRemaining
    · rw [decodeRow_header_ok h h3, ← Front.peek_three] at hd
      cases hd
      exact ⟨_, rfl, Front.fieldBits_peek_prefix h h3, .inl (by rw [length_fieldBits])⟩
    · obtain ⟨h1, e1⟩ | ⟨-, e1⟩ := Front.readBits_cases h (n := 1) (by decide)
      · have e2 : (f.advance 1).readBits 2 = .raised .unexpectedEof (f.advance 1) :=
          Front.readBits_eof (by decide) (by rw [Front.bitsRemaining_advance]; omega)
        rw [decodeRow, e1, Read.andThen, e2] at hd
        cases hd
      · rw [decodeRow, e1] at hd
        cases hd
  | storedBody => cases hd; exact ⟨[], rfl, List.nil_prefix, Front.past_zero h⟩
  | fixedTables => cases hd; exact ⟨[], rfl, List.nil_prefix, Front.past_zero h⟩
  | dynHeader => cases hd; exact ⟨[], rfl, List.nil_prefix, Front.past_zero h⟩
  | clSym T =>
    obtain ⟨s, bits, rfl, hbits⟩ := bits_of_symbol h hsel hd
    exact ⟨bits, hbits⟩
  | litLen T =>
    obtain ⟨s, bits, rfl, hbits⟩ := bits_of_symbol h hsel hd
    exact ⟨bits, hbits⟩
  | dist T =>
    obtain ⟨s, bits, rfl, hbits⟩ := bits_of_symbol h hsel hd
    exact ⟨bits, hbits⟩

end

/-- The decoder is `decodeRow` and the opcode map. -/
theorem decodeAt_of_row {sel : Selector} {f g : Front} {row : OpcodeRow} {i : Instr}
    (hd : decodeRow sel f = .ok row g) (hi : row.instr = some i) : decodeAt sel f = .ok i g := by
  rw [decodeAt, hd, Read.andThen, hi]

theorem decodeAt_eq_ok {sel : Selector} {f g : Front} {i : Instr} (h : decodeAt sel f = .ok i g) :
    ∃ row, decodeRow sel f = .ok row g ∧ row.instr = some i := by
  unfold decodeAt at h
  cases hd : decodeRow sel f with
  | ok row g' =>
    rw [hd, Read.andThen] at h
    cases hi : row.instr with
    | some j => rw [hi] at h; cases h; exact ⟨row, rfl, hi⟩
    | none => rw [hi] at h; cases h
  | raised e g' => rw [hd] at h; cases h
  | fault r => rw [hd] at h; cases h
  | refused r => rw [hd] at h; cases h

/-- The bits of an element, with anything after them, decode to it, whatever ACC holds. -/
theorem decodeAt_of_bits {sel : Selector} {i : Instr} {bits : List Bool} {f : Front}
    (hsel : sel.built) (hwf : i.wellFormed = true) (henc : encode sel i = some bits) (h : f.ok)
    (hpre : bits <+: f.unread) : ∃ g, decodeAt sel f = .ok i g ∧ f.Past bits.length g := by
  have hi := instr_row hwf
  obtain ⟨g, hd, hg⟩ := decodeRow_of_bits h hsel (by rw [hi]; nofun) henc hpre
  exact ⟨g, decodeAt_of_row hd hi, hg⟩

/-- Settles O15: the place of the element is read from its bits, and the opcode map has the element
there. -/
theorem everyElementDecodesFromItsBits : Obligations.EveryElementDecodesFromItsBits := by
  intro sel i bits rest f hsel hwf henc h hacc hun
  obtain ⟨g, hd, hg⟩ := decodeAt_of_bits hsel hwf henc h (hun ▸ List.prefix_append bits rest)
  rw [hd, hg.eq_advance hacc]

/-- What the decoder gives, and the bits it consumed. -/
theorem bits_of_decodeAt {sel : Selector} {i : Instr} {f g : Front} (hsel : sel.built) (h : f.ok)
    (hd : decodeAt sel f = .ok i g) :
    i.wellFormed = true ∧ ∃ bits, encode sel i = some bits ∧ bits <+: f.unread ∧
      f.Past bits.length g := by
  obtain ⟨row, hrow, hi⟩ := decodeAt_eq_ok hd
  obtain ⟨hwf, rfl⟩ := row_of_instr hi
  exact ⟨hwf, bits_of_decodeRow h hsel hrow⟩

/-- Settles O16: the bits consumed are those of the place, at which only that element stands. -/
theorem decodedBitsAreTheEncoding : Obligations.DecodedBitsAreTheEncoding := by
  intro sel i f g hsel h hd
  obtain ⟨hwf, bits, henc, ⟨rest, hrest⟩, hg⟩ := bits_of_decodeAt hsel h hd
  refine ⟨hwf, bits, henc, ?_⟩
  rw [hg.unread_eq, ← hrest, List.drop_left]

/-! ### The tables that have a code for every symbol -/

theorem build_flatClLengths : build (List.replicate 19 5) = some flatClTable := by decide +kernel

theorem builtFor_fixedLit : BuiltFor litLenSymbols fixedLit := by
  obtain ⟨hlen, -⟩ := fixedLiteralLengthTable
  exact ⟨fixedLitLengths, Nat.le_of_eq hlen, build_fixedLitLengths⟩

theorem builtFor_fixedDist : BuiltFor distSymbols fixedDist :=
  ⟨fixedDistLengths, Nat.le_of_eq List.length_replicate, build_fixedDistLengths⟩

theorem built_selector (row : OpcodeRow) : row.selector.built := by
  cases row with
  | litLen s => exact builtFor_fixedLit
  | dist d => exact builtFor_fixedDist
  | clSym c => exact ⟨_, Nat.le_of_eq (List.length_replicate), build_flatClLengths⟩
  | header _ | storedBody | fixedTables | dynHeader => trivial

theorem exists_symbolBits_fixedLit {s : Nat} (hs : s < 288) :
    ∃ bits, symbolBits fixedLit s = some bits := by
  refine exists_symbolBits build_fixedLitLengths (getElem?_fixedLitLengths hs) ?_
  repeat' split
  all_goals nofun

/-- A place of the map has bits under the table of its alphabet that has a code for every symbol. -/
theorem encodeRow_selector {row : OpcodeRow} {i : Instr} (hi : row.instr = some i) :
    encodeRow row.selector row = some row.bits := by
  have hsym {T : HuffmanTable} {s : Nat} (h : ∃ bits, symbolBits T s = some bits) :
      symbolBits T s = some ((symbolBits T s).getD []) := by
    obtain ⟨bits, hbits⟩ := h
    rw [hbits]
    rfl
  cases row with
  | header _ | storedBody | fixedTables | dynHeader => rfl
  | litLen s =>
    refine hsym (exists_symbolBits_fixedLit (Nat.lt_of_not_le fun hge => ?_))
    rw [OpcodeRow.instr, litLenInstr, if_neg (by omega), if_neg (by omega),
      List.getElem?_eq_none (show 31 ≤ s - 257 by omega)] at hi
    cases hi
  | dist d =>
    obtain ⟨hd, -⟩ := List.getElem?_eq_some_iff.mp hi
    exact hsym (exists_symbolBits build_fixedDistLengths (List.getElem?_replicate_of_lt hd)
      (Nat.succ_ne_zero 4))
  | clSym c =>
    refine hsym (exists_symbolBits build_flatClLengths
      (List.getElem?_replicate_of_lt (Nat.lt_of_not_le fun hge => ?_)) (Nat.succ_ne_zero 4))
    rw [OpcodeRow.instr, clInstr, if_neg (by omega), if_neg (by omega), if_neg (by omega),
      if_neg (by omega)] at hi
    cases hi

/-- Settles O17: the three tables come from Build, and none of their symbols has length 0. -/
theorem everyElementHasAnEncoding : Obligations.EveryElementHasAnEncoding :=
  fun i h => ⟨built_selector i.row, encodeRow_selector (instr_row h)⟩

/-! ### The step of an element -/

theorem fetch_of_ok {s : State} {sel : Selector} {i : Instr} {f : Front}
    (hd : decodeAt sel s.toFront = .ok i f) : fetch sel s = .done i (s.withFront f) := by
  rw [fetch, hd]
  rfl

theorem fetch_of_raised {s : State} {sel : Selector} {e : ErrCode} {f : Front}
    (hd : decodeAt sel s.toFront = .raised e f) :
    fetch sel s = .stop (.next ((s.withFront f).raise e)) := by
  rw [fetch, hd]
  rfl

/-- Settles O19: the fetch is the decoder's answer, and the step runs it or is its error. -/
theorem stepRunsTheDecodedElement : Obligations.StepRunsTheDecodedElement :=
  fun _ _ ha => ⟨fun _ _ hd => step_element ha (fetch_of_ok hd),
    fun _ _ hd => step_element_stop ha (fetch_of_raised hd)⟩

theorem State.action_of_not_busy {s : State} (h : s.status ≠ .busy) : s.action = .noStep := by
  unfold State.action
  cases hs : s.status with
  | busy => exact absurd hs h
  | idle | done | error => rfl

section
variable {s : State} (hb : s.status = .busy)
include hb

theorem State.action_of_halt (hp : s.phase = .halt) : s.action = .noStep := by
  simp [State.action, hb, hp]

/-- Inside the code-length sequence, the number of lengths so far chooses (43_dynamic_header.md
R89). -/
theorem State.action_of_sequence {T : HuffmanTable} {a b : Nat} {L : List Nat}
    (hp : s.phase = .dynamic) (hT : s.clTable = some T) (ha : s.hlit = some a)
    (hd : s.hdist = some b) (hL : s.lens = some L) :
    s.action = if L.length < a + b then .element (.clSym T) else .dynEnd := by
  simp [State.action, hb, hp, State.dynamicAction, hT, ha, hd, hL]

theorem State.action_of_litLen {T : HuffmanTable} (hp : s.phase = .decoding)
    (hl : s.length = none) (hT : s.litTable = some T) : s.action = .element (.litLen T) := by
  simp [State.action, hb, hp, State.decodingAction, hl, hT, symbolUnder]

theorem State.action_of_dist {T : HuffmanTable} {n : Nat} (hp : s.phase = .decoding)
    (hl : s.length = some n) (hT : s.distTable = some T) : s.action = .element (.dist T) := by
  simp [State.action, hb, hp, State.decodingAction, hl, hT, symbolUnder]

end

/-- Settles O20: one lemma for each PHASE. -/
theorem phaseChoosesTheStep : Obligations.PhaseChoosesTheStep := by
  intro s
  refine ⟨fun h => step_noStep (State.action_of_not_busy h), fun hb => ?_⟩
  refine ⟨State.action_of_readHeader hb, State.action_of_stored hb, State.action_of_fixed hb,
    State.action_of_dynamic hb, fun T a b L hp hT ha hd hL => ?_,
    fun T hp hl hT => State.action_of_litLen hb hp hl hT,
    fun T n hp hl hT => State.action_of_dist hb hp hl hT, State.action_of_blockDone hb,
    fun hp => step_noStep (State.action_of_halt hb hp)⟩
  rw [State.action_of_sequence hb hp hT ha hd hL]
  exact ⟨fun hlt => if_pos hlt, fun hge => if_neg (Nat.not_lt.mpr hge)⟩

/-! ### The words of the opcode table -/

/-- Settles O14: ten closed runs of the decoder. -/
theorem specWordsDecode : Obligations.SpecWordsDecode := by
  refine ⟨?_, ?_, ?_, ?_, ?_, ?_, ?_, ?_, ?_, ?_⟩ <;> decide +kernel

theorem State.toFront_placeRow (row : OpcodeRow) (s : State) : (s.placeRow row).toFront =
    { Front.atStart row.bytes with accCode := s.accCode, accLen := s.accLen } := by
  cases row <;> rfl

/-- In the state set up for a place of the map, the next step reads with that place's selector. -/
theorem State.action_placeRow (row : OpcodeRow) (s : State) :
    (s.placeRow row).action = .element row.selector := by
  cases row <;> rfl

theorem Front.ok_atStart (bs : List Byte) : (Front.atStart bs).ok :=
  ⟨Memory.wf_ofBytes bs, Nat.zero_le _, Nat.zero_lt_succ 7, fun hne => absurd rfl hne⟩

@[simp] theorem length_packBytes (n : Nat) (bits : List Bool) : (packBytes n bits).length = n := by
  induction n generalizing bits with
  | zero => rfl
  | succ n ih => rw [packBytes, List.length_cons, ih]

theorem getElem?_packBytes {n j : Nat} (hj : j < n) (bits : List Bool) :
    (packBytes n bits)[j]? = some (BitVec.ofNat 8 (bitsToNat ((bits.drop (8 * j)).take 8))) := by
  induction n generalizing bits j with
  | zero => exact absurd hj (Nat.not_lt_zero j)
  | succ n ih =>
    cases j with
    | zero => rfl
    | succ j =>
      rw [packBytes, List.getElem?_cons_succ, ih (Nat.lt_of_succ_lt_succ hj), List.drop_drop,
        Nat.mul_succ, Nat.add_comm 8]

/-- The bytes that hold a bit stream give its bits back, whatever bytes follow (00_scope.md R15). -/
theorem Front.streamBit_packBits {bits : List Bool} {k : Nat} (hk : k < bits.length)
    (tail : List Byte) :
    (Front.atStart (packBits bits ++ tail)).streamBit k = bits[k] := by
  have hj : k / 8 < (bits.length + 7) / 8 := by omega
  have hk8 : k % 8 < 8 := Nat.mod_lt k (by decide)
  have hread : (Front.atStart (packBits bits ++ tail)).input.read (k / 8) =
      some (BitVec.ofNat 8 (bitsToNat ((bits.drop (8 * (k / 8))).take 8))) := by
    rw [Memory.read_eq (Front.ok_atStart _).inputWf, Front.atStart, Memory.bytes_ofBytes, packBits,
      List.getElem?_append_left (by rwa [length_packBytes]), getElem?_packBytes hj]
  have hindex : 8 * (k / 8) + k % 8 = k := Nat.div_add_mod k 8
  rw [Front.streamBit, hread]
  show (BitVec.ofNat 8 _).getLsbD (k % 8) = _
  rw [BitVec.getLsbD_ofNat, decide_eq_true hk8, Bool.true_and, testBit_bitsToNat,
    List.getD_eq_getElem?_getD, List.getElem?_take_of_lt hk8, List.getElem?_drop, hindex,
    List.getElem?_eq_getElem hk, Option.getD_some]

theorem Front.prefix_unread_packBits (bits : List Bool) (tail : List Byte) :
    bits <+: (Front.atStart (packBits bits ++ tail)).unread := by
  have hsize : (Front.atStart (packBits bits ++ tail)).bitsRemaining =
      8 * ((bits.length + 7) / 8 + tail.length) := by
    simp [Front.bitsRemaining, Front.atStart, packBits]
  rw [List.prefix_iff_eq_take]
  apply List.ext_getElem
  · rw [List.length_take, Front.length_unread, hsize]
    omega
  · intro k hk _
    have hpos : (Front.atStart (packBits bits ++ tail)).pos = 0 := rfl
    simp only [Front.unread, List.getElem_take, List.getElem_map, List.getElem_range, hpos,
      Nat.zero_add, Front.streamBit_packBits hk]

theorem decodeTableWord_eq_some {nbits w : Nat} {i : Instr} (h : decodeTableWord nbits w = some i) :
    ∃ row f, tableWordRow nbits w = some row ∧
      decodeAt row.selector (Front.atStart row.bytes) = .ok i f := by
  unfold decodeTableWord at h
  split at h
  · cases h
  · next row hrow =>
    split at h
    · next j f hd => cases h; exact ⟨row, f, hrow, hd⟩
    · cases h

theorem exists_litLenInstr {s : Nat} (hs : s < 288) : ∃ i, litLenInstr s = some i := by
  unfold litLenInstr
  split
  · exact ⟨_, rfl⟩
  · split
    · exact ⟨_, rfl⟩
    · exact ⟨_, List.getElem?_eq_getElem (show s - 257 < 31 by omega)⟩

theorem exists_distInstr {d : Nat} (hd : d < 32) : ∃ i, distInstr d = some i :=
  ⟨_, List.getElem?_eq_getElem hd⟩

/-- Every word is given to a place that has an element. -/
theorem instr_of_tableWordRow {nbits w : Nat} {row : OpcodeRow} (h : tableWordRow nbits w = some row) :
    ∃ i, row.instr = some i := by
  unfold tableWordRow at h
  split at h
  · cases h
  split at h
  · cases h; exact ⟨_, rfl⟩
  split at h
  · split at h
    · next hw => cases h; obtain rfl | rfl | rfl | rfl := hw <;> exact ⟨_, rfl⟩
    split at h
    · next hw => cases h; obtain rfl | rfl | rfl := hw <;> exact ⟨_, rfl⟩
    split at h
    · next hw => cases h; exact exists_distInstr hw
    · cases h
  split at h
  · next hw => cases h; exact exists_distInstr (by omega)
  split at h
  · next hw => cases h; exact exists_litLenInstr hw
  · cases h

/-- Settles O18: the placed state differs from the decoder's front end in ACC only, which no element's
bits depend on; what both read there are the row's own bits. -/
theorem tableWordIsFetchedAndRun : Obligations.TableWordIsFetchedAndRun := by
  rintro s t nbits w i rfl h
  obtain ⟨row, f, hrow, hd⟩ := decodeTableWord_eq_some h
  have hplaced : s.withFetchWord nbits w = s.placeRow row := by rw [State.withFetchWord, hrow]
  obtain ⟨j, hj⟩ := instr_of_tableWordRow hrow
  obtain ⟨hwf, rfl⟩ := row_of_instr hj
  have henc := encodeRow_selector hj
  have hpre : j.row.bits <+: (Front.atStart j.row.bytes).unread :=
    Front.prefix_unread_packBits _ _
  obtain ⟨_, hdj, -⟩ := decodeAt_of_bits (built_selector j.row) hwf henc (Front.ok_atStart _) hpre
  obtain ⟨rfl, -⟩ := Read.ok.inj (hdj.symm.trans hd)
  have hfront := State.toFront_placeRow j.row s
  have hok : (s.placeRow j.row).toFront.ok := hfront ▸ Front.ok_atStart j.row.bytes
  have hun : (s.placeRow j.row).toFront.unread = (Front.atStart j.row.bytes).unread := by
    rw [hfront]
    rfl
  obtain ⟨g, hg, hpast⟩ := decodeAt_of_bits (built_selector j.row) hwf henc hok (hun ▸ hpre)
  rw [hplaced]
  exact ⟨j.row, g, hrow, rfl, hg, hpast.clearAcc_eq,
    step_element (State.action_placeRow j.row s) (fetch_of_ok hg)⟩

end Sys2Proof.Machine

/-! ## Elements that write OUT, lengths, distances and tables (O24, O31, O34 to O37, O40)

Each of these elements reads its fields, checks them and then writes once. The laws of the shared
operations say what each part can do; here they are put together for the values at hand. -/

namespace Sys2Proof.Machine

/-! ### OUT after an append -/

/-- The new bytes stand after the old ones (20_memory.md R38). -/
theorem Memory.read_appendAll_add {m : Memory} (h : m.wf = true) (bs : List Byte) (i : Nat) :
    (m.appendAll bs).read (m.size + i) = bs[i]? := by
  rw [Memory.read_eq (Memory.wf_appendAll h bs), Memory.bytes_appendAll,
    List.getElem?_append_right (by rw [Memory.length_bytes]; omega), Memory.length_bytes,
    Nat.add_sub_cancel_left]

/-- Each byte of the copy is a byte of the OUT before it (44_block_decoder.md R115). -/
theorem Memory.getElem?_copied {m : Memory} (h : m.wf = true) {d n j : Nat} (h1 : 1 ≤ d)
    (hd : d ≤ m.size) (hj : j < n) :
    (copied m.bytes d n)[j]? = m.read (m.size - d + j % d) := by
  have hmod : j % d < d := Nat.mod_lt j h1
  rw [Memory.read_eq h, copied, List.getElem?_map, List.getElem?_range hj, Option.map_some,
    List.getD_eq_getElem?_getD, Memory.length_bytes,
    List.getElem?_eq_getElem (show m.size - d + j % d < m.bytes.length by
      rw [Memory.length_bytes]; omega), Option.getD_some]

/-! ### The stored body with all its bytes -/

/-- The front end with its cursor at the start of byte `p` (10_state.md R21). -/
def Front.atByte (p : Nat) (f : Front) : Front := { f with curByte := p, curBit := 0 }

/-- AlignToByte changes the cursor only, to the start of a byte (41_bitreader.md R74). -/
theorem Front.alignToByte_eq (f : Front) : f.alignToByte = f.atByte f.alignToByte.curByte := by
  unfold Front.atByte
  by_cases h0 : f.curBit = 0
  · rw [Front.alignToByte_aligned h0, ← h0]
  · rw [Front.alignToByte_partial h0]

/-- The bytes of IN that a stored body with `len` bytes of data copies, `p` being the byte where its
LEN begins (44_block_decoder.md R107). -/
def State.storedBytes (p len : Nat) (s : State) : List Byte := (s.input.bytes.drop (p + 4)).take len

section
variable {s : State} {p len : Nat} (hfit : p + 4 + len ≤ s.input.size)
include hfit

theorem State.length_storedBytes : (s.storedBytes p len).length = len := by
  rw [State.storedBytes, List.length_take, List.length_drop, Memory.length_bytes]
  omega

/-- With LEN, its complement and LEN bytes present, what is left of STORED_BODY is the append
(44_block_decoder.md R107). -/
theorem exec_storedBody_data (h : s.toFront.ok) (hp : p = s.toFront.alignToByte.curByte)
    (hlen : s.toFront.alignToByte.peek 16 = len)
    (hnlen : (s.toFront.alignToByte.advance 16).peek 16 = len ^^^ 0xFFFF) :
    exec .storedBody s =
      ((appendBytes (s.storedBytes p len)
        (s.withFront (s.toFront.atByte (p + 4 + len)))).andThen fun _ s =>
          .done () { s with phase := .blockDone }).outcome := by
  obtain ⟨hok, h0, -, hin, -⟩ := Front.alignToByte_spec h
  have h32 : 32 ≤ s.toFront.alignToByte.bitsRemaining := by
    rw [Front.bitsRemaining, hin, h0, ← hp]
    omega
  have hfront : s.toFront.alignToByte.advance 32 = s.toFront.atByte (p + 4) := by
    rw [Front.advance_bytes h0 4, s.toFront.alignToByte_eq, ← hp]
    rfl
  have hok4 : (s.toFront.atByte (p + 4)).ok := hfront ▸ hok.advance h32
  have hread := State.readRawBytes_ok (s := s.withFront (s.toFront.atByte (p + 4))) hok4 rfl
    (Nat.le_sub_of_add_le' hfit)
  rw [exec_storedBody_lengths rfl hok h32, hlen, hnlen, storedTested_match (by rfl), hfront,
    storedData, hread]
  rfl

/-- With room in OUT, STORED_BODY completes (44_block_decoder.md R107). -/
theorem exec_storedBody_ok (h : s.toFront.ok) (hp : p = s.toFront.alignToByte.curByte)
    (hlen : s.toFront.alignToByte.peek 16 = len)
    (hnlen : (s.toFront.alignToByte.advance 16).peek 16 = len ^^^ 0xFFFF) {m : Memory}
    (hm : s.out = some m) (hc : withinCap s.cfg (m.size + len)) :
    exec .storedBody s = .next { s.withFront (s.toFront.atByte (p + 4 + len)) with
      out := some (m.appendAll (s.storedBytes p len)), phase := .blockDone } := by
  rw [exec_storedBody_data hfit h hp hlen hnlen,
    appendBytes_ok (s := s.withFront (s.toFront.atByte (p + 4 + len))) hm _
      ((State.length_storedBytes hfit).symm ▸ hc)]
  rfl

end

/-- Settles O24: the append, and the reads of OUT after it. -/
theorem storedBodyCopiesItsBytes : Obligations.StoredBodyCopiesItsBytes := by
  intro s m p len h hm hw hp hfit hlen hnlen hc
  have hlength := State.length_storedBytes hfit
  refine ⟨m.appendAll (s.storedBytes p len), rfl, exec_storedBody_ok hfit h hp hlen hnlen hm hc,
    by rw [Memory.size_appendAll, hlength], fun a ha => Memory.read_appendAll_lt hw _ ha,
    fun i hi => ?_⟩
  rw [Memory.read_appendAll_add hw, Memory.read_eq h.inputWf, State.storedBytes,
    List.getElem?_take_of_lt hi, List.getElem?_drop]

/-! ### Lengths and distances -/

/-- The rows of the length table: no field is wider than ReadBits allows, and every length is from
MIN_MATCH to MAX_MATCH (30_encoding.md R63). -/
theorem lenTable_row {k base extra : Nat} (hb : lenBase[k]? = some base)
    (he : lenExtra[k]? = some extra) :
    extra ≤ 5 ∧ minMatch ≤ base ∧ base + 2 ^ extra ≤ maxMatch + 1 := by
  obtain ⟨hk, -⟩ := List.getElem?_eq_some_iff.mp hb
  obtain ⟨base', extra', hb', he', hrange⟩ := lenTable_range k hk
  obtain rfl : base' = base := Option.some.inj (hb'.symm.trans hb)
  obtain rfl : extra' = extra := Option.some.inj (he'.symm.trans he)
  exact hrange

/-- The rows of the distance table: no field is wider than ReadBits allows, and no distance is 0
(30_encoding.md R64). -/
theorem distTable_row {k base extra : Nat} (hb : distBase[k]? = some base)
    (he : distExtra[k]? = some extra) : extra ≤ 13 ∧ 1 ≤ base := by
  obtain ⟨hk, -⟩ := List.getElem?_eq_some_iff.mp hb
  obtain ⟨base', extra', hb', he', hextra, hbase, -⟩ := distTable_range k hk
  obtain rfl : base' = base := Option.some.inj (hb'.symm.trans hb)
  obtain rfl : extra' = extra := Option.some.inj (he'.symm.trans he)
  exact ⟨hextra, hbase⟩

/-- Settles O34: the next state of either symbol is the one it is defined by. -/
theorem reservedLiteralLengthSymbolsRaise : Obligations.ReservedLiteralLengthSymbolsRaise :=
  fun _ => ⟨rfl, rfl⟩

/-- Settles O35: a length symbol is `lengthSymbol` of its row, with its two endings. -/
theorem lengthSymbolsSetLength : Obligations.LengthSymbolsSetLength := by
  intro k i base extra hi hb he s h
  obtain ⟨hextra, -⟩ := lenTable_row hb he
  rw [exec_lengthInstr hi hb he]
  obtain ⟨hle, e⟩ | ⟨hlt, e⟩ := lengthSymbol_cases h base (show extra ≤ 16 by omega)
  · exact ⟨fun _ => e, fun hlt => absurd hle (Nat.not_le.mpr hlt)⟩
  · exact ⟨fun hle => absurd hle (Nat.not_le.mpr hlt), fun _ => e⟩

section
variable {s : State} {base extra : Nat} (h16 : extra ≤ 16)
include h16

/-- A distance symbol whose extra bits do not fit reads nothing else (44_block_decoder.md R113). -/
theorem distanceSymbol_eof (hlt : s.toFront.bitsRemaining < extra) :
    distanceSymbol base extra s = .next (s.raise .unexpectedEof) := by
  rw [distanceSymbol, readOffset_eof base h16 hlt]
  rfl

variable (h : s.toFront.ok) {m : Memory} (hm : s.out = some m)
include h hm

/-- The check of the distance comes before LENGTH is read and before any byte is copied
(44_block_decoder.md R114). -/
theorem distanceSymbol_beyond (hle : extra ≤ s.toFront.bitsRemaining)
    (hbeyond : m.size < base + s.toFront.peek extra) :
    distanceSymbol base extra s =
      .next ((s.withFront (s.toFront.advance extra)).raise .invalidDistance) := by
  have hsize := outSize_eq (m := m) (s := { s.withFront (s.toFront.advance extra) with
    distance := some (base + s.toFront.peek extra) }) hm
  rw [distanceSymbol, readOffset_ok h base h16 hle, OpRes.andThen_done, hsize, OpRes.andThen_done,
    if_pos hbeyond]
  rfl

variable (hw : m.wf = true) {n : Nat} (hn : s.length = some n) (hb : 1 ≤ base)
  (hle : extra ≤ s.toFront.bitsRemaining) (hd : base + s.toFront.peek extra ≤ m.size)
include hw hn hb hle hd

/-- A distance that passes its check is the copy of LENGTH bytes (44_block_decoder.md R115). -/
theorem distanceSymbol_copy (hc : withinCap s.cfg (m.size + n)) :
    distanceSymbol base extra s =
      .next { s.withFront (s.toFront.advance extra) with
        out := some (m.appendAll (copied m.bytes (base + s.toFront.peek extra) n))
        length := none, distance := none } := by
  obtain ⟨hlt, -⟩ | ⟨-, hlt, -⟩ | ⟨-, -, -, e⟩ | ⟨-, -, ⟨cap, hcap, hlt⟩, -⟩ :=
    distanceSymbol_cases h hm hw hn hb h16
  · exact absurd hle (Nat.not_le.mpr hlt)
  · exact absurd hd (Nat.not_le.mpr hlt)
  · exact e
  · exact absurd (hc cap hcap) (Nat.not_le.mpr hlt)

/-- A copy that would pass OUT_CAP stops (00_scope.md R11). -/
theorem distanceSymbol_stuck {cap : Nat} (hcap : s.cfg.outCap = some cap) (hm_le : m.size ≤ cap)
    (hover : cap < m.size + n) : distanceSymbol base extra s = .fault .outCapStuck := by
  obtain ⟨hlt, -⟩ | ⟨-, hlt, -⟩ | ⟨-, -, hc, -⟩ | ⟨-, -, -, e⟩ :=
    distanceSymbol_cases h hm hw hn hb h16
  · exact absurd hle (Nat.not_le.mpr hlt)
  · exact absurd hd (Nat.not_le.mpr hlt)
  · obtain rfl | hc := hc
    · exact absurd hover (Nat.not_lt.mpr hm_le)
    · exact absurd (hc cap hcap) (Nat.not_le.mpr hover)
  · exact e

end

/-- Settles O36: a distance symbol is `distanceSymbol` of its row, and the copy is an append. -/
theorem distanceSymbolsCopyFromOut : Obligations.DistanceSymbolsCopyFromOut := by
  rintro k i base extra hi hb he s m n d h hm hw hn hle rfl hd hc
  obtain ⟨hextra, hbase⟩ := distTable_row hb he
  have hd1 : 1 ≤ base + s.toFront.peek extra := Nat.le_add_right_of_le hbase
  refine ⟨_, (exec_distInstr hi hb he s).trans
    (distanceSymbol_copy (by omega) h hm hw hn hbase hle hd hc), ?_, Memory.wf_appendAll hw _,
    fun a ha => Memory.read_appendAll_lt hw _ ha, fun j hj => ?_⟩
  · rw [Memory.size_appendAll, length_copied]
  · rw [Memory.read_appendAll_add hw, Memory.getElem?_copied hw hd1 hd hj]

/-- Settles O37: the end of IN, or the check of the distance. -/
theorem distanceBeyondOutRaises : Obligations.DistanceBeyondOutRaises := by
  intro k i base extra hi hb he s m h hm
  obtain ⟨hextra, -⟩ := distTable_row hb he
  have h16 : extra ≤ 16 := by omega
  rw [exec_distInstr hi hb he]
  exact ⟨distanceSymbol_beyond h16 h hm, distanceSymbol_eof h16⟩

/-- Settles O40: a write of one byte, a copy and an append, each past OUT_CAP; RESET answers in every
state. -/
theorem writePastOutCapIsStuck : Obligations.WritePastOutCapIsStuck := by
  intro s m cap hcap hm hle hw
  refine ⟨fun b hfull => ?_, fun k i base extra n hi hb he h hn hx hd hover => ?_,
    fun p len h hp hfit hlen hnlen hover => ?_, _, hostReset_eq s, rfl⟩
  · rw [exec_lit, memWriteOut_stuck hm _ hcap (Nat.le_of_eq hfull.symm)]
    rfl
  · obtain ⟨hextra, hbase⟩ := distTable_row hb he
    rw [exec_distInstr hi hb he]
    exact distanceSymbol_stuck (by omega) h hm hw hn hbase hx hd hcap hle hover
  · have hlength := State.length_storedBytes hfit
    rw [exec_storedBody_data hfit h hp hlen hnlen,
      appendBytes_stuck (s := s.withFront (s.toFront.atByte (p + 4 + len))) hm _ hcap hle
        (hlength.symm ▸ hover)]
    rfl

/-! ### The end of a dynamic header -/

/-- The state at the end of a dynamic header (43_dynamic_header.md R100, 10_state.md R27). -/
def State.withTables (lit dist : HuffmanTable) (s : State) : State :=
  { s with
    litTable := some lit, distTable := some dist, hlit := none, hdist := none
    hclen := none, clLens := none, clTable := none, lens := none, phase := .decoding }

/-- What the end of a dynamic header can do with LENS complete (43_dynamic_header.md R100): both
tables, or the error of Build. -/
theorem dynEnd_eq {s : State} {L : List Nat} {a b : Nat} (ha : s.hlit = some a)
    (hb : s.hdist = some b) (hL : s.lens = some L) (hlen : L.length = a + b) :
    dynEnd s = match build (L.take a), build (L.drop a) with
      | some lit, some dist => .next (s.withTables lit dist)
      | _, _ => .next (s.raise .invalidCodeLengths) := by
  have hdist : (L.drop a).take b = L.drop a :=
    List.take_of_length_le (by rw [List.length_drop]; omega)
  rw [dynEnd, needReg_eq ha, OpRes.andThen_done, needReg_eq hb, OpRes.andThen_done, needReg_eq hL,
    OpRes.andThen_done, hdist]
  cases hlit : build (L.take a) with
  | none => rw [buildTable_none hlit]; rfl
  | some lit =>
    rw [buildTable_some hlit, OpRes.andThen_done]
    cases hd : build (L.drop a) with
    | none => rw [buildTable_none hd]; rfl
    | some dist => rw [buildTable_some hd]; rfl

/-- A symbol past the end of the list has no code (42_huffman.md R78). -/
theorem codeOf_eq_none {L : List Nat} {T : HuffmanTable} (h : build L = some T) {sym : Nat}
    (hge : L.length ≤ sym) : T.codeOf sym = none := by
  rw [Option.eq_none_iff_forall_ne_some]
  rintro ⟨l, c⟩ hc
  exact absurd (sym_lt h ((codeOf_eq_some_iff h _ _ _).mp hc)) (Nat.not_lt.mpr hge)

/-- Settles O31: the step is `dynEnd`, whose two lists have HLIT and HDIST lengths. -/
theorem dynEndBuildsTheTwoTables : Obligations.DynEndBuildsTheTwoTables := by
  intro s T L a b hbusy hp hT ha hb hL hlen
  have haction : s.action = .dynEnd := by
    rw [State.action_of_sequence hbusy hp hT ha hb hL, if_neg (by omega)]
  have hstep := (step_dynEnd haction).trans (dynEnd_eq ha hb hL hlen)
  refine ⟨fun lit dist hlit hdist => ⟨?_, fun sym hsym => ?_, fun sym hsym => ?_⟩, fun hlit => ?_,
    fun hdist => ?_⟩
  · rw [hstep, hlit, hdist]
    rfl
  · exact codeOf_eq_none hlit (by rw [List.length_take]; omega)
  · exact codeOf_eq_none hdist (by rw [List.length_drop]; omega)
  · rw [hstep, hlit]
  · rw [hstep, hdist]
    cases build (L.take a) <;> rfl

end Sys2Proof.Machine

/-! ## What no step writes, and what the host reads (O44, O47, O48) -/

namespace Sys2Proof.Machine

/-- Settles O47: IN and the parameters are in the frame, a `raise` keeps both, and Finish writes
neither. -/
theorem inputAndParametersAreNeverWritten : Obligations.InputAndParametersAreNeverWritten := by
  intro s t h
  obtain rfl | ⟨-, ⟨-, -, hcfg, hin, -⟩ | ⟨e, u, -, ⟨-, -, hcfg, hin, -⟩, rfl⟩ |
    ⟨-, -, m, -, rfl⟩⟩ := step_cases h
  · exact ⟨rfl, rfl⟩
  · exact ⟨hin, hcfg⟩
  · exact ⟨hin, hcfg⟩
  · exact ⟨rfl, rfl⟩

/-- Settles O48: OUT is in the frame, a `raise` drops it, and Finish keeps it. -/
theorem outIsAppendOnly : Obligations.OutIsAppendOnly := by
  intro s t h
  obtain rfl | ⟨-, ⟨-, -, -, -, hout⟩ | ⟨e, u, -, -, rfl⟩ | ⟨-, -, m, -, rfl⟩⟩ := step_cases h
  · exact .inl rfl
  · exact hout.imp_right .inr
  · exact .inr (.inl ⟨rfl, rfl⟩)
  · exact .inl rfl

/-- While the engine is not BUSY, the host reads a register's value (45_decoder_top.md R178). -/
theorem hostReadReg_of_not_busy {s : State} (h : s.status ≠ .busy) (r : HostReg) :
    hostReadReg r s = s.hostRegValue r := if_neg fun hbusy => h hbusy.1

/-- A register that can be at ⊥ reads as its value, or faults (10_state.md R32). -/
theorem hostReadReg_of_option {s : State} (h : s.status ≠ .busy) {r : HostReg} {reg : Reg}
    {o : Option Nat} (hr : s.hostRegValue r = hostValue reg o) :
    (∀ v, o = some v → hostReadReg r s = .next v) ∧
      (o = none → hostReadReg r s = .fault (.noValue reg)) := by
  rw [hostReadReg_of_not_busy h, hr]
  exact ⟨by rintro v rfl; rfl, by rintro rfl; rfl⟩

/-- Settles O44: STATUS first; then BUSY, where every other read is refused; then the registers one by
one, and OUT in each STATUS. -/
theorem hostReadsOnlyWhatIsValid : Obligations.HostReadsOnlyWhatIsValid := by
  intro s
  refine ⟨if_neg fun h => h.2 rfl, fun hb => ⟨fun r hr => if_pos ⟨hb, hr⟩, ?_⟩, fun hb => ?_,
    fun m hs hm => ?_, fun hs => ?_, fun hs => ?_⟩
  · rw [hostReadOut, hb]
  · obtain ⟨hbyte, hbyte0⟩ := hostReadReg_of_option hb (r := .errByte) rfl
    obtain ⟨hbit, hbit0⟩ := hostReadReg_of_option hb (r := .errBit) rfl
    obtain ⟨hblock, hblock0⟩ := hostReadReg_of_option hb (r := .errBlock) rfl
    obtain ⟨hlen, hlen0⟩ := hostReadReg_of_option hb (r := .outLen) rfl
    obtain ⟨hcons, hcons0⟩ := hostReadReg_of_option hb (r := .consumed) rfl
    exact ⟨hostReadReg_of_not_busy hb .errCode, hbyte, hbyte0, hbit, hbit0, hblock, hblock0, hlen,
      hlen0, hcons, hcons0⟩
  · rw [hostReadOut, hs, hm]
    rfl
  · rw [hostReadOut, hs]
  · rw [hostReadOut, hs]

end Sys2Proof.Machine

/-! ## What a step of a busy engine can do (O51, O54)

From a state of the invariant with STATUS = BUSY, a step is one of the moves of `State.Moves`: each
says what it needs of the state and gives the whole next state. What every step keeps, that a step
completes, and how many steps a decode takes are then read off the moves. -/

namespace Sys2Proof.Machine

/-! ### The cursor -/

/-- The front end `g` is `f` with its cursor at the same or a later stream bit, still within IN
(10_state.md R21). -/
def Front.Later (f g : Front) : Prop := g.input = f.input ∧ (f.ok → g.ok ∧ f.pos ≤ g.pos)

theorem Front.Later.refl (f : Front) : f.Later f := ⟨rfl, fun h => ⟨h, Nat.le_refl _⟩⟩

theorem Front.Later.trans {f g k : Front} (hfg : f.Later g) (hgk : g.Later k) : f.Later k := by
  obtain ⟨hin, hpos⟩ := hfg
  obtain ⟨hin', hpos'⟩ := hgk
  refine ⟨hin'.trans hin, fun h => ?_⟩
  obtain ⟨hok, hle⟩ := hpos h
  obtain ⟨hok', hle'⟩ := hpos' hok
  exact ⟨hok', Nat.le_trans hle hle'⟩

theorem Front.Later.ok {f g : Front} (hfg : f.Later g) (h : f.ok) : g.ok := (hfg.2 h).1

theorem Front.later_advance {f : Front} {n : Nat} (hn : n ≤ f.bitsRemaining) :
    f.Later (f.advance n) :=
  ⟨rfl, fun h => ⟨h.advance hn, by rw [Front.pos_advance]; omega⟩⟩

theorem Front.later_alignToByte (f : Front) : f.Later f.alignToByte := by
  refine ⟨Front.alignToByte_input rfl, fun h => ?_⟩
  obtain ⟨-, -, hok, hle, -⟩ := alignToByteMovesForwardToAByte f h
  exact ⟨hok, hle⟩

/-! ### The invariant, read -/

section
variable {s : State}

theorem State.phaseInv_readHeader (hp : s.phase = .readHeader) : s.phaseInv ↔
    s.tablesBottom ∧ s.dynBottom ∧ s.length = none ∧
      ((s.blockIndex = 0 ∧ s.bfinal = none ∧ s.btype = none) ∨
        (1 ≤ s.blockIndex ∧ s.bfinal = some 0 ∧ HasValue (fun b => b ≤ 2) s.btype)) := by
  simp only [State.phaseInv, hp]

theorem State.phaseInv_stored (hp : s.phase = .stored) : s.phaseInv ↔
    s.tablesBottom ∧ s.dynBottom ∧ s.length = none ∧ s.btype = some 0 := by
  simp only [State.phaseInv, hp]

theorem State.phaseInv_fixed (hp : s.phase = .fixed) : s.phaseInv ↔
    s.tablesBottom ∧ s.dynBottom ∧ s.length = none ∧ s.btype = some 1 := by
  simp only [State.phaseInv, hp]

theorem State.phaseInv_dynamic (hp : s.phase = .dynamic) : s.phaseInv ↔
    s.tablesBottom ∧ (s.dynBottom ∨ s.dynOpen) ∧ s.length = none ∧ s.btype = some 2 := by
  simp only [State.phaseInv, hp]

theorem State.phaseInv_decoding (hp : s.phase = .decoding) : s.phaseInv ↔
    s.tablesBuilt ∧ s.dynBottom ∧ BottomOr (fun n => minMatch ≤ n ∧ n ≤ maxMatch) s.length ∧
      (s.btype = some 1 ∨ s.btype = some 2) := by
  simp only [State.phaseInv, hp]

theorem State.phaseInv_blockDone (hp : s.phase = .blockDone) : s.phaseInv ↔
    s.dynBottom ∧ s.length = none ∧
      ((s.btype = some 0 ∧ s.tablesBottom) ∨
        ((s.btype = some 1 ∨ s.btype = some 2) ∧ s.tablesBuilt)) := by
  simp only [State.phaseInv, hp]

theorem State.phaseInv_halt (hp : s.phase = .halt) : s.phaseInv ↔
    s.tablesBottom ∧ s.dynBottom ∧ s.length = none := by
  simp only [State.phaseInv, hp]

variable (hs : s.Inv)
include hs

theorem State.Inv.of_not_busy (hb : s.status ≠ .busy) :
    s.phase = .halt ∧ s.tablesBottom ∧ s.dynBottom ∧ s.length = none := by
  have hhalt : s.phase = .halt := by
    have hstatus := hs.status
    unfold State.statusInv at hstatus
    split at hstatus
    · exact hstatus.1
    · exact absurd ‹_› hb
    · exact hstatus.1
    · exact hstatus.1
  exact ⟨hhalt, (State.phaseInv_halt hhalt).mp hs.phase⟩

variable (hb : s.status = .busy)
include hb

theorem State.Inv.busy : s.phase ≠ .halt ∧ s.errCode = .noError ∧ s.errByte = none ∧
    s.errBit = none ∧ s.errBlock = none ∧ s.outLen = none ∧ s.consumed = none ∧ s.out ≠ none ∧
    s.toFront.ok ∧ (s.phase ≠ .readHeader → HasValue (fun f => f ≤ 1) s.bfinal) := by
  have hstatus := hs.status
  simpa only [State.statusInv, hb] using hstatus

theorem State.Inv.ok : s.toFront.ok := by
  obtain ⟨-, -, -, -, -, -, -, -, hok, -⟩ := hs.busy hb
  exact hok

theorem State.Inv.exists_out : ∃ m, s.out = some m ∧ m.wf = true ∧ withinCap s.cfg m.size := by
  obtain ⟨-, -, -, -, -, -, -, hout, -⟩ := hs.busy hb
  obtain ⟨m, hm⟩ := Option.ne_none_iff_exists'.mp hout
  have hwf := hs.outWf
  rw [hm] at hwf
  exact ⟨m, hm, hwf⟩

theorem State.Inv.exists_bfinal (hp : s.phase ≠ .readHeader) : ∃ f, s.bfinal = some f ∧ f ≤ 1 := by
  obtain ⟨-, -, -, -, -, -, -, -, -, hfinal⟩ := hs.busy hb
  have hf := hfinal hp
  cases hbf : s.bfinal with
  | none => rw [hbf] at hf; exact hf.elim
  | some f => rw [hbf] at hf; exact ⟨f, rfl, hf⟩

end

/-! ### The moves -/

/-- A block type that has a body, and the PHASE of the body (44_block_decoder.md R103 to R105). -/
def HasBody (btype : Nat) (body : Phase) : Prop :=
  (btype = 0 ∧ body = .stored) ∨ (btype = 1 ∧ body = .fixed) ∨ (btype = 2 ∧ body = .dynamic)

/-- The state whose dynamic header registers are written up to an empty LENS (43_dynamic_header.md R90
to R94). -/
def State.withSequence (a b c : Nat) (L : List Nat) (T : HuffmanTable) (s : State) : State :=
  { (s.withCounts a b c).withClLens L with clTable := some T, lens := some [] }

/-- A symbol's bits, and the bits of its field if any: at least one bit, all of them there. -/
def State.Consumes (s : State) (n : Nat) : Prop := 1 ≤ n ∧ n ≤ s.toFront.bitsRemaining

/-- What one step of a busy engine can do, move by move. -/
inductive State.Moves (s : State) : Host.Outcome State Fault Refusal → Prop
  /-- An error is taken, after any bits and any trace event (60_exceptions.md R198). -/
  | error (e : ErrCode) (f : Front) (log : List TraceEvent) (he : e ≠ .noError)
      (hf : s.toFront.Later f) (hp : s.phase ≠ .blockDone) :
      s.Moves (.next ({ s.withFront f with traceLog := log }.raise e))
  /-- A write past OUT_CAP (00_scope.md R11). -/
  | stuck (cap : Nat) (hcap : s.cfg.outCap = some cap) (hp : s.phase ≠ .blockDone) :
      s.Moves (.fault .outCapStuck)
  /-- A block header that has a body (44_block_decoder.md R102). -/
  | header (bfinal btype : Nat) (body : Phase) (hp : s.phase = .readHeader)
      (hn : 3 ≤ s.toFront.bitsRemaining) (hb : bfinal ≤ 1) (ht : HasBody btype body) :
      s.Moves (.next { (s.withFront (s.toFront.advance 3)).withHeader bfinal btype with phase := body })
  /-- A stored body, which ends its block (44_block_decoder.md R107). -/
  | storedBody (m : Memory) (bs : List Byte) (p : Nat) (hp : s.phase = .stored) (hm : s.out = some m)
      (hc : withinCap s.cfg (m.size + bs.length)) (hf : s.toFront.Later (s.toFront.atByte p))
      (hn : s.toFront.pos + 32 ≤ (s.toFront.atByte p).pos) :
      s.Moves (.next { s.withFront (s.toFront.atByte p) with
        out := some (m.appendAll bs), phase := .blockDone })
  /-- The fixed tables (44_block_decoder.md R108). -/
  | fixedTables (hp : s.phase = .fixed) :
      s.Moves (.next { s with
        litTable := some fixedLit, distTable := some fixedDist, phase := .decoding })
  /-- The counts and CL_TABLE of a dynamic header (43_dynamic_header.md R90 to R94). -/
  | sequence (n a b c : Nat) (L : List Nat) (T : HuffmanTable) (hp : s.phase = .dynamic)
      (hcl : s.clTable = none) (hn : s.Consumes n) (ha : 257 ≤ a ∧ a ≤ 288) (hb : 1 ≤ b ∧ b ≤ 32)
      (hc : 4 ≤ c ∧ c ≤ 19) (hL : L.length = 19 ∧ ∀ v ∈ L, v ≤ 7) (hT : build L = some T) :
      s.Moves (.next ((s.withFront (s.toFront.advance n)).withSequence a b c L T))
  /-- A code-length symbol (43_dynamic_header.md R95 to R98). -/
  | lengths (n a b : Nat) (L ls : List Nat) (hp : s.phase = .dynamic) (hcl : s.clTable ≠ none)
      (hn : s.Consumes n) (ha : s.hlit = some a) (hb : s.hdist = some b) (hL : s.lens = some L)
      (hne : 1 ≤ ls.length) (hfit : L.length + ls.length ≤ a + b) (hle : ∀ v ∈ ls, v ≤ 15) :
      s.Moves (.next { s.withFront (s.toFront.advance n) with lens := some (L ++ ls) })
  /-- The end of a dynamic header (43_dynamic_header.md R100). -/
  | tables (lit dist : HuffmanTable) (hp : s.phase = .dynamic) (hcl : s.clTable ≠ none)
      (hlit : BuiltFor litLenSymbols lit) (hdist : BuiltFor distSymbols dist) :
      s.Moves (.next (s.withTables lit dist))
  /-- A literal (44_block_decoder.md R110). -/
  | literal (n : Nat) (m : Memory) (v : Byte) (hp : s.phase = .decoding) (hlen : s.length = none)
      (hn : s.Consumes n) (hm : s.out = some m) (hc : withinCap s.cfg (m.size + 1)) :
      s.Moves (.next { s.withFront (s.toFront.advance n) with out := some (m.append v) })
  /-- EOB (44_block_decoder.md R111). -/
  | endOfBlock (n : Nat) (hp : s.phase = .decoding) (hlen : s.length = none) (hn : s.Consumes n) :
      s.Moves (.next { s.withFront (s.toFront.advance n) with phase := .blockDone })
  /-- A length symbol (44_block_decoder.md R113). -/
  | length (n v : Nat) (hp : s.phase = .decoding) (hlen : s.length = none) (hn : s.Consumes n)
      (hv : minMatch ≤ v ∧ v ≤ maxMatch) :
      s.Moves (.next { s.withFront (s.toFront.advance n) with length := some v })
  /-- A distance symbol and its copy (44_block_decoder.md R113, R115). -/
  | copy (n : Nat) (m : Memory) (bs : List Byte) (hp : s.phase = .decoding) (hlen : s.length ≠ none)
      (hn : s.Consumes n) (hm : s.out = some m) (hc : withinCap s.cfg (m.size + bs.length)) :
      s.Moves (.next { s.withFront (s.toFront.advance n) with
        out := some (m.appendAll bs), length := none, distance := none })
  /-- The end of a block that is not final (45_decoder_top.md R181). -/
  | nextBlock (hp : s.phase = .blockDone) (hf : s.bfinal = some 0) :
      s.Moves (.next { s with
        litTable := none, distTable := none, blockIndex := s.blockIndex + 1, phase := .readHeader })
  /-- Finish (45_decoder_top.md R182). -/
  | finish (m : Memory) (hp : s.phase = .blockDone) (hf : s.bfinal = some 1) (hm : s.out = some m) :
      s.Moves (.next (s.finished m))

/-- A block header, by its two fields (30_encoding.md R56). -/
theorem headerInstr_of_fields : ∀ b, b ≤ 1 → ∀ t, t ≤ 3 → headerInstr (b + (t <<< 1)) =
    [Instr.blockStored b, .blockFixed b, .blockDynamic b, .blockReserved b][t]? := by decide

section
variable {s : State}

/-- An error at a later cursor with the trace as it was. -/
theorem State.Moves.raise {e : ErrCode} {f : Front} (he : e ≠ .noError) (hf : s.toFront.Later f)
    (hp : s.phase ≠ .blockDone) : s.Moves (.next ((s.withFront f).raise e)) :=
  .error e f s.traceLog he hf hp

theorem State.Moves.raise_advance {e : ErrCode} {n : Nat} (he : e ≠ .noError)
    (hn : n ≤ s.toFront.bitsRemaining) (hp : s.phase ≠ .blockDone) :
    s.Moves (.next ((s.withFront (s.toFront.advance n)).raise e)) :=
  .raise he (Front.later_advance hn) hp

/-- The step of an element, by what the fetch can do: an element at a place of the map that its
selector can give, or an error. -/
theorem step_element_moves {sel : Selector} (ha : s.action = .element sel) (hsel : sel.built)
    (h : s.toFront.ok) (hacc : s.accCode = none ∧ s.accLen = none) (hp : s.phase ≠ .blockDone)
    (hexec : ∀ row i n, n ≤ s.toFront.bitsRemaining → Gives sel row n → row.instr = some i →
      s.Moves (exec i (s.withFront (s.toFront.advance n)))) : s.Moves (step s) := by
  obtain ⟨row, i, n, hn, hgives, hi, e⟩ | ⟨e, n, he, hn, hf⟩ := fetch_cases h hacc hsel
  · rw [step_element ha e]
    exact hexec row i n hn hgives hi
  · rw [step_element_stop ha hf]
    refine .raise_advance ?_ hn hp
    obtain rfl | rfl := he <;> nofun

variable (hs : s.Inv) (hb : s.status = .busy)
include hs hb

/-! ### The moves of each PHASE -/

theorem step_moves_readHeader (hp : s.phase = .readHeader) : s.Moves (step s) := by
  refine step_element_moves (State.action_of_readHeader hb hp) trivial (hs.ok hb) hs.accBottom
    (by rw [hp]; nofun) fun row i n hn hgives hi => ?_
  cases hgives with
  | header b t hb1 ht =>
    rw [OpcodeRow.instr, headerInstr_of_fields b hb1 t ht] at hi
    match t, ht, hi with
    | 0, _, hi =>
      cases hi
      rw [exec_blockStored, startBody_eq]
      exact .header b 0 .stored hp hn hb1 (.inl ⟨rfl, rfl⟩)
    | 1, _, hi =>
      cases hi
      rw [exec_blockFixed, startBody_eq]
      exact .header b 1 .fixed hp hn hb1 (.inr (.inl ⟨rfl, rfl⟩))
    | 2, _, hi =>
      cases hi
      rw [exec_blockDynamic, startBody_eq]
      exact .header b 2 .dynamic hp hn hb1 (.inr (.inr ⟨rfl, rfl⟩))
    | 3, _, hi =>
      cases hi
      rw [exec_blockReserved, State.setHeader_eq_withHeader]
      exact .error .reservedBlockType _ _ nofun (Front.later_advance hn) (by rw [hp]; nofun)

theorem step_moves_stored (hp : s.phase = .stored) : s.Moves (step s) := by
  have h := hs.ok hb
  have hne : s.phase ≠ .blockDone := by rw [hp]; nofun
  have hlater := s.toFront.later_alignToByte
  obtain ⟨m, hm, -, hcap⟩ := hs.exists_out hb
  obtain ⟨hok, h0, -, hin, -⟩ := Front.alignToByte_spec h
  obtain ⟨hlen, hnlen, hmismatch, hdata⟩ := storedBodyErrorsInOrder s _ _ _ h rfl rfl rfl
  rw [step_element (State.action_of_stored hb hp) (fetch_of_ok (i := .storedBody) rfl),
    State.withFront_self]
  by_cases h16 : s.toFront.alignToByte.bitsRemaining < 16
  · rw [hlen h16]
    exact .raise nofun hlater hne
  by_cases h32 : s.toFront.alignToByte.bitsRemaining < 32
  · rw [hnlen (by omega) h32]
    exact .raise nofun (hlater.trans (Front.later_advance (by omega))) hne
  have hlater32 := hlater.trans (Front.later_advance (n := 32) (by omega))
  by_cases hcomp : (s.toFront.alignToByte.advance 16).peek 16 =
      s.toFront.alignToByte.peek 16 ^^^ 0xFFFF
  · by_cases hfit : s.input.size < s.toFront.alignToByte.curByte + 4 + s.toFront.alignToByte.peek 16
    · rw [hdata (by omega) hcomp hfit]
      exact .raise nofun hlater32 hne
    · have hfit := Nat.le_of_not_lt hfit
      have hpos : s.toFront.pos + 32 ≤ (s.toFront.atByte (s.toFront.alignToByte.curByte + 4 +
          s.toFront.alignToByte.peek 16)).pos := by
        obtain ⟨-, hle⟩ := hlater.2 h
        rw [Front.pos, Front.pos, h0] at hle
        simp only [Front.pos, Front.atByte]
        omega
      rw [exec_storedBody_data hfit h rfl rfl hcomp]
      obtain ⟨hc, e⟩ | ⟨⟨cap, hcap, -⟩, e⟩ := appendBytes_cases (s := s.withFront
          (s.toFront.atByte (s.toFront.alignToByte.curByte + 4 + s.toFront.alignToByte.peek 16))) hm
          (s.storedBytes s.toFront.alignToByte.curByte (s.toFront.alignToByte.peek 16))
      · rw [e]
        refine .storedBody m _ _ hp hm ?_ ⟨rfl, fun _ => ⟨⟨h.inputWf, hfit, Nat.zero_lt_succ 7,
          fun hbit => absurd rfl hbit⟩, by omega⟩⟩ hpos
        obtain hnil | hc := hc
        · rw [hnil]
          exact hcap
        · exact hc
      · rw [e]
        exact .stuck cap hcap hne
  · rw [hmismatch (by omega) hcomp]
    exact .raise nofun hlater32 hne

omit hs in
theorem step_moves_fixed (hp : s.phase = .fixed) : s.Moves (step s) := by
  rw [step_element (State.action_of_fixed hb hp) (fetch_of_ok (i := .fixedTables) rfl)]
  exact .fixedTables hp

end

/-- The kinds of code-length symbols (30_encoding.md R66). -/
theorem clInstr_cases {c : Nat} {i : Instr} (h : clInstr c = some i) :
    (i = .clLen c ∧ c ≤ 15) ∨ i = .clRep16 ∨ i = .clZero17 ∨ i = .clZero18 := by
  unfold clInstr at h
  split at h
  · cases h; exact .inl ⟨rfl, ‹_›⟩
  split at h
  · cases h; exact .inr (.inl rfl)
  split at h
  · cases h; exact .inr (.inr (.inl rfl))
  split at h
  · cases h; exact .inr (.inr (.inr rfl))
  · cases h

/-- CL_LENS of a header: 19 values of 3 bits (43_dynamic_header.md R92). -/
theorem headerClLens_range (f : Front) (c : Nat) :
    (headerClLens f c).length = 19 ∧ ∀ v ∈ headerClLens f c, v ≤ 7 := by
  refine ⟨by rw [headerClLens, List.length_map, List.length_range]; rfl, fun v hv => ?_⟩
  obtain ⟨k, -, rfl⟩ := List.mem_map.mp hv
  split
  · exact Nat.le_of_lt_succ (Front.peek_lt 3 _)
  · exact Nat.zero_le 7

section
variable {s : State} (h : s.toFront.ok) (hb : s.status = .busy) (hp : s.phase = .dynamic)
include h hb hp

theorem step_moves_dynHeader (hcl : s.clTable = none) : s.Moves (step s) := by
  have hne : s.phase ≠ .blockDone := by rw [hp]; nofun
  obtain ⟨hall, h5, h10, h14, hlens⟩ := dynHeaderReadsCountsAndClTable s _ _ _ _ _ _ _ _ rfl h rfl rfl
    rfl rfl rfl rfl rfl
  rw [step_element (State.action_of_dynamic hb hp hcl) (fetch_of_ok (i := .dynHeader) rfl),
    State.withFront_self]
  have ha := Front.peek_lt 5 s.toFront
  have hd := Front.peek_lt 5 (s.toFront.advance 5)
  have hc := Front.peek_lt 4 (s.toFront.advance 10)
  by_cases hr5 : s.toFront.bitsRemaining < 5
  · rw [h5 hr5]
    exact .raise (f := s.toFront) nofun (Front.Later.refl _) hne
  by_cases hr10 : s.toFront.bitsRemaining < 10
  · rw [h10 (by omega) hr10]
    exact .raise_advance nofun (by omega) hne
  by_cases hr14 : s.toFront.bitsRemaining < 14
  · rw [h14 (by omega) hr14]
    exact .raise_advance nofun (by omega) hne
  by_cases hr : s.toFront.bitsRemaining < 14 + 3 * (4 + (s.toFront.advance 10).peek 4)
  · rw [hlens (by omega) hr]
    exact .error _ _ _ nofun (Front.later_advance (by omega)) hne
  obtain ⟨hsome, hnone⟩ := hall (Nat.le_of_not_lt hr)
  cases hT : build (headerClLens (s.toFront.advance 14) (4 + (s.toFront.advance 10).peek 4)) with
  | none =>
    rw [hnone hT]
    exact .error _ _ _ nofun (Front.later_advance (Nat.le_of_not_lt hr)) hne
  | some T =>
    rw [hsome T hT]
    exact .sequence _ _ _ _ _ T hp hcl ⟨by omega, Nat.le_of_not_lt hr⟩ (by omega) (by omega)
      (by omega) (headerClLens_range _ _) hT

variable {a b : Nat} {L : List Nat} {T : HuffmanTable} (hcl : s.clTable = some T)
  (ha : s.hlit = some a) (hd : s.hdist = some b) (hL : s.lens = some L)
include hcl ha hd hL

omit h hb in
/-- A code-length symbol that appends a run, by the three endings of the run (43_dynamic_header.md R96
to R99). -/
theorem moves_of_run {i : Instr} {n base extra v : Nat} (hn1 : 1 ≤ n)
    (hn : n ≤ s.toFront.bitsRemaining) (hbase : 1 ≤ base) (hv : v ≤ 15) {u : State}
    (hu : u = s.withFront (s.toFront.advance n))
    (hruns : (u.toFront.bitsRemaining < extra → exec i u = .next (u.raise .unexpectedEof)) ∧
      (extra ≤ u.toFront.bitsRemaining → a + b < L.length + (base + u.toFront.peek extra) →
        exec i u = .next ((u.withFront (u.toFront.advance extra)).raise .invalidDynamicHeader)) ∧
      (extra ≤ u.toFront.bitsRemaining → L.length + (base + u.toFront.peek extra) ≤ a + b →
        exec i u = .next { u.withFront (u.toFront.advance extra) with
          lens := some (L ++ List.replicate (base + u.toFront.peek extra) v) })) :
    s.Moves (exec i u) := by
  subst hu
  have hne : s.phase ≠ .blockDone := by rw [hp]; nofun
  obtain ⟨heof, hover, hfits⟩ := hruns
  simp only [State.withFront_toFront, Front.bitsRemaining_advance,
    Front.advance_advance] at heof hover hfits
  by_cases hx : extra ≤ s.toFront.bitsRemaining - n
  · by_cases hfit : L.length + (base + (s.toFront.advance n).peek extra) ≤ a + b
    · rw [hfits hx hfit]
      refine .lengths (n + extra) a b L _ hp (by rw [hcl]; nofun) ⟨by omega, by omega⟩ ha hd hL ?_ ?_ ?_
      · rw [List.length_replicate]
        omega
      · rw [List.length_replicate]
        exact hfit
      · intro w hw
        rw [List.eq_of_mem_replicate hw]
        exact hv
    · rw [hover hx (Nat.lt_of_not_le hfit)]
      exact .raise_advance nofun (by omega) hne
  · rw [heof (Nat.lt_of_not_le hx)]
    exact .raise_advance nofun hn hne

theorem step_moves_clSym (hacc : s.accCode = none ∧ s.accLen = none) (hT : BuiltFor clSymbols T)
    (hL15 : ∀ v ∈ L, v ≤ 15) (hlt : L.length < a + b) : s.Moves (step s) := by
  have hne : s.phase ≠ .blockDone := by rw [hp]; nofun
  have haction : s.action = .element (.clSym T) := by
    rw [State.action_of_sequence hb hp hcl ha hd hL, if_pos hlt]
  refine step_element_moves haction hT h hacc hne fun row i n hn hgives hi => ?_
  have hok := h.advance hn
  cases hgives with
  | clSym _ e _ h1 =>
    have hzero := clZeroRunsAppendZeros (s.withFront (s.toFront.advance e.len)) L a b hok hL ha hd
    obtain ⟨hempty, hrep⟩ :=
      clRep16RepeatsThePreviousLength (s.withFront (s.toFront.advance e.len)) L a b hok hL ha hd
    obtain ⟨rfl, hc⟩ | rfl | rfl | rfl := clInstr_cases hi
    · rw [exec_clLen_of_lens (s := s.withFront (s.toFront.advance e.len)) hL]
      exact .lengths e.len a b L [e.sym] hp (by rw [hcl]; nofun) ⟨h1, hn⟩ ha hd hL (Nat.le_refl 1)
        hlt (by simpa using hc)
    · cases hlast : L.getLast? with
      | none =>
        rw [hempty (List.getLast?_eq_none_iff.mp hlast)]
        exact .raise_advance nofun hn hne
      | some v =>
        exact moves_of_run hp hcl ha hd hL h1 hn (by decide) (hL15 v (List.mem_of_getLast? hlast)) rfl
          (hrep v hlast)
    · exact moves_of_run hp hcl ha hd hL h1 hn (by decide) (Nat.zero_le 15) rfl
        (hzero .clZero17 3 3 (by simp))
    · exact moves_of_run hp hcl ha hd hL h1 hn (by decide) (Nat.zero_le 15) rfl
        (hzero .clZero18 11 7 (by simp))

omit h in
theorem step_moves_dynEnd (ha288 : a ≤ 288) (hb32 : b ≤ 32) (hlen : L.length = a + b) :
    s.Moves (step s) := by
  have hne : s.phase ≠ .blockDone := by rw [hp]; nofun
  have haction : s.action = .dynEnd := by
    rw [State.action_of_sequence hb hp hcl ha hd hL, if_neg (by omega)]
  rw [step_dynEnd haction, dynEnd_eq ha hd hL hlen]
  split
  · next lit dist hlit hdist =>
    refine .tables lit dist hp (by rw [hcl]; nofun) ⟨_, ?_, hlit⟩ ⟨_, ?_, hdist⟩
    · rw [List.length_take]
      exact Nat.le_trans (Nat.min_le_left a _) ha288
    · rw [List.length_drop, hlen, Nat.add_sub_cancel_left]
      exact hb32
  · exact .raise (f := s.toFront) nofun (Front.Later.refl _) hne

end

theorem step_moves_dynamic {s : State} (hs : s.Inv) (hb : s.status = .busy)
    (hp : s.phase = .dynamic) : s.Moves (step s) := by
  have h := hs.ok hb
  obtain ⟨-, hbottom | hopen, -, -⟩ := (State.phaseInv_dynamic hp).mp hs.phase
  · obtain ⟨-, -, -, -, hcl, -⟩ := hbottom
    exact step_moves_dynHeader h hb hp hcl
  · obtain ⟨a, b, c, clLens, L, T, ha, hd, -, -, hL, hcl, ⟨-, ha288⟩, ⟨-, hb32⟩, -, ⟨hlen19, -⟩,
      ⟨hfit, hL15⟩, hT⟩ := hopen
    obtain hlt | hlen := Nat.lt_or_eq_of_le hfit
    · exact step_moves_clSym h hb hp hcl ha hd hL hs.accBottom ⟨clLens, Nat.le_of_eq hlen19, hT⟩ hL15
        hlt
    · exact step_moves_dynEnd hb hp hcl ha hd hL ha288 hb32 hlen

/-! ### The two alphabets of a block -/

/-- The kinds of literal/length symbols (30_encoding.md R66). -/
theorem litLenInstr_cases {sym : Nat} {i : Instr} (h : litLenInstr sym = some i) :
    i = .lit sym ∨ i = .eob ∨
    (∃ k base extra : Nat, lengthInstrs[k]? = some i ∧ lenBase[k]? = some base ∧
      lenExtra[k]? = some extra) ∨ i = .litlenReserved286 ∨ i = .litlenReserved287 := by
  unfold litLenInstr at h
  split at h
  · cases h; exact .inl rfl
  split at h
  · cases h; exact .inr (.inl rfl)
  by_cases hk : sym - 257 < 29
  · obtain ⟨base, extra, hb, he, -⟩ := lenTable_range _ hk
    exact .inr (.inr (.inl ⟨_, base, extra, h, hb, he⟩))
  · obtain ⟨hlt, -⟩ := List.getElem?_eq_some_iff.mp h
    have hlt : sym - 257 < 31 := hlt
    obtain hk | hk : sym - 257 = 29 ∨ sym - 257 = 30 := by omega
    · rw [hk] at h; cases h; exact .inr (.inr (.inr (.inl rfl)))
    · rw [hk] at h; cases h; exact .inr (.inr (.inr (.inr rfl)))

/-- The kinds of distance symbols (30_encoding.md R66). -/
theorem distInstr_cases {d : Nat} {i : Instr} (h : distInstr d = some i) :
    (∃ base extra : Nat, distInstrs[d]? = some i ∧ distBase[d]? = some base ∧
      distExtra[d]? = some extra) ∨ i = .distReserved30 ∨ i = .distReserved31 := by
  by_cases hk : d < 30
  · obtain ⟨base, extra, hb, he, -⟩ := distTable_range _ hk
    exact .inl ⟨base, extra, h, hb, he⟩
  · obtain ⟨hlt, -⟩ := List.getElem?_eq_some_iff.mp h
    have hlt : d < 32 := hlt
    obtain rfl | rfl : d = 30 ∨ d = 31 := by omega
    · cases h; exact .inr (.inl rfl)
    · cases h; exact .inr (.inr rfl)

section
variable {s : State} (hs : s.Inv) (hb : s.status = .busy) (hp : s.phase = .decoding)
include hs hb hp

theorem step_moves_litLen {T : HuffmanTable} (hlen : s.length = none) (hT : s.litTable = some T)
    (hbuilt : BuiltFor litLenSymbols T) : s.Moves (step s) := by
  have h := hs.ok hb
  have hne : s.phase ≠ .blockDone := by rw [hp]; nofun
  obtain ⟨m, hm, -, -⟩ := hs.exists_out hb
  refine step_element_moves (State.action_of_litLen hb hp hlen hT) hbuilt h hs.accBottom hne
    fun row i n hn hgives hi => ?_
  cases hgives with
  | litLen _ e _ h1 =>
    obtain rfl | rfl | ⟨k, base, extra, hk, hbase, hextra⟩ | rfl | rfl := litLenInstr_cases hi
    · rw [exec_lit]
      obtain ⟨hc, eq⟩ | ⟨⟨cap, hcap, -⟩, eq⟩ :=
        memWriteOut_cases (s := s.withFront (s.toFront.advance e.len)) hm (literalByte e.sym)
      · rw [eq]; exact .literal _ m _ hp hlen ⟨h1, hn⟩ hm hc
      · rw [eq]; exact .stuck cap hcap hne
    · exact .endOfBlock _ hp hlen ⟨h1, hn⟩
    · obtain ⟨hx5, hmin, hmax⟩ := lenTable_row hbase hextra
      have hx := Front.peek_lt extra (s.toFront.advance e.len)
      rw [exec_lengthInstr hk hbase hextra]
      obtain ⟨hle, eq⟩ | ⟨hlt, eq⟩ := lengthSymbol_cases (s := s.withFront (s.toFront.advance e.len))
        (h.advance hn) base (show extra ≤ 16 by omega)
      · rw [eq]
        simp only [State.withFront_toFront, Front.bitsRemaining_advance, Front.advance_advance] at hle ⊢
        exact .length (e.len + extra) _ hp hlen ⟨by omega, by omega⟩ ⟨by omega, by omega⟩
      · rw [eq]; exact .raise_advance nofun hn hne
    · exact .raise_advance nofun hn hne
    · exact .raise_advance nofun hn hne

theorem step_moves_dist {T : HuffmanTable} {n : Nat} (hlen : s.length = some n)
    (hT : s.distTable = some T) (hbuilt : BuiltFor distSymbols T) : s.Moves (step s) := by
  have h := hs.ok hb
  have hne : s.phase ≠ .blockDone := by rw [hp]; nofun
  obtain ⟨m, hm, hw, hcap⟩ := hs.exists_out hb
  refine step_element_moves (State.action_of_dist hb hp hlen hT) hbuilt h hs.accBottom hne
    fun row i c hn hgives hi => ?_
  cases hgives with
  | dist _ e _ h1 =>
    obtain ⟨base, extra, hk, hbase, hextra⟩ | rfl | rfl := distInstr_cases hi
    · obtain ⟨hx13, hbase1⟩ := distTable_row hbase hextra
      rw [exec_distInstr hk hbase hextra]
      obtain ⟨-, eq⟩ | ⟨hle, -, eq⟩ | ⟨hle, -, hc, eq⟩ | ⟨-, -, ⟨cap, hcap, -⟩, eq⟩ :=
        distanceSymbol_cases (s := s.withFront (s.toFront.advance e.len)) (h.advance hn) hm hw hlen
          hbase1 (show extra ≤ 16 by omega)
      · rw [eq]; exact .raise_advance nofun hn hne
      · rw [eq]
        simp only [State.withFront_toFront, Front.bitsRemaining_advance, Front.advance_advance] at hle ⊢
        exact .raise_advance nofun (by omega) hne
      · rw [eq]
        simp only [State.withFront_toFront, Front.bitsRemaining_advance, Front.advance_advance] at hle ⊢
        refine .copy (e.len + extra) m _ hp (by rw [hlen]; nofun) ⟨by omega, by omega⟩ hm ?_
        rw [length_copied]
        obtain rfl | hc := hc
        · exact hcap
        · exact hc
      · rw [eq]; exact .stuck cap hcap hne
    · exact .raise_advance nofun hn hne
    · exact .raise_advance nofun hn hne

theorem step_moves_decoding : s.Moves (step s) := by
  obtain ⟨⟨hlit, hdist⟩, -⟩ := (State.phaseInv_decoding hp).mp hs.phase
  cases hlen : s.length with
  | none =>
    cases hT : s.litTable with
    | none => rw [hT] at hlit; exact hlit.elim
    | some T => rw [hT] at hlit; exact step_moves_litLen hs hb hp hlen hT hlit
  | some n =>
    cases hT : s.distTable with
    | none => rw [hT] at hdist; exact hdist.elim
    | some T => rw [hT] at hdist; exact step_moves_dist hs hb hp hlen hT hdist

end

theorem step_moves_blockDone {s : State} (hs : s.Inv) (hb : s.status = .busy)
    (hp : s.phase = .blockDone) : s.Moves (step s) := by
  obtain ⟨m, hm, -, -⟩ := hs.exists_out hb
  obtain ⟨f, hf, hle⟩ := hs.exists_bfinal hb (by rw [hp]; nofun)
  rw [step_blockDone (State.action_of_blockDone hb hp)]
  match f, hle, hf with
  | 0, _, hf => rw [blockDone_notFinal hf Nat.zero_ne_one]; exact .nextBlock hp hf
  | 1, _, hf => rw [blockDone_final hf hm]; exact .finish m hp hf hm

/-- From a state of the invariant with STATUS = BUSY, a step is one of the moves
(45_decoder_top.md R180). -/
theorem step_moves {s : State} (hs : s.Inv) (hb : s.status = .busy) : s.Moves (step s) := by
  cases hp : s.phase with
  | readHeader => exact step_moves_readHeader hs hb hp
  | stored => exact step_moves_stored hs hb hp
  | fixed => exact step_moves_fixed hb hp
  | dynamic => exact step_moves_dynamic hs hb hp
  | decoding => exact step_moves_decoding hs hb hp
  | blockDone => exact step_moves_blockDone hs hb hp
  | halt =>
    obtain ⟨hne, -⟩ := hs.busy hb
    exact absurd hp hne

/-- Settles O54: an engine that is not busy stays as it is, and every move but one has a next state. -/
theorem engineAlwaysStepsOn : Obligations.EngineAlwaysStepsOn := by
  intro s hs
  by_cases hb : s.status = .busy
  · cases ho : step s with
    | next t => exact .inl ⟨t, rfl⟩
    | fault r =>
      have hmoves := ho ▸ step_moves hs hb
      cases hmoves with
      | stuck cap hcap => exact .inr ⟨rfl, cap, hcap⟩
    | refused r =>
      have hmoves := ho ▸ step_moves hs hb
      cases hmoves
  · exact .inl ⟨s, step_noStep (State.action_of_not_busy hb)⟩

end Sys2Proof.Machine

/-! ## The invariant along a run (O51 to O53)

A move that goes on leaves the host's registers alone (`State.SameHost`), so the clause of the
invariant for BUSY carries over, and what is left to see is the clause of the new PHASE. -/

namespace Sys2Proof.Machine

/-- The registers that the host sees, with the parameters: a step that goes on writes none of them
(10_state.md R30). -/
def State.SameHost (s t : State) : Prop :=
  t.status = s.status ∧ t.errCode = s.errCode ∧ t.errByte = s.errByte ∧ t.errBit = s.errBit ∧
    t.errBlock = s.errBlock ∧ t.outLen = s.outLen ∧ t.consumed = s.consumed ∧ t.cfg = s.cfg

theorem bottomOr_of_none {α : Type} {P : α → Prop} {o : Option α} (h : o = none) : BottomOr P o := by
  rw [h]
  trivial

theorem State.SameHost.of_fields {s t : State}
    (h : (t.status, t.errCode, t.errByte, t.errBit, t.errBlock, t.outLen, t.consumed, t.cfg) =
      (s.status, s.errCode, s.errByte, s.errBit, s.errBlock, s.outLen, s.consumed, s.cfg)) :
    s.SameHost t := by
  simpa only [State.SameHost, Prod.mk.injEq] using h

section
variable {s : State} (hs : s.Inv) (hb : s.status = .busy)
include hs hb

/-- The invariant after a move that goes on: the cursor further on in the same IN, OUT within OUT_CAP,
BFINAL and BTYPE in range, and the clause of the new PHASE. -/
theorem State.Inv.goes_on {t : State} (hhost : s.SameHost t) (hlater : s.toFront.Later t.toFront)
    (hacc : t.accCode = none ∧ t.accLen = none) (hdist : t.distance = none)
    (hout : HasValue (fun m => m.wf = true ∧ withinCap s.cfg m.size) t.out)
    (hfinal : BottomOr (fun f => f ≤ 1) t.bfinal) (htype : BottomOr (fun b => b ≤ 3) t.btype)
    (hhalt : t.phase ≠ .halt) (hbody : t.phase ≠ .readHeader → HasValue (fun f => f ≤ 1) t.bfinal)
    (hphase : t.phaseInv) : t.Inv := by
  obtain ⟨hstatus, herr, hbyte, hbit, hblock, houtLen, hconsumed, hcfg⟩ := hhost
  obtain ⟨-, herr', hbyte', hbit', hblock', houtLen', hconsumed', -, hok, -⟩ := hs.busy hb
  have hok' := hlater.ok hok
  refine ⟨hok'.inputWf, ?_, hacc, hdist, hfinal, htype, hphase, ?_⟩
  · cases hm : t.out with
    | none => trivial
    | some m => rw [hm] at hout; rw [hcfg]; exact hout
  · simp only [State.statusInv, hstatus.trans hb]
    refine ⟨hhalt, herr.trans herr', hbyte.trans hbyte', hbit.trans hbit', hblock.trans hblock',
      houtLen.trans houtLen', hconsumed.trans hconsumed', ?_, hok', hbody⟩
    intro hm
    rw [hm] at hout
    exact hout

/-- The invariant after an error (60_exceptions.md R198). -/
theorem State.Inv.raised {e : ErrCode} {f : Front} {log : List TraceEvent} (he : e ≠ .noError)
    (hf : s.toFront.Later f) : ({ s.withFront f with traceLog := log }.raise e).Inv := by
  obtain ⟨-, -, -, -, -, houtLen, hconsumed, -, hok, -⟩ := hs.busy hb
  have hok' := hf.ok hok
  exact ⟨hok'.inputWf, trivial, ⟨rfl, rfl⟩, rfl, trivial, trivial,
    ⟨⟨rfl, rfl⟩, ⟨rfl, rfl, rfl, rfl, rfl, rfl⟩, rfl⟩,
    ⟨rfl, he, rfl, rfl, Nat.le_of_lt_succ hok'.curBit_lt, rfl, houtLen, hconsumed, rfl, rfl, rfl⟩⟩

/-- OUT as it is, as the clause of `State.Inv.goes_on` asks for it. -/
theorem State.Inv.outHasValue : HasValue (fun m => m.wf = true ∧ withinCap s.cfg m.size) s.out := by
  obtain ⟨m, hm, hwf⟩ := hs.exists_out hb
  rw [hm]
  exact hwf

/-- OUT with more bytes, within OUT_CAP. -/
theorem State.Inv.appended {m : Memory} (hm : s.out = some m) {bs : List Byte}
    (hc : withinCap s.cfg (m.size + bs.length)) :
    (m.appendAll bs).wf = true ∧ withinCap s.cfg (m.appendAll bs).size := by
  obtain ⟨m', hm', hw, -⟩ := hs.exists_out hb
  obtain rfl : m' = m := Option.some.inj (hm'.symm.trans hm)
  exact ⟨Memory.wf_appendAll hw bs, by rwa [Memory.size_appendAll]⟩

/-- BFINAL in the body of a block, as the clause of `State.Inv.goes_on` asks for it. -/
theorem State.Inv.bfinalHasValue (hp : s.phase ≠ .readHeader) :
    HasValue (fun f => f ≤ 1) s.bfinal := by
  obtain ⟨f, hf, hle⟩ := hs.exists_bfinal hb hp
  rw [hf]
  exact hle

/-- `State.Inv.goes_on` for a move inside a block, which leaves BFINAL, BTYPE and DISTANCE. -/
theorem State.Inv.goes_on_in_block {t : State} (hp : s.phase ≠ .readHeader) (hhost : s.SameHost t)
    (hkept : (t.bfinal, t.btype, t.distance) = (s.bfinal, s.btype, s.distance))
    (hlater : s.toFront.Later t.toFront) (hacc : t.accCode = none ∧ t.accLen = none)
    (hout : HasValue (fun m => m.wf = true ∧ withinCap s.cfg m.size) t.out)
    (hhalt : t.phase ≠ .halt) (hphase : t.phaseInv) : t.Inv := by
  obtain ⟨hfinal, htype, hdist⟩ : t.bfinal = s.bfinal ∧ t.btype = s.btype ∧
    t.distance = s.distance := by simpa only [Prod.mk.injEq] using hkept
  exact hs.goes_on hb hhost hlater hacc (hdist.trans hs.distanceBottom) hout
    (hfinal ▸ hs.bfinalRange) (htype ▸ hs.btypeRange) hhalt
    (fun _ => hfinal ▸ hs.bfinalHasValue hb hp) hphase

/-- A header is followed by the body that BTYPE selects (44_block_decoder.md R102). -/
theorem State.Inv.after_header {b ty : Nat} {body : Phase} (hp : s.phase = .readHeader)
    (hn : 3 ≤ s.toFront.bitsRemaining) (hb1 : b ≤ 1) (ht : HasBody ty body) :
    ({ (s.withFront (s.toFront.advance 3)).withHeader b ty with phase := body } : State).Inv := by
  obtain ⟨htables, hdyn, hlen, -⟩ := (State.phaseInv_readHeader hp).mp hs.phase
  have htype : ty ≤ 3 := by obtain ⟨rfl, -⟩ | ⟨rfl, -⟩ | ⟨rfl, -⟩ := ht <;> decide
  refine hs.goes_on hb (.of_fields rfl) (Front.later_advance hn) hs.accBottom hs.distanceBottom
    (hs.outHasValue hb) hb1 htype ?_ (fun _ => hb1) ?_
  · obtain ⟨-, rfl⟩ | ⟨-, rfl⟩ | ⟨-, rfl⟩ := ht <;> nofun
  · obtain ⟨rfl, rfl⟩ | ⟨rfl, rfl⟩ | ⟨rfl, rfl⟩ := ht
    · exact ⟨htables, hdyn, hlen, rfl⟩
    · exact ⟨htables, hdyn, hlen, rfl⟩
    · exact ⟨htables, .inl hdyn, hlen, rfl⟩

/-- A code-length symbol inside a dynamic header (43_dynamic_header.md R94 to R98). -/
theorem State.Inv.after_lengths {n a b : Nat} {L ls : List Nat} (hp : s.phase = .dynamic)
    (hcl : s.clTable ≠ none) (hn : n ≤ s.toFront.bitsRemaining) (ha : s.hlit = some a)
    (hd : s.hdist = some b) (hL : s.lens = some L) (hfit : L.length + ls.length ≤ a + b)
    (hle : ∀ v ∈ ls, v ≤ 15) :
    ({ s.withFront (s.toFront.advance n) with lens := some (L ++ ls) } : State).Inv := by
  obtain ⟨htables, hdyn, hlen, htype⟩ := (State.phaseInv_dynamic hp).mp hs.phase
  obtain ⟨-, -, -, -, hbottom, -⟩ | hopen := hdyn
  · exact absurd hbottom hcl
  obtain ⟨a', b', c, clLens, L', T, ha', hd', hc, hclLens, hL', hT, hra, hrb, hrc, hcl19, ⟨-, hL15⟩,
    hbuild⟩ := hopen
  obtain rfl : a' = a := Option.some.inj (ha'.symm.trans ha)
  obtain rfl : b' = b := Option.some.inj (hd'.symm.trans hd)
  obtain rfl : L' = L := Option.some.inj (hL'.symm.trans hL)
  have hall : ∀ v ∈ L' ++ ls, v ≤ 15 := fun v hv => (List.mem_append.mp hv).elim (hL15 v) (hle v)
  refine hs.goes_on_in_block hb (by rw [hp]; nofun) (.of_fields rfl) rfl (Front.later_advance hn)
    hs.accBottom (hs.outHasValue hb) (fun h => nomatch hp.symm.trans h) ?_
  exact Iff.mpr (State.phaseInv_dynamic hp) ⟨htables, .inr ⟨a', b', c, clLens, L' ++ ls, T, ha', hd',
    hc, hclLens, rfl, hT, hra, hrb, hrc, hcl19, ⟨by rwa [List.length_append], hall⟩, hbuild⟩, hlen,
    htype⟩

/-- The invariant of PHASE DECODING after a move that leaves the tables and BTYPE. -/
theorem State.Inv.after_decoding {t : State} (hp : s.phase = .decoding) (hhost : s.SameHost t)
    (hkept : (t.bfinal, t.btype, t.distance) = (s.bfinal, s.btype, s.distance))
    (hregs : (t.litTable, t.distTable, t.hlit, t.hdist, t.hclen, t.clLens, t.clTable, t.lens) =
      (s.litTable, s.distTable, s.hlit, s.hdist, s.hclen, s.clLens, s.clTable, s.lens))
    (hphase : t.phase = .decoding ∨ t.phase = .blockDone)
    (hlater : s.toFront.Later t.toFront) (hacc : t.accCode = none ∧ t.accLen = none)
    (hout : HasValue (fun m => m.wf = true ∧ withinCap s.cfg m.size) t.out)
    (hlen : BottomOr (fun n => minMatch ≤ n ∧ n ≤ maxMatch) t.length)
    (hdone : t.phase = .blockDone → t.length = none) : t.Inv := by
  obtain ⟨htables, hdyn, -, htype⟩ := (State.phaseInv_decoding hp).mp hs.phase
  simp only [Prod.mk.injEq] at hregs
  obtain ⟨hlit, hdist, ha, hb', hc, hcl, hT, hL⟩ := hregs
  have htables' : t.tablesBuilt := by rwa [State.tablesBuilt, hlit, hdist]
  have hdyn' : t.dynBottom := by rwa [State.dynBottom, ha, hb', hc, hcl, hT, hL]
  have htype' : t.btype = some 1 ∨ t.btype = some 2 := by
    obtain ⟨-, ht, -⟩ : t.bfinal = s.bfinal ∧ t.btype = s.btype ∧ t.distance = s.distance := by
      simpa only [Prod.mk.injEq] using hkept
    rwa [ht]
  refine hs.goes_on_in_block hb (by rw [hp]; nofun) hhost hkept hlater hacc hout ?_ ?_
  · obtain h | h := hphase <;> rw [h] <;> nofun
  · obtain h | h := hphase
    · exact (State.phaseInv_decoding h).mpr ⟨htables', hdyn', hlen, htype'⟩
    · exact (State.phaseInv_blockDone h).mpr ⟨hdyn', hdone h, .inr ⟨htype', htables'⟩⟩

omit hb in
theorem State.Inv.btype_of_blockDone (hp : s.phase = .blockDone) :
    HasValue (fun b => b ≤ 2) s.btype := by
  obtain ⟨-, -, ⟨h, -⟩ | ⟨h | h, -⟩⟩ := (State.phaseInv_blockDone hp).mp hs.phase
  · rw [h]; exact Nat.zero_le 2
  · rw [h]; exact Nat.le_succ 1
  · rw [h]; exact Nat.le_refl 2

/-- The end of a block that is not final (45_decoder_top.md R181). -/
theorem State.Inv.after_block (hp : s.phase = .blockDone) (hf : s.bfinal = some 0) :
    ({ s with litTable := none, distTable := none, blockIndex := s.blockIndex + 1
              phase := .readHeader } : State).Inv := by
  obtain ⟨hdyn, hlen, -⟩ := (State.phaseInv_blockDone hp).mp hs.phase
  have htype := hs.btype_of_blockDone hp
  exact hs.goes_on_in_block hb (by rw [hp]; nofun) (.of_fields rfl) rfl (.refl _) hs.accBottom
    (hs.outHasValue hb) nofun
    ⟨⟨rfl, rfl⟩, hdyn, hlen, .inr ⟨Nat.le_add_left 1 _, hf, htype⟩⟩

/-- Finish (45_decoder_top.md R182). -/
theorem State.Inv.after_finish {m : Memory} (hp : s.phase = .blockDone) (hf : s.bfinal = some 1)
    (hm : s.out = some m) : (s.finished m).Inv := by
  obtain ⟨hdyn, hlen, -⟩ := (State.phaseInv_blockDone hp).mp hs.phase
  have htype := hs.btype_of_blockDone hp
  obtain ⟨-, herr, hbyte, hbit, hblock, -, -, hout, hok, -⟩ := hs.busy hb
  exact ⟨hok.inputWf, hs.outWf, hs.accBottom, hs.distanceBottom, hs.bfinalRange, hs.btypeRange,
    ⟨⟨rfl, rfl⟩, hdyn, hlen⟩,
    ⟨rfl, herr, hbyte, hbit, hblock, by show some m.size = s.out.map Memory.size; rw [hm]; rfl, hout,
      Nat.le_of_lt_succ hok.curBit_lt, rfl, hf, htype⟩⟩

/-- Each move that has a next state keeps the invariant. -/
theorem State.Moves.inv {t : State} (hmoves : s.Moves (.next t)) : t.Inv := by
  have hout := hs.outHasValue hb
  cases hmoves with
  | error e f log he hf => exact hs.raised hb he hf
  | header b ty body hp hn hb1 ht => exact hs.after_header hb hp hn hb1 ht
  | storedBody m bs p hp hm hc hf hn =>
    obtain ⟨htables, hdyn, hlen, htype⟩ := (State.phaseInv_stored hp).mp hs.phase
    exact hs.goes_on_in_block hb (by rw [hp]; nofun) (.of_fields rfl) rfl hf hs.accBottom
      (hs.appended hb hm hc) nofun ⟨hdyn, hlen, .inl ⟨htype, htables⟩⟩
  | fixedTables hp =>
    obtain ⟨-, hdyn, hlen, htype⟩ := (State.phaseInv_fixed hp).mp hs.phase
    exact hs.goes_on_in_block hb (by rw [hp]; nofun) (.of_fields rfl) rfl (.refl _) hs.accBottom hout
      nofun ((State.phaseInv_decoding rfl).mpr
        ⟨⟨builtFor_fixedLit, builtFor_fixedDist⟩, hdyn, bottomOr_of_none hlen, .inl htype⟩)
  | sequence n a b c L T hp hcl hn ha hb' hc hL hT =>
    obtain ⟨htables, -, hlen, htype⟩ := (State.phaseInv_dynamic hp).mp hs.phase
    refine hs.goes_on_in_block hb (by rw [hp]; nofun) (.of_fields rfl) rfl (Front.later_advance hn.2)
      hs.accBottom hout (fun h => nomatch hp.symm.trans h)
      (Iff.mpr (State.phaseInv_dynamic hp) ⟨htables, .inr ⟨a, b, c, L, [], T, rfl, rfl, rfl, rfl, rfl,
        rfl, ha, hb', hc, hL, ⟨Nat.zero_le _, nofun⟩, hT⟩, hlen, htype⟩)
  | lengths n a b L ls hp hcl hn ha hd hL hne hfit hle =>
    exact hs.after_lengths hb hp hcl hn.2 ha hd hL hfit hle
  | tables lit dist hp hcl hlit hdist =>
    obtain ⟨-, -, hlen, htype⟩ := (State.phaseInv_dynamic hp).mp hs.phase
    exact hs.goes_on_in_block hb (by rw [hp]; nofun) (.of_fields rfl) rfl (.refl _) hs.accBottom hout
      nofun ((State.phaseInv_decoding rfl).mpr ⟨⟨hlit, hdist⟩, ⟨rfl, rfl, rfl, rfl, rfl, rfl⟩,
        bottomOr_of_none hlen, .inr htype⟩)
  | literal n m v hp hlen hn hm hc =>
    exact hs.after_decoding hb hp (.of_fields rfl) rfl rfl (.inl hp) (Front.later_advance hn.2)
      hs.accBottom (hs.appended hb hm (bs := [v]) hc) (bottomOr_of_none hlen) (fun _ => hlen)
  | endOfBlock n hp hlen hn =>
    exact hs.after_decoding hb hp (.of_fields rfl) rfl rfl (.inr rfl) (Front.later_advance hn.2)
      hs.accBottom hout (bottomOr_of_none hlen) (fun _ => hlen)
  | length n v hp hlen hn hv =>
    exact hs.after_decoding hb hp (.of_fields rfl) rfl rfl (.inl hp) (Front.later_advance hn.2)
      hs.accBottom hout hv (fun h => nomatch hp.symm.trans h)
  | copy n m bs hp hlen hn hm hc =>
    exact hs.after_decoding hb hp (.of_fields rfl) (by rw [hs.distanceBottom]; rfl) rfl (.inl hp)
      (Front.later_advance hn.2) hs.accBottom (hs.appended hb hm hc) trivial (fun _ => rfl)
  | nextBlock hp hf => exact hs.after_block hb hp hf
  | finish m hp hf hm => exact hs.after_finish hb hp hf hm

end

/-- Settles O52: an engine that is not busy stays as it is, and every move keeps the invariant. -/
theorem stepKeepsTheInvariant : Obligations.StepKeepsTheInvariant := by
  intro s t hs h
  by_cases hb : s.status = .busy
  · exact State.Moves.inv hs hb (h ▸ step_moves hs hb)
  · rw [step_noStep (State.action_of_not_busy hb)] at h
    cases h
    exact hs

/-! ### Reset and the host's moves -/

/-- The reset state over an IN in canonical form meets the invariant (10_state.md R35). -/
theorem inv_resetWith (cfg : Config) {input : Memory} (h : input.wf = true) :
    (State.resetWith cfg input).Inv :=
  ⟨h, ⟨rfl, fun _ _ => Nat.zero_le _⟩, ⟨rfl, rfl⟩, rfl, trivial, trivial,
    ⟨⟨rfl, rfl⟩, ⟨rfl, rfl, rfl, rfl, rfl, rfl⟩, rfl⟩,
    ⟨rfl, rfl, rfl, rfl, rfl, rfl, rfl, rfl, rfl, rfl, rfl, rfl, rfl, rfl⟩⟩

/-- Settles O51: it is a reset state, over the empty IN. -/
theorem invariantHoldsAtReset : Obligations.InvariantHoldsAtReset := inv_resetWith _ rfl

section
variable {s : State} (hs : s.Inv) {t : State}
include hs

/-- A load changes IN only, which the invariant of an engine that is not BUSY says no more of than its
form. -/
theorem hostLoad_inv {bs : List Byte} (h : hostLoad bs s = .next t) : t.Inv := by
  obtain ⟨hb, -⟩ := hostLoad_status h
  rw [hostLoad, if_neg hb] at h
  cases h
  refine ⟨Memory.wf_ofBytes bs, hs.outWf, hs.accBottom, hs.distanceBottom, hs.bfinalRange,
    hs.btypeRange, hs.phase, ?_⟩
  have hstatus := hs.status
  cases hst : s.status with
  | busy => exact absurd hst hb
  | idle => simpa only [State.statusInv, hst] using hstatus
  | done => simpa only [State.statusInv, hst] using hstatus
  | error => simpa only [State.statusInv, hst] using hstatus

/-- START writes every register of a decode that is not at ⊥ already (45_decoder_top.md R177). -/
theorem hostStart_inv (h : hostStart s = .next t) : t.Inv := by
  obtain ⟨hb, -⟩ := hostStart_status h
  obtain ⟨-, -, hdyn, hlen⟩ := hs.of_not_busy hb
  rw [hostStart, if_neg hb] at h
  cases h
  exact ⟨hs.inputWf, ⟨rfl, fun _ _ => Nat.zero_le _⟩, hs.accBottom, hs.distanceBottom, trivial,
    trivial, ⟨⟨rfl, rfl⟩, hdyn, hlen, .inl ⟨rfl, rfl, rfl⟩⟩,
    ⟨nofun, rfl, rfl, rfl, rfl, rfl, rfl, nofun,
      ⟨hs.inputWf, Nat.zero_le _, Nat.zero_lt_succ 7, fun hne => absurd rfl hne⟩,
      fun hne => absurd rfl hne⟩⟩

end

/-- Settles O53: one lemma for each move; RESET gives a reset state. -/
theorem hostMovesKeepTheInvariant : Obligations.HostMovesKeepTheInvariant := by
  intro mv s t hs h
  cases mv with
  | load bs => exact hostLoad_inv hs h
  | start => exact hostStart_inv hs h
  | reset =>
    rw [hostMove, hostReset_eq] at h
    cases h
    exact inv_resetWith _ hs.inputWf

end Sys2Proof.Machine

/-! ## How many steps a decode, an element and a block take (O55, O56)

Each bit of IN pays for two steps. The steps that read no bit are the fixed tables, the end of a
dynamic header and BlockDone, at most two in a block, and the three bits of its header pay for them. -/

namespace Sys2Proof.Machine

/-- The steps that PHASE itself has to pay for. -/
def Phase.weight : Phase → Nat
  | .halt => 0
  | .readHeader | .stored | .decoding => 1
  | .fixed | .dynamic | .blockDone => 2

/-- A bound on the steps that are left of a decode. -/
def State.stepsLeft (s : State) : Nat := 2 * s.toFront.bitsRemaining + s.phase.weight

/-- The bits a step reads pay for it and for what its new PHASE weighs. -/
theorem State.stepsLeft_lt_of_advance {s t : State} {n : Nat} (hn : n ≤ s.toFront.bitsRemaining)
    (hf : t.toFront = s.toFront.advance n) (hw : t.phase.weight < s.phase.weight + 2 * n) :
    t.stepsLeft < s.stepsLeft := by
  rw [State.stepsLeft, State.stepsLeft, hf, Front.bitsRemaining_advance]
  omega

section
variable {s t : State} (hs : s.Inv) (hb : s.status = .busy)
include hs hb

theorem State.Inv.stepsLeft_pos : 0 < s.stepsLeft := by
  obtain ⟨hhalt, -⟩ := hs.busy hb
  unfold State.stepsLeft
  cases hp : s.phase with
  | halt => exact absurd hp hhalt
  | _ => exact Nat.succ_pos _

/-- A step that stays BUSY leaves fewer steps. -/
theorem State.Moves.stepsLeft_lt (hmoves : s.Moves (.next t)) (hbt : t.status = .busy) :
    t.stepsLeft < s.stepsLeft := by
  cases hmoves with
  | error => cases hbt
  | finish => cases hbt
  | header b ty body hp hn hb1 ht =>
    refine State.stepsLeft_lt_of_advance hn rfl (show body.weight < s.phase.weight + 2 * 3 from ?_)
    rw [hp]
    obtain ⟨-, rfl⟩ | ⟨-, rfl⟩ | ⟨-, rfl⟩ := ht <;> decide
  | storedBody m bs p hp hm hc hf hn =>
    obtain ⟨hok, -⟩ := hf.2 (hs.ok hb)
    have hle := hok.pos_le
    have hbits := (s.toFront.atByte p).bitsRemaining_eq
    have hbits' := s.toFront.bitsRemaining_eq
    rw [show (s.toFront.atByte p).input = s.input from rfl] at hbits hle
    simp only [State.stepsLeft, State.withFront, hp, Phase.weight]
    omega
  | fixedTables hp =>
    simp only [State.stepsLeft, hp, Phase.weight]
    omega
  | sequence n a b c L T hp hcl hn =>
    obtain ⟨h1, hn⟩ := hn
    exact State.stepsLeft_lt_of_advance hn rfl (show s.phase.weight < _ by omega)
  | lengths n a b L ls hp hcl hn =>
    obtain ⟨h1, hn⟩ := hn
    exact State.stepsLeft_lt_of_advance hn rfl (show s.phase.weight < _ by omega)
  | tables lit dist hp =>
    simp only [State.stepsLeft, State.withTables, hp, Phase.weight]
    omega
  | literal n m v hp hlen hn =>
    obtain ⟨h1, hn⟩ := hn
    exact State.stepsLeft_lt_of_advance hn rfl (show s.phase.weight < _ by omega)
  | endOfBlock n hp hlen hn =>
    obtain ⟨h1, hn⟩ := hn
    refine State.stepsLeft_lt_of_advance hn rfl ?_
    rw [hp]
    simp only [Phase.weight]
    omega
  | length n v hp hlen hn =>
    obtain ⟨h1, hn⟩ := hn
    exact State.stepsLeft_lt_of_advance hn rfl (show s.phase.weight < _ by omega)
  | copy n m bs hp hlen hn =>
    obtain ⟨h1, hn⟩ := hn
    exact State.stepsLeft_lt_of_advance hn rfl (show s.phase.weight < _ by omega)
  | nextBlock hp =>
    simp only [State.stepsLeft, hp, Phase.weight]
    omega

/-- The step of a busy engine: a next state that meets the invariant, or the stop at OUT_CAP. -/
theorem step_busy : (∃ t, step s = .next t ∧ t.Inv ∧ s.Moves (.next t)) ∨
    (step s = .fault .outCapStuck ∧ s.phase ≠ .blockDone ∧ ∃ cap, s.cfg.outCap = some cap) := by
  have hmoves := step_moves hs hb
  cases ho : step s with
  | next t =>
    rw [ho] at hmoves
    exact .inl ⟨t, rfl, hmoves.inv hs hb, hmoves⟩
  | fault r =>
    rw [ho] at hmoves
    cases hmoves with
    | stuck cap hcap hp => exact .inr ⟨rfl, hp, cap, hcap⟩
  | refused r =>
    rw [ho] at hmoves
    cases hmoves

end

/-! ### A whole decode -/

/-- A step of an engine that is not idle does not make it so (10_state.md R31). -/
theorem step_status_ne_idle {s t : State} (h : step s = .next t) (hs : s.status ≠ .idle) :
    t.status ≠ .idle := by
  obtain ⟨hstep, -⟩ := statusTransitions s t
  obtain hsame | ⟨-, hdone, -⟩ | ⟨-, herror, -⟩ := hstep h
  · rwa [hsame]
  · rw [hdone]; nofun
  · rw [herror]; nofun

theorem runSteps_of_not_busy {s : State} (hb : s.status ≠ .busy) (k : Nat) :
    runSteps k s = .next s := by
  induction k with
  | zero => rfl
  | succ k ih => rw [runSteps, step_noStep (State.action_of_not_busy hb)]; exact ih

/-- With OUT_CAP unbounded, a decode in progress ends within the steps that are left. -/
theorem runSteps_ends {k : Nat} {s : State} (hs : s.Inv) (hcap : s.cfg.outCap = none)
    (hidle : s.status ≠ .idle) (hk : s.status = .busy → s.stepsLeft ≤ k) :
    ∃ t, runSteps k s = .next t ∧ (t.status = .done ∨ t.status = .error) := by
  induction k generalizing s with
  | zero =>
    refine ⟨s, rfl, ?_⟩
    cases hst : s.status with
    | idle => exact absurd hst hidle
    | busy => exact absurd (hs.stepsLeft_pos hst) (Nat.not_lt.mpr (hk hst))
    | done => exact .inl rfl
    | error => exact .inr rfl
  | succ k ih =>
    by_cases hb : s.status = .busy
    · obtain ⟨t, hstep, ht, hmoves⟩ | ⟨-, -, cap, hcap'⟩ := step_busy hs hb
      · obtain ⟨-, hcfg⟩ := inputAndParametersAreNeverWritten s t hstep
        rw [runSteps, hstep]
        refine ih ht (hcfg ▸ hcap) (step_status_ne_idle hstep hidle) fun hbt => ?_
        have := hmoves.stepsLeft_lt hs hb hbt
        have := hk hb
        omega
      · rw [hcap] at hcap'
        cases hcap'
    · refine ⟨s, runSteps_of_not_busy hb _, ?_⟩
      cases hst : s.status with
      | idle => exact absurd hst hidle
      | busy => exact absurd hst hb
      | done => exact .inl rfl
      | error => exact .inr rfl

/-- The start of a decode meets the invariant (45_decoder_top.md R177). -/
theorem inv_started (cfg : Config) (bs : List Byte) : (State.started cfg bs).Inv := by
  have hstart : hostStart (State.resetWith cfg (Memory.ofBytes bs)) =
      .next (State.started cfg bs) := by
    rw [hostStart, if_neg nofun]
    obtain ⟨cap, trace⟩ := cfg
    cases trace <;> rfl
  exact hostStart_inv (inv_resetWith cfg (Memory.wf_ofBytes bs)) hstart

/-- Settles O55: at the start there are 8 IN_LEN bits, and `stepsLeft` counts two steps for each. -/
theorem everyDecodeEnds : Obligations.EveryDecodeEnds := by
  intro cfg bs hcap
  refine runSteps_ends (inv_started cfg bs) hcap nofun fun _ => ?_
  have hbits : (State.started cfg bs).toFront.bitsRemaining = 8 * bs.length := by
    rw [Front.bitsRemaining_eq]
    simp [State.started, State.resetWith, Front.pos]
  rw [State.stepsLeft, hbits]
  simp only [State.started, Phase.weight]
  omega

/-! ### One element -/

/-- The code lengths that a dynamic header still lacks, and its end; otherwise one step, the distance
symbol after a length symbol. -/
def State.elementLeft (s : State) : Nat :=
  match s.hlit, s.hdist, s.lens with
  | some a, some b, some L => a + b - L.length + 1
  | _, _, _ => 1

section
variable {s t : State} (hs : s.Inv)
include hs

/-- The dynamic header registers hold values in PHASE DYNAMIC only (10_state.md R27). -/
theorem State.Inv.dyn_cases : s.dynBottom ∨ (s.phase = .dynamic ∧ s.dynOpen) := by
  have hphase := hs.phase
  cases hp : s.phase with
  | readHeader =>
    obtain ⟨-, hdyn, -⟩ := (State.phaseInv_readHeader hp).mp hphase
    exact .inl hdyn
  | stored =>
    obtain ⟨-, hdyn, -⟩ := (State.phaseInv_stored hp).mp hphase
    exact .inl hdyn
  | fixed =>
    obtain ⟨-, hdyn, -⟩ := (State.phaseInv_fixed hp).mp hphase
    exact .inl hdyn
  | decoding =>
    obtain ⟨-, hdyn, -⟩ := (State.phaseInv_decoding hp).mp hphase
    exact .inl hdyn
  | blockDone =>
    obtain ⟨hdyn, -⟩ := (State.phaseInv_blockDone hp).mp hphase
    exact .inl hdyn
  | halt =>
    obtain ⟨-, hdyn, -⟩ := (State.phaseInv_halt hp).mp hphase
    exact .inl hdyn
  | dynamic =>
    obtain ⟨-, hdyn, -⟩ := (State.phaseInv_dynamic hp).mp hphase
    exact hdyn.imp_right fun hopen => ⟨rfl, hopen⟩

/-- LENGTH holds a value in PHASE DECODING only (10_state.md R29). -/
theorem State.Inv.decoding_of_length (hlen : s.length ≠ none) : s.phase = .decoding := by
  have hphase := hs.phase
  cases hp : s.phase with
  | decoding => rfl
  | readHeader =>
    obtain ⟨-, -, hnone, -⟩ := (State.phaseInv_readHeader hp).mp hphase
    exact absurd hnone hlen
  | stored =>
    obtain ⟨-, -, hnone, -⟩ := (State.phaseInv_stored hp).mp hphase
    exact absurd hnone hlen
  | fixed =>
    obtain ⟨-, -, hnone, -⟩ := (State.phaseInv_fixed hp).mp hphase
    exact absurd hnone hlen
  | dynamic =>
    obtain ⟨-, -, hnone, -⟩ := (State.phaseInv_dynamic hp).mp hphase
    exact absurd hnone hlen
  | blockDone =>
    obtain ⟨-, hnone, -⟩ := (State.phaseInv_blockDone hp).mp hphase
    exact absurd hnone hlen
  | halt =>
    obtain ⟨-, -, hnone⟩ := (State.phaseInv_halt hp).mp hphase
    exact absurd hnone hlen

/-- At most 288 + 32 code lengths are left of a dynamic header (43_dynamic_header.md R94). -/
theorem State.Inv.elementLeft_le : s.elementLeft ≤ 321 := by
  unfold State.elementLeft
  obtain ⟨ha, -⟩ | ⟨-, a, b, c, clLens, L, T, ha, hd, -, -, hL, -, ⟨-, ha288⟩, ⟨-, hb32⟩, -⟩ :=
    hs.dyn_cases
  · rw [ha]
    exact Nat.succ_pos 320
  · rw [ha, hd, hL]
    dsimp only
    omega

/-- The two places inside an element: after a length symbol, and in a code-length sequence. -/
theorem State.Inv.midElement_cases (hmid : s.midElement = true) : s.status = .busy ∧
    ((s.phase = .decoding ∧ s.length ≠ none) ∨ (s.phase = .dynamic ∧ s.clTable ≠ none)) := by
  have hmid : s.length ≠ none ∨ s.clTable ≠ none := by
    simpa [State.midElement, Option.isSome_iff_ne_none] using hmid
  refine ⟨Decidable.byContradiction fun hb => ?_, hmid.imp (fun h => ⟨hs.decoding_of_length h, h⟩)
    fun h => ⟨?_, h⟩⟩
  · obtain ⟨-, -, ⟨-, -, -, -, hcl, -⟩, hlen⟩ := hs.of_not_busy hb
    exact hmid.elim (fun h => h hlen) fun h => h hcl
  · obtain ⟨-, -, -, -, hcl, -⟩ | ⟨hp, -⟩ := hs.dyn_cases
    · exact absurd hcl h
    · exact hp

/-- In PHASE DYNAMIC a step takes an error, goes on in the header, or ends it with both tables
(43_dynamic_header.md R89). -/
theorem State.Moves.of_dynamic (hp : s.phase = .dynamic) (hmoves : s.Moves (.next t)) :
    (t.midElement = false ∧ t.status = .error) ∨
    (t.phase = .dynamic ∧ t.status = s.status ∧ t.midElement = true ∧
      (s.clTable ≠ none → t.elementLeft < s.elementLeft)) ∨
    (t.midElement = false ∧ t.phase = .decoding ∧ t.tablesBuilt) := by
  obtain ⟨-, -, hlen, -⟩ := (State.phaseInv_dynamic hp).mp hs.phase
  cases hmoves with
  | error => exact .inl ⟨rfl, rfl⟩
  | sequence n a b c L T hp' hcl =>
    refine .inr (.inl ⟨hp, rfl, ?_, fun h => absurd hcl h⟩)
    exact Bool.or_true _
  | lengths n a b L ls hp' hcl hn ha hb hL hne hfit =>
    refine .inr (.inl ⟨hp, rfl, ?_, fun _ => ?_⟩)
    · show (s.length.isSome || s.clTable.isSome) = true
      rw [Option.isSome_iff_ne_none.mpr hcl, Bool.or_true]
    · simp only [State.elementLeft, State.withFront, ha, hb, hL, List.length_append]
      omega
  | tables lit dist hp' hcl hlit hdist =>
    refine .inr (.inr ⟨?_, rfl, hlit, hdist⟩)
    show (s.length.isSome || false) = false
    rw [hlen]
    rfl
  | header _ _ _ hp' | storedBody _ _ _ hp' | fixedTables hp' | literal _ _ _ hp'
  | endOfBlock _ hp' | length _ _ hp' | copy _ _ _ hp' | nextBlock hp' | finish _ hp' =>
    cases hp.symm.trans hp'

/-- After a length symbol, the next step is the distance symbol or an error, and ends the element
(44_block_decoder.md R113). -/
theorem State.Moves.of_length (hp : s.phase = .decoding) (hlen : s.length ≠ none)
    (hmoves : s.Moves (.next t)) : t.midElement = false := by
  obtain ⟨-, ⟨-, -, -, -, hcl, -⟩, -⟩ := (State.phaseInv_decoding hp).mp hs.phase
  cases hmoves with
  | error => rfl
  | copy =>
    show (false || s.clTable.isSome) = false
    rw [hcl]
    rfl
  | literal _ _ _ _ hlen' | endOfBlock _ _ hlen' | length _ _ _ hlen' => exact absurd hlen' hlen
  | header _ _ _ hp' | storedBody _ _ _ hp' | fixedTables hp' | sequence _ _ _ _ _ _ hp'
  | lengths _ _ _ _ _ hp' | tables _ _ hp' | nextBlock hp' | finish _ hp' =>
    cases hp.symm.trans hp'

/-- Inside an element, a step ends it or leaves less of it. -/
theorem step_midElement (hmid : s.midElement = true) (hstep : step s = .next t) :
    t.midElement = false ∨ t.elementLeft < s.elementLeft := by
  obtain ⟨hb, hplace⟩ := hs.midElement_cases hmid
  have hmoves := hstep ▸ step_moves hs hb
  obtain ⟨hp, hlen⟩ | ⟨hp, hcl⟩ := hplace
  · exact .inl (hmoves.of_length hs hp hlen)
  · obtain ⟨h, -⟩ | ⟨-, -, -, hlt⟩ | ⟨h, -⟩ := hmoves.of_dynamic hs hp
    · exact .inl h
    · exact .inr (hlt hcl)
    · exact .inl h

end

theorem stepsToBoundary_succ {k : Nat} {s t : State} (h : stepsToBoundary (k + 1) s = .next t) :
    ∃ u, step s = .next u ∧
      ((u.midElement = true ∧ stepsToBoundary k u = .next t) ∨ (u.midElement = false ∧ u = t)) := by
  rw [stepsToBoundary] at h
  cases hstep : step s with
  | next u =>
    rw [hstep] at h
    refine ⟨u, rfl, ?_⟩
    cases hmid : u.midElement with
    | true => exact .inl ⟨rfl, by simpa [hmid] using h⟩
    | false => exact .inr ⟨rfl, by simpa [hmid] using h⟩
  | fault r => rw [hstep] at h; cases h
  | refused r => rw [hstep] at h; cases h

theorem State.elementLeft_pos (s : State) : 0 < s.elementLeft := by
  unfold State.elementLeft
  split <;> exact Nat.succ_pos _

/-- Steps enough for what is left of an element end it. -/
theorem not_midElement_of_stepsToBoundary {k : Nat} {s t : State} (hs : s.Inv)
    (hmid : s.midElement = true) (hk : s.elementLeft ≤ k) (h : stepsToBoundary k s = .next t) :
    t.midElement = false := by
  induction k generalizing s with
  | zero => exact absurd s.elementLeft_pos (Nat.not_lt.mpr hk)
  | succ k ih =>
    obtain ⟨u, hstep, ⟨hmid', hu⟩ | ⟨hend, rfl⟩⟩ := stepsToBoundary_succ h
    · obtain hend | hlt := step_midElement hs hmid hstep
      · rw [hend] at hmid'
        cases hmid'
      · exact ih (stepKeepsTheInvariant s u hs hstep) hmid' (by omega) hu
    · exact hend

/-- A property that the steps inside an element keep holds before its last step. -/
theorem exists_last_step {P : State → Prop}
    (hP : ∀ s u, P s → step s = .next u → u.midElement = true → P u) {k : Nat} {s t : State}
    (hs : P s) (h : stepsToBoundary (k + 1) s = .next t) : ∃ u, P u ∧ step u = .next t := by
  induction k generalizing s with
  | zero =>
    obtain ⟨u, hstep, ⟨hmid, hu⟩ | ⟨-, rfl⟩⟩ := stepsToBoundary_succ h
    · cases hu
      exact ⟨s, hs, hstep⟩
    · exact ⟨s, hs, hstep⟩
  | succ k ih =>
    obtain ⟨u, hstep, ⟨hmid, hu⟩ | ⟨-, rfl⟩⟩ := stepsToBoundary_succ h
    · exact ih (hP s u hs hstep hmid) hu
    · exact ⟨s, hs, hstep⟩

/-- An element step that completes ends between two elements (00_scope.md R9). -/
theorem not_midElement_of_elementStep {s t : State} (hs : s.Inv) (h : elementStep s = .next t) :
    t.midElement = false := by
  obtain ⟨u, hstep, ⟨hmid, hu⟩ | ⟨hend, rfl⟩⟩ := stepsToBoundary_succ h
  · have hu' := stepKeepsTheInvariant s u hs hstep
    exact not_midElement_of_stepsToBoundary hu' hmid hu'.elementLeft_le hu
  · exact hend

/-- A state of a busy engine in a dynamic header. -/
def State.InHeader (s : State) : Prop := s.Inv ∧ s.status = .busy ∧ s.phase = .dynamic

/-- The steps inside a dynamic header stay in it. -/
theorem inHeader_of_step {s u : State} (hs : s.InHeader) (hstep : step s = .next u)
    (hmid : u.midElement = true) : u.InHeader := by
  obtain ⟨hinv, hb, hp⟩ := hs
  have hmoves := hstep ▸ step_moves hinv hb
  obtain ⟨hend, -⟩ | ⟨hp', hb', -⟩ | ⟨hend, -⟩ := hmoves.of_dynamic hinv hp
  · rw [hend] at hmid; cases hmid
  · exact ⟨stepKeepsTheInvariant s u hinv hstep, hb'.trans hb, hp'⟩
  · rw [hend] at hmid; cases hmid

/-- Settles O56: the steps suffice for any element, and the last one inside a dynamic header gives both
tables or an error. -/
theorem elementStepEndsBetweenElements : Obligations.ElementStepEndsBetweenElements := by
  intro s t hs h
  have hend := not_midElement_of_elementStep hs h
  refine ⟨hend, fun hb hp => ?_⟩
  obtain ⟨u, ⟨hu, hbu, hpu⟩, hstep⟩ := exists_last_step (P := State.InHeader)
    (fun _ _ => inHeader_of_step) ⟨hs, hb, hp⟩ h
  have hmoves := hstep ▸ step_moves hu hbu
  obtain ⟨-, herr⟩ | ⟨-, -, hmid, -⟩ | ⟨-, hdecoding⟩ := hmoves.of_dynamic hu hpu
  · exact .inr herr
  · rw [hend] at hmid; cases hmid
  · exact .inl hdecoding

/-! ### One block -/

theorem stepsToBlockEnd_of_end {k : Nat} {s : State} (hp : s.phase = .blockDone ∨ s.phase = .halt) :
    stepsToBlockEnd k s = .next s := by
  cases k with
  | zero => rfl
  | succ k => obtain hp | hp := hp <;> rw [stepsToBlockEnd, hp]

theorem stepsToBlockEnd_succ {k : Nat} {s : State} (hp : s.phase ≠ .blockDone)
    (hp' : s.phase ≠ .halt) : stepsToBlockEnd (k + 1) s =
      match step s with
      | .next t => stepsToBlockEnd k t
      | .fault r => .fault r
      | .refused r => .refused r := by
  rw [stepsToBlockEnd]
  cases h : s.phase with
  | blockDone => exact absurd h hp
  | halt => exact absurd h hp'
  | readHeader | stored | fixed | dynamic | decoding => rfl

/-- The steps of a block end: at BLOCK_DONE, in an error, or at a bounded OUT_CAP. -/
theorem stepsToBlockEnd_ends {s : State} (hs : s.Inv) (hb : s.status = .busy) {k : Nat}
    (hk : s.stepsLeft ≤ k) :
    (∃ t, stepsToBlockEnd k s = .next t ∧ t.Inv ∧ t.status = .busy ∧ t.phase = .blockDone) ∨
    (∃ t, stepsToBlockEnd k s = .next t ∧ t.status = .error) ∨
    (stepsToBlockEnd k s = .fault .outCapStuck ∧ ∃ cap, s.cfg.outCap = some cap) := by
  induction k generalizing s with
  | zero => exact absurd (hs.stepsLeft_pos hb) (Nat.not_lt.mpr hk)
  | succ k ih =>
    by_cases hp : s.phase = .blockDone
    · exact .inl ⟨s, stepsToBlockEnd_of_end (.inl hp), hs, hb, hp⟩
    obtain ⟨hhalt, -⟩ := hs.busy hb
    rw [stepsToBlockEnd_succ hp hhalt]
    obtain ⟨t, hstep, ht, hmoves⟩ | ⟨hstep, -, hcap⟩ := step_busy hs hb
    · rw [hstep]
      obtain ⟨hstatus, -⟩ := statusTransitions s t
      obtain hbt | ⟨-, -, hdone, -⟩ | ⟨-, herr, -, hhalt⟩ := hstatus hstep
      · have hlt := hmoves.stepsLeft_lt hs hb (hbt.trans hb)
        obtain ⟨-, hcfg⟩ := inputAndParametersAreNeverWritten s t hstep
        rw [← hcfg]
        exact ih ht (hbt.trans hb) (by omega)
      · exact absurd hdone hp
      · exact .inr (.inl ⟨t, stepsToBlockEnd_of_end (.inr hhalt), herr⟩)
    · rw [hstep]
      exact .inr (.inr ⟨rfl, hcap⟩)

end Sys2Proof.Machine

/-! ## Two runs side by side (O46, O49, O50, O57, O60)

The registers of a step fall into two parts. Its elements compute with the front end, PHASE, the
tables, the dynamic header registers, LENGTH and DISTANCE; the rest, `Ambient`, they only carry along,
but for the writes of OUT, the trace and the errors. So two states that differ in the second part, and
in bytes after the end of IN, stay so: `Pairing` says which two such parts are held together. A state
paired with itself gives what one run keeps. -/

namespace Sys2Proof.Machine

/-! ### Reads of IN with more bytes after it -/

/-- The front end with more bytes after the end of IN (45_decoder_top.md R182). -/
def Front.withTrailing (bs : List Byte) (f : Front) : Front :=
  { f with input := f.input.appendAll bs }

/-- Two reads from `f`, the second with the bytes `bs` after the end of IN: they do the same, at a later
cursor, unless the first runs out of IN, which takes some bytes after it. -/
inductive Read.Twin {α : Type} (bs : List Byte) (f : Front) : Read α → Read α → Prop
  | ok (v : α) (g : Front) (hg : f.Later g) : Read.Twin bs f (.ok v g) (.ok v (g.withTrailing bs))
  | raised (e : ErrCode) (g : Front) (hg : f.Later g) :
      Read.Twin bs f (.raised e g) (.raised e (g.withTrailing bs))
  | fault (r : Fault) : Read.Twin bs f (.fault r) (.fault r)
  | refused (r : Refusal) : Read.Twin bs f (.refused r) (.refused r)
  | eof (hbs : bs ≠ []) (g : Front) (r : Read α) : Read.Twin bs f (.raised .unexpectedEof g) r
  | gone (hbs : bs ≠ []) (x : Fault) (r : Read α) : Read.Twin bs f (.fault x) r

theorem Read.Twin.later {α : Type} {bs : List Byte} {f g : Front} {r r' : Read α} (hg : f.Later g)
    (h : Read.Twin bs g r r') : Read.Twin bs f r r' := by
  cases h with
  | ok v k hk => exact .ok v k (hg.trans hk)
  | raised e k hk => exact .raised e k (hg.trans hk)
  | fault x => exact .fault x
  | refused x => exact .refused x
  | eof hbs k => exact .eof hbs k _
  | gone hbs x => exact .gone hbs x _

theorem Read.Twin.andThen {α β : Type} {bs : List Byte} {f : Front} {r r' : Read α}
    {k : α → Front → Read β} (h : Read.Twin bs f r r')
    (hk : ∀ v g, Read.Twin bs g (k v g) (k v (g.withTrailing bs))) :
    Read.Twin bs f (r.andThen k) (r'.andThen k) := by
  cases h with
  | ok v g hg => exact (hk v g).later hg
  | raised e g hg => exact .raised e g hg
  | fault x => exact .fault x
  | refused x => exact .refused x
  | eof hbs g => exact .eof hbs g _
  | gone hbs x => exact .gone hbs x _

theorem Memory.read_append_some (m : Memory) {a : Nat} {b : Byte} (h : m.read a = some b)
    (c : Host.Cell) : Memory.read (m ++ [c]) a = some b := by
  induction m with
  | nil => cases h
  | cons x m ih =>
    rw [Memory.read] at h
    rw [List.cons_append, Memory.read]
    split
    · rwa [if_pos ‹_›] at h
    · rw [if_neg ‹_›] at h
      exact ih h

/-- A byte that is there stays there when more follow (20_memory.md R36). -/
theorem Memory.read_appendAll_some {m : Memory} {a : Nat} {b : Byte} (h : m.read a = some b)
    (bs : List Byte) : (m.appendAll bs).read a = some b := by
  induction bs generalizing m with
  | nil => exact h
  | cons c bs ih => exact ih (Memory.read_append_some m h _)

theorem Memory.slice_appendAll_some {m : Memory} {a n : Nat} {l : List Byte}
    (h : m.slice a n = some l) (bs : List Byte) : (m.appendAll bs).slice a n = some l := by
  induction n generalizing a l with
  | zero => exact h
  | succ n ih =>
    rw [Memory.slice] at h
    split at h
    · next b bs' hb hbs' =>
      rw [Memory.slice, Memory.read_appendAll_some hb, ih hbs']
      exact h
    · cases h

section
variable (bs : List Byte) (f : Front)

@[simp] theorem Front.withTrailing_nil : f.withTrailing [] = f := rfl

/-- A read that runs out of IN: with no bytes after it the two reads are one. -/
theorem Read.Twin.of_eof {α : Type} {r : Front → Read α} (h : r f = .raised .unexpectedEof f) :
    Read.Twin bs f (r f) (r (f.withTrailing bs)) := by
  by_cases hbs : bs = []
  · subst hbs
    rw [Front.withTrailing_nil, h]
    exact .raised _ f (.refl f)
  · rw [h]
    exact .eof hbs f _

/-- A read of an address that is not there: with no bytes after it the two reads are one. -/
theorem Read.Twin.of_gone {α : Type} {r : Front → Read α} {x : Fault} (h : r f = .fault x) :
    Read.Twin bs f (r f) (r (f.withTrailing bs)) := by
  by_cases hbs : bs = []
  · subst hbs
    rw [Front.withTrailing_nil, h]
    exact .fault x
  · rw [h]
    exact .gone hbs x _

theorem Front.bitsRemaining_withTrailing :
    f.bitsRemaining ≤ (f.withTrailing bs).bitsRemaining := by
  rw [Front.bitsRemaining_eq, Front.bitsRemaining_eq, Front.withTrailing, Memory.size_appendAll]
  simp only [Front.pos]
  omega

theorem Front.bytesRemaining_withTrailing :
    f.bytesRemaining ≤ (f.withTrailing bs).bytesRemaining := by
  simp only [Front.bytesRemaining, Front.withTrailing, Memory.size_appendAll]
  split <;> omega

theorem Front.withTrailing_nextBit :
    (f.withTrailing bs).nextBit = f.nextBit.withTrailing bs := by
  show (if f.curBit = 7 then _ else _) = (if f.curBit = 7 then _ else _ : Front).withTrailing bs
  split <;> rfl

theorem Front.withTrailing_alignToByte :
    (f.withTrailing bs).alignToByte = f.alignToByte.withTrailing bs := by
  show (if f.curBit = 0 then _ else _) = (if f.curBit = 0 then _ else _ : Front).withTrailing bs
  split <;> rfl

end

/-- One more bit moves the cursor on (41_bitreader.md R72). -/
theorem Front.later_nextBit {f : Front} (h1 : 1 ≤ f.bitsRemaining) : f.Later f.nextBit := by
  refine ⟨f.nextBit_input, fun h => ?_⟩
  rw [Front.nextBit_eq_advance h.curBit_lt]
  obtain ⟨-, hpos⟩ := Front.later_advance h1
  exact hpos h

theorem Front.readBit_twin (bs : List Byte) (f : Front) :
    Read.Twin bs f f.readBit (f.withTrailing bs).readBit := by
  have hmore := Front.bitsRemaining_withTrailing bs f
  by_cases hbits : f.bitsRemaining < 1
  · exact .of_eof bs f (r := Front.readBit) (if_pos hbits)
  have hread (g : Front) (hg : ¬ g.bitsRemaining < 1) : g.readBit =
      match g.input.read g.curByte with
      | none => .fault .inAddress
      | some b => .ok ((b.toNat >>> g.curBit) &&& 1) g.nextBit := if_neg hg
  cases hr : f.input.read f.curByte with
  | none => exact .of_gone bs f (r := Front.readBit) (x := .inAddress) (by rw [hread f hbits, hr])
  | some b =>
    have hr' : (f.withTrailing bs).input.read (f.withTrailing bs).curByte = some b :=
      Memory.read_appendAll_some hr bs
    rw [hread f hbits, hread _ (by omega), hr, hr', Front.withTrailing_nextBit]
    exact .ok _ _ (Front.later_nextBit (by omega))

theorem Front.readBitsLoop_twin (bs : List Byte) (n i v : Nat) (f : Front) :
    Read.Twin bs f (Front.readBitsLoop n i v f) (Front.readBitsLoop n i v (f.withTrailing bs)) := by
  induction n generalizing f i v with
  | zero => exact .ok v f (.refl f)
  | succ n ih => exact (Front.readBit_twin bs f).andThen fun b g => ih (i + 1) _ g

theorem Front.readBits_twin (bs : List Byte) (n : Nat) (f : Front) :
    Read.Twin bs f (f.readBits n) ((f.withTrailing bs).readBits n) := by
  have hmore := Front.bitsRemaining_withTrailing bs f
  by_cases h16 : maxReadBits < n
  · rw [Front.readBits, if_pos h16, Front.readBits, if_pos h16]
    exact .refused _
  by_cases hbits : f.bitsRemaining < n
  · exact .of_eof bs f (r := Front.readBits n) (by rw [Front.readBits, if_neg h16, if_pos hbits])
  · rw [Front.readBits, if_neg h16, if_neg hbits, Front.readBits, if_neg h16, if_neg (by omega)]
    exact Front.readBitsLoop_twin bs n 0 0 f

/-- `n` whole bytes move the cursor on (41_bitreader.md R76). -/
theorem Front.later_bytes {f : Front} {n : Nat} (hn : n ≤ f.bytesRemaining) :
    f.Later { f with curByte := f.curByte + n } := by
  refine ⟨rfl, fun h => ⟨?_, by simp only [Front.pos]; omega⟩⟩
  obtain ⟨hw, hle, hbit, hlast⟩ := h
  by_cases h0 : f.curBit = 0
  · rw [Front.bytesRemaining_aligned h0] at hn
    exact ⟨hw, show f.curByte + n ≤ f.input.size by omega, hbit, fun hne => absurd h0 hne⟩
  · rw [Front.bytesRemaining_partial h0] at hn
    have hlt := hlast h0
    exact ⟨hw, show f.curByte + n ≤ f.input.size by omega, hbit,
      fun _ => show f.curByte + n < f.input.size by omega⟩

theorem Front.readRawBytes_twin (bs : List Byte) (n : Nat) (f : Front) :
    Read.Twin bs f (f.readRawBytes n) ((f.withTrailing bs).readRawBytes n) := by
  have hmore := Front.bytesRemaining_withTrailing bs f
  by_cases hbytes : f.bytesRemaining < n
  · exact .of_eof bs f (r := Front.readRawBytes n) (if_pos hbytes)
  have hread (g : Front) (hg : ¬ g.bytesRemaining < n) : g.readRawBytes n =
      match g.input.slice g.curByte n with
      | none => .fault .inAddress
      | some l => .ok l { g with curByte := g.curByte + n } := if_neg hg
  cases hs : f.input.slice f.curByte n with
  | none =>
    exact .of_gone bs f (r := Front.readRawBytes n) (x := .inAddress) (by rw [hread f hbytes, hs])
  | some l =>
    have hs' : (f.withTrailing bs).input.slice (f.withTrailing bs).curByte n = some l :=
      Memory.slice_appendAll_some hs bs
    rw [hread f hbytes, hread _ (by omega), hs, hs']
    exact .ok l _ (Front.later_bytes (Nat.le_of_not_lt hbytes))

/-- The accumulator is no part of the cursor (10_state.md R21). -/
theorem Front.later_acc (f : Front) (code len : Option Nat) :
    f.Later { f with accCode := code, accLen := len } :=
  ⟨rfl, fun h => ⟨h, Nat.le_refl _⟩⟩

theorem Front.decodeLoop_twin (bs : List Byte) (T : HuffmanTable) (n : Nat) (f : Front) :
    Read.Twin bs f (Front.decodeLoop T n f) (Front.decodeLoop T n (f.withTrailing bs)) := by
  induction n generalizing f with
  | zero => exact .raised _ f.clearAcc (.refl f)
  | succ n ih =>
    refine (Front.readBit_twin bs f).andThen fun b g => ?_
    cases hc : g.accCode with
    | none =>
      rw [show (g.withTrailing bs).accCode = none from hc]
      exact .fault _
    | some c =>
      rw [show (g.withTrailing bs).accCode = some c from hc]
      cases hl : g.accLen with
      | none =>
        rw [show (g.withTrailing bs).accLen = none from hl]
        exact .fault _
      | some l =>
        rw [show (g.withTrailing bs).accLen = some l from hl]
        dsimp only
        split
        · exact .ok _ g.clearAcc (.refl g)
        · exact .later (g.later_acc _ _) (ih _)

theorem Front.decode_twin (bs : List Byte) (T : HuffmanTable) (f : Front) :
    Read.Twin bs f (f.decode T) ((f.withTrailing bs).decode T) :=
  .later (f.later_acc _ _) (Front.decodeLoop_twin bs T maxCodeBits _)

theorem decodeRow_twin (bs : List Byte) (sel : Selector) (f : Front) :
    Read.Twin bs f (decodeRow sel f) (decodeRow sel (f.withTrailing bs)) := by
  cases sel with
  | header =>
    exact (Front.readBits_twin bs 1 f).andThen fun _ g =>
      (Front.readBits_twin bs 2 g).andThen fun _ k => .ok _ k (.refl k)
  | storedBody | fixedTables | dynHeader => exact .ok _ f (.refl f)
  | clSym T | litLen T | dist T =>
    exact (Front.decode_twin bs T f).andThen fun _ g => .ok _ g (.refl g)

theorem decodeAt_twin (bs : List Byte) (sel : Selector) (f : Front) :
    Read.Twin bs f (decodeAt sel f) (decodeAt sel (f.withTrailing bs)) := by
  refine (decodeRow_twin bs sel f).andThen fun row g => ?_
  cases row.instr with
  | some i => exact .ok i g (.refl g)
  | none => exact .fault _

end Sys2Proof.Machine

namespace Sys2Proof.Machine

/-! ### States that differ in what a step only carries along -/

/-- The part of the state that the elements carry along: the parameters, OUT, the flags, BLOCK_INDEX, the
host's registers and the trace. -/
structure Ambient where
  cfg : Config
  out : Option Memory
  bfinal : Option Nat
  btype : Option Nat
  blockIndex : Nat
  status : Status
  errCode : ErrCode
  errByte : Option Nat
  errBit : Option Nat
  errBlock : Option Nat
  outLen : Option Nat
  consumed : Option Nat
  traceLog : List TraceEvent

/-- What a state carries along. -/
def State.ambient (s : State) : Ambient where
  cfg := s.cfg
  out := s.out
  bfinal := s.bfinal
  btype := s.btype
  blockIndex := s.blockIndex
  status := s.status
  errCode := s.errCode
  errByte := s.errByte
  errBit := s.errBit
  errBlock := s.errBlock
  outLen := s.outLen
  consumed := s.consumed
  traceLog := s.traceLog

/-- The state with more bytes after the end of IN and another part to carry along. -/
def State.inAmbient (s : State) (bs : List Byte) (a : Ambient) : State :=
  { s with
    input := s.input.appendAll bs
    cfg := a.cfg
    out := a.out
    bfinal := a.bfinal
    btype := a.btype
    blockIndex := a.blockIndex
    status := a.status
    errCode := a.errCode
    errByte := a.errByte
    errBit := a.errBit
    errBlock := a.errBlock
    outLen := a.outLen
    consumed := a.consumed
    traceLog := a.traceLog }

/-- What a `raise` at byte `p`, bit `q` writes of it (60_exceptions.md R198). -/
def Ambient.raise (e : ErrCode) (p q : Nat) (a : Ambient) : Ambient :=
  { a with
    errCode := e
    errByte := some p
    errBit := some q
    errBlock := some a.blockIndex
    out := none
    bfinal := none
    btype := none
    status := .error }

/-- One more trace event, of the block's number, when TRACE is true (60_exceptions.md R204). -/
def Ambient.log (e : Nat → TraceEvent) (a : Ambient) : Ambient :=
  { a with traceLog := if a.cfg.trace then a.traceLog ++ [e a.blockIndex] else a.traceLog }

/-- BFINAL and BTYPE of a header (44_block_decoder.md R102). -/
def Ambient.withFlags (bfinal btype : Nat) (a : Ambient) : Ambient :=
  { a with bfinal := some bfinal, btype := some btype }

/-- DYN_HEADER after its `c` counted values: CL_LENS and CL_TABLE (43_dynamic_header.md R92 to R94). -/
def clTableAfterCounts (c : Nat) (s : State) : OpRes Unit :=
  (readClLens (clOrder.take c) s).andThen fun _ s =>
    (needReg .clLens s.clLens s).andThen fun L s =>
      (buildTable L s).andThen fun T s => .done () { s with clTable := some T, lens := some [] }

theorem execDynHeader_eq (s : State) :
    execDynHeader s = ((readCounts s).andThen clTableAfterCounts).outcome := rfl

/-- Two runs held side by side from the front end `start` on: the second with the bytes `more` after the
end of IN, and what they carry along in the relation `rel`, which a `raise` keeps. -/
structure Pairing where
  more : List Byte
  start : Front
  rel : Ambient → Ambient → Prop
  raise_rel : ∀ {a a' : Ambient} (e : ErrCode) (p q : Nat), rel a a' →
    rel (a.raise e p q) (a'.raise e p q)

namespace Pairing
variable (w : Pairing)

/-- The relation is kept by the writes of a header and by a trace event. -/
def Logs : Prop :=
  (∀ {a a' : Ambient} (b t : Nat), w.rel a a' → w.rel (a.withFlags b t) (a'.withFlags b t)) ∧
    ∀ {a a' : Ambient} (e : Nat → TraceEvent), w.rel a a' → w.rel (a.log e) (a'.log e)

/-- The relation gives the same OUT and OUT_CAP, and is kept by a write of OUT. -/
def WritesOut : Prop :=
  ∀ {a a' : Ambient}, w.rel a a' → a'.out = a.out ∧ a'.cfg.outCap = a.cfg.outCap ∧
    ∀ m, w.rel { a with out := m } { a' with out := m }

/-- The state `s` is paired with `s` in the ambient `a`, at a cursor from the start on. -/
def Holds (s : State) (a : Ambient) : Prop := w.rel s.ambient a ∧ w.start.Later s.toFront

/-- The first run has run out of an IN that goes on in the second. -/
def Short (o : Host.Outcome State Fault Refusal) : Prop :=
  w.more ≠ [] ∧ ∀ t, o = .next t → t.errCode = .unexpectedEof

/-- The outcomes of a step in the two runs. -/
inductive Outcomes : Host.Outcome State Fault Refusal → Host.Outcome State Fault Refusal → Prop
  | next (s : State) (a : Ambient) (h : w.Holds s a) :
      Outcomes (.next s) (.next (s.inAmbient w.more a))
  | fault (r : Fault) : Outcomes (.fault r) (.fault r)
  | refused (r : Refusal) : Outcomes (.refused r) (.refused r)
  | short (o o' : Host.Outcome State Fault Refusal) (h : w.Short o) : Outcomes o o'

/-- The results of an operation inside an element in the two runs. -/
inductive Results {α : Type} : OpRes α → OpRes α → Prop
  | done (v : α) (s : State) (a : Ambient) (h : w.Holds s a) :
      Results (.done v s) (.done v (s.inAmbient w.more a))
  | stop (o o' : Host.Outcome State Fault Refusal) (h : w.Outcomes o o') :
      Results (.stop o) (.stop o')
  | short (o : Host.Outcome State Fault Refusal) (r : OpRes α) (h : w.Short o) : Results (.stop o) r

variable {w}

theorem Results.andThen {α β : Type} {r r' : OpRes α} {k k' : α → State → OpRes β}
    (h : w.Results r r')
    (hk : ∀ v s a, w.Holds s a → w.Results (k v s) (k' v (s.inAmbient w.more a))) :
    w.Results (r.andThen k) (r'.andThen k') := by
  cases h with
  | done v s a hsa => exact hk v s a hsa
  | stop o o' ho => exact .stop o o' ho
  | short o r' ho => exact .short o _ ho

theorem Results.outcome {α : Type} {r r' : OpRes α} (h : w.Results r r') :
    w.Outcomes r.outcome r'.outcome := by
  cases h with
  | done v s a hsa => exact .next s a hsa
  | stop o o' ho => exact ho
  | short o r' ho => exact .short o _ ho

theorem short_raise (hmore : w.more ≠ []) (s : State) :
    w.Short (.next (s.raise .unexpectedEof)) := by
  refine ⟨hmore, fun t ht => ?_⟩
  obtain rfl := Host.Outcome.next.inj ht
  rfl

theorem short_fault (hmore : w.more ≠ []) (x : Fault) : w.Short (.fault x) :=
  ⟨hmore, fun _ ht => by cases ht⟩

section
variable {s : State} {a : Ambient} (h : w.Holds s a)
include h

/-! ### The shared operations -/

theorem Holds.withFront {f : Front} (hf : s.toFront.Later f) : w.Holds (s.withFront f) a := by
  obtain ⟨hrel, hlater⟩ := h
  exact ⟨hrel, hlater.trans hf⟩

theorem Holds.raise_twin (e : ErrCode) :
    w.Outcomes (.next (s.raise e)) (.next ((s.inAmbient w.more a).raise e)) := by
  obtain ⟨hrel, hlater⟩ := h
  exact .next (s.raise e) (a.raise e s.curByte s.curBit)
    ⟨w.raise_rel e s.curByte s.curBit hrel, hlater.trans (s.toFront.later_acc none none)⟩

theorem Holds.raiseError_twin {α : Type} (e : ErrCode) :
    w.Results (raiseError e s : OpRes α) (raiseError e (s.inAmbient w.more a)) :=
  .stop _ _ (h.raise_twin e)

theorem Holds.liftRead_twin {α : Type} {r r' : Read α} (hr : Read.Twin w.more s.toFront r r') :
    w.Results (liftRead s r) (liftRead (s.inAmbient w.more a) r') := by
  cases hr with
  | ok v f hf => exact .done v _ a (h.withFront hf)
  | raised e f hf => exact (h.withFront hf).raiseError_twin e
  | fault x => exact .stop _ _ (.fault x)
  | refused x => exact .stop _ _ (.refused x)
  | eof hmore f r => exact .short _ _ (short_raise hmore (s.withFront f))
  | gone hmore x r => exact .short (.fault x) _ (short_fault hmore x)

theorem Holds.readBits_twin (n : Nat) :
    w.Results (s.readBits n) ((s.inAmbient w.more a).readBits n) :=
  h.liftRead_twin (Front.readBits_twin w.more n s.toFront)

theorem Holds.readRawBytes_twin (n : Nat) :
    w.Results (s.readRawBytes n) ((s.inAmbient w.more a).readRawBytes n) :=
  h.liftRead_twin (Front.readRawBytes_twin w.more n s.toFront)

theorem Holds.readOffset_twin (base extra : Nat) :
    w.Results (readOffset base extra s) (readOffset base extra (s.inAmbient w.more a)) :=
  (h.readBits_twin extra).andThen fun x t a h => .done (base + x) t a h

theorem Holds.needReg_twin {α : Type} (r : Reg) (v : Option α) :
    w.Results (needReg r v s) (needReg r v (s.inAmbient w.more a)) := by
  cases v with
  | some x => exact .done x s a h
  | none => exact .stop _ _ (.fault _)

theorem Holds.buildTable_twin (L : List Nat) :
    w.Results (buildTable L s) (buildTable L (s.inAmbient w.more a)) := by
  unfold buildTable
  cases build L with
  | some T => exact .done T s a h
  | none => exact h.raiseError_twin _

theorem Holds.fetch_twin (sel : Selector) :
    w.Results (fetch sel s) (fetch sel (s.inAmbient w.more a)) :=
  h.liftRead_twin (decodeAt_twin w.more sel s.toFront)

/-! ### The header of a block and the dynamic header -/

theorem Holds.traced_twin (hw : w.Logs) (e : Nat → TraceEvent) :
    ∃ a', w.Holds (s.traced (e s.blockIndex)) a' ∧ (s.inAmbient w.more a).traced (e a.blockIndex) =
      (s.traced (e s.blockIndex)).inAmbient w.more a' := by
  obtain ⟨hrel, hlater⟩ := h
  obtain ⟨-, hlog⟩ := hw
  refine ⟨a.log e, ⟨?_, ?_⟩, ?_⟩
  · rw [show (s.traced (e s.blockIndex)).ambient = s.ambient.log e by
      unfold State.traced Ambient.log State.ambient; split <;> simp [*]]
    exact hlog e hrel
  · unfold State.traced
    split <;> exact hlater
  · unfold State.traced State.inAmbient Ambient.log
    cases s.cfg.trace <;> cases a.cfg.trace <;> rfl

theorem Holds.setHeader_twin (hw : w.Logs) (b t : Nat) : ∃ a', w.Holds (s.setHeader b t) a' ∧
    (s.inAmbient w.more a).setHeader b t = (s.setHeader b t).inAmbient w.more a' := by
  obtain ⟨hrel, hlater⟩ := h
  obtain ⟨hflags, -⟩ := id hw
  exact Holds.traced_twin (s := { s with bfinal := some b, btype := some t }) (a := a.withFlags b t)
    ⟨hflags b t hrel, hlater⟩ hw (.hdr · b t)

theorem Holds.startBody_twin (hw : w.Logs) (b t : Nat) (body : Phase) :
    w.Outcomes (startBody b t body s) (startBody b t body (s.inAmbient w.more a)) := by
  obtain ⟨a', h', e⟩ := h.setHeader_twin hw b t
  rw [startBody, startBody, e]
  exact .next _ a' h'

theorem Holds.header_twin (hw : w.Logs) {i : Instr} {v : Nat} (hi : headerInstr v = some i) :
    w.Outcomes (exec i s) (exec i (s.inAmbient w.more a)) := by
  unfold headerInstr at hi
  split at hi
  · cases hi; exact h.startBody_twin hw _ 0 .stored
  · cases hi; exact h.startBody_twin hw _ 1 .fixed
  · cases hi; exact h.startBody_twin hw _ 2 .dynamic
  · cases hi
    obtain ⟨a', h', e⟩ := h.setHeader_twin hw (v % 2) 3
    rw [exec_blockReserved, exec_blockReserved, e]
    exact h'.raise_twin _
  · cases hi

theorem Holds.readCounts_twin (hw : w.Logs) :
    w.Results (readCounts s) (readCounts (s.inAmbient w.more a)) :=
  (h.readOffset_twin 257 5).andThen fun x s a h =>
    (Holds.readOffset_twin (s := { s with hlit := some x }) h 1 5).andThen fun y s a h =>
      (Holds.readOffset_twin (s := { s with hdist := some y }) h 4 4).andThen fun z s a h => by
        obtain ⟨a', h', e⟩ := Holds.traced_twin (s := { s with
          hclen := some z, clLens := some (List.replicate clSymbols 0) }) h hw (.dyn · x y z)
        exact e ▸ .done z _ a' h'

theorem Holds.readClLens_twin (syms : List Nat) :
    w.Results (readClLens syms s) (readClLens syms (s.inAmbient w.more a)) := by
  induction syms generalizing s a with
  | nil => exact .done () s a h
  | cons sym rest ih =>
    exact (h.readBits_twin 3).andThen fun v s a h =>
      (h.needReg_twin .clLens s.clLens).andThen fun L s a h =>
        ih (s := { s with clLens := some (L.set sym v) }) h


theorem Holds.clTableAfterCounts_twin (c : Nat) :
    w.Results (clTableAfterCounts c s) (clTableAfterCounts c (s.inAmbient w.more a)) :=
  (h.readClLens_twin (clOrder.take c)).andThen fun _ s _ h =>
    (h.needReg_twin _ s.clLens).andThen fun L _ _ h => (h.buildTable_twin L).andThen fun T s a h =>
      .done () { s with clTable := some T, lens := some [] } a h

theorem Holds.execDynHeader_twin (hw : w.Logs) :
    w.Outcomes (execDynHeader s) (execDynHeader (s.inAmbient w.more a)) := by
  rw [execDynHeader_eq, execDynHeader_eq]
  exact ((h.readCounts_twin hw).andThen fun c _ _ h => h.clTableAfterCounts_twin c).outcome

theorem Holds.lensTotal_twin : w.Results (lensTotal s) (lensTotal (s.inAmbient w.more a)) :=
  (h.needReg_twin _ s.hlit).andThen fun x s _ h =>
    (h.needReg_twin _ s.hdist).andThen fun y s a h => .done (x + y) s a h

theorem Holds.appendRun_twin (r v : Nat) :
    w.Results (appendRun r v s) (appendRun r v (s.inAmbient w.more a)) :=
  h.lensTotal_twin.andThen fun total s _ h =>
    (h.needReg_twin _ s.lens).andThen fun L s a h => by
      split
      · exact h.raiseError_twin _
      · exact .done () { s with lens := some (L ++ List.replicate r v) } a h

/-- The code-length symbols (43_dynamic_header.md R95 to R98). -/
theorem Holds.clInstr_twin {c : Nat} {i : Instr} (hi : clInstr c = some i) :
    w.Outcomes (exec i s) (exec i (s.inAmbient w.more a)) := by
  obtain ⟨rfl, -⟩ | rfl | rfl | rfl := clInstr_cases hi
  · exact Results.outcome <| (h.needReg_twin _ s.lens).andThen fun L s a h =>
      .done () { s with lens := some (L ++ [c]) } a h
  · refine Results.outcome <| (h.needReg_twin _ s.lens).andThen fun L s a h => ?_
    cases L.getLast? with
    | none => exact h.raiseError_twin _
    | some v => exact (h.readOffset_twin 3 2).andThen fun r _ _ h => h.appendRun_twin r v
  · exact Results.outcome <| (h.readOffset_twin 3 3).andThen fun r _ _ h => h.appendRun_twin r 0
  · exact Results.outcome <| (h.readOffset_twin 11 7).andThen fun r _ _ h => h.appendRun_twin r 0

theorem Holds.dynEnd_twin : w.Outcomes (dynEnd s) (dynEnd (s.inAmbient w.more a)) :=
  Results.outcome <| (h.needReg_twin _ s.hlit).andThen fun x s _ h =>
    (h.needReg_twin _ s.hdist).andThen fun y s _ h =>
      (h.needReg_twin _ s.lens).andThen fun L _ _ h =>
        (h.buildTable_twin (L.take x)).andThen fun lit _ _ h =>
          (h.buildTable_twin ((L.drop x).take y)).andThen fun dist s a h =>
            .done () (s.withTables lit dist) a h

/-! ### The body of a block -/

theorem Holds.outSize_twin (hw : w.WritesOut) :
    w.Results (outSize s) (outSize (s.inAmbient w.more a)) := by
  obtain ⟨hrel, -⟩ := id h
  obtain ⟨hout, -⟩ := hw hrel
  rw [outSize, outSize, show (s.inAmbient w.more a).out = s.out from hout]
  cases s.out with
  | none => exact .stop _ _ (.fault _)
  | some m => exact .done m.size s a h

theorem Holds.memReadOut_twin (hw : w.WritesOut) (p : Nat) :
    w.Results (memReadOut p s) (memReadOut p (s.inAmbient w.more a)) := by
  obtain ⟨hrel, -⟩ := id h
  obtain ⟨hout, -⟩ := hw hrel
  rw [memReadOut, memReadOut, show (s.inAmbient w.more a).out = s.out from hout]
  cases s.out with
  | none => exact .stop _ _ (.fault _)
  | some m =>
    cases hb : m.read p with
    | none => simp only [hb]; exact .stop _ _ (.fault _)
    | some b => simp only [hb]; exact .done b s a h

theorem Holds.memWriteOut_twin (hw : w.WritesOut) (v : Byte) :
    w.Results (memWriteOut v s) (memWriteOut v (s.inAmbient w.more a)) := by
  obtain ⟨hrel, hlater⟩ := h
  obtain ⟨hout, hcap, hwrite⟩ := hw hrel
  rw [memWriteOut, memWriteOut, show (s.inAmbient w.more a).out = s.out from hout]
  cases s.out with
  | none => exact .stop _ _ (.fault _)
  | some m =>
    have hfull : outFull (s.inAmbient w.more a).cfg m.size = outFull s.cfg m.size := by
      rw [outFull, outFull, show (s.inAmbient w.more a).cfg.outCap = s.cfg.outCap from hcap]
    dsimp only
    rw [hfull]
    split
    · exact .stop _ _ (.fault _)
    · exact .done () { s with out := some (m.append v) } { a with out := some (m.append v) }
        ⟨hwrite _, hlater⟩

theorem Holds.appendBytes_twin (hw : w.WritesOut) (bs : List Byte) :
    w.Results (appendBytes bs s) (appendBytes bs (s.inAmbient w.more a)) := by
  induction bs generalizing s a with
  | nil => exact .done () s a h
  | cons b bs ih => exact (h.memWriteOut_twin hw b).andThen fun _ _ _ h => ih h

theorem Holds.copyBack_twin (hw : w.WritesOut) (n d : Nat) :
    w.Results (copyBack n d s) (copyBack n d (s.inAmbient w.more a)) := by
  induction n generalizing s a with
  | zero => exact .done () s a h
  | succ n ih =>
    exact (h.outSize_twin hw).andThen fun size _ _ h =>
      (h.memReadOut_twin hw (size - d)).andThen fun b _ _ h =>
        (h.memWriteOut_twin hw b).andThen fun _ _ _ h => ih h

theorem Holds.execStoredBody_twin (hw : w.WritesOut) :
    w.Outcomes (execStoredBody s) (execStoredBody (s.inAmbient w.more a)) := by
  have halign : (s.inAmbient w.more a).withFront (s.inAmbient w.more a).toFront.alignToByte =
      (s.withFront s.toFront.alignToByte).inAmbient w.more a :=
    congrArg (s.inAmbient w.more a).withFront (Front.withTrailing_alignToByte w.more s.toFront)
  rw [execStoredBody, execStoredBody, halign]
  refine Results.outcome <| ((h.withFront s.toFront.later_alignToByte).readBits_twin 16).andThen
    fun len _ _ h => (h.readBits_twin 16).andThen fun nlen _ _ h => ?_
  split
  · exact h.raiseError_twin _
  · exact (h.readRawBytes_twin len).andThen fun bs _ _ h =>
      (h.appendBytes_twin hw bs).andThen fun _ s a h => .done () { s with phase := .blockDone } a h

theorem Holds.lengthSymbol_twin (base extra : Nat) :
    w.Outcomes (lengthSymbol base extra s) (lengthSymbol base extra (s.inAmbient w.more a)) :=
  Results.outcome <| (h.readOffset_twin base extra).andThen fun n s a h =>
    .done () { s with length := some n } a h

theorem Holds.distanceSymbol_twin (hw : w.WritesOut) (base extra : Nat) :
    w.Outcomes (distanceSymbol base extra s) (distanceSymbol base extra (s.inAmbient w.more a)) :=
  Results.outcome <| (h.readOffset_twin base extra).andThen fun d s _ h =>
    (Holds.outSize_twin (s := { s with distance := some d }) h hw).andThen fun size s _ h => by
      split
      · exact h.raiseError_twin _
      · exact (h.needReg_twin _ s.length).andThen fun n _ _ h =>
          (h.copyBack_twin hw n d).andThen fun _ s a h =>
            .done () { s with length := none, distance := none } a h

/-- The literal/length alphabet (44_block_decoder.md R109). -/
theorem Holds.litLenInstr_twin (hw : w.WritesOut) {sym : Nat} {i : Instr}
    (hi : litLenInstr sym = some i) : w.Outcomes (exec i s) (exec i (s.inAmbient w.more a)) := by
  obtain rfl | rfl | ⟨k, base, extra, hk, hb, he⟩ | rfl | rfl := litLenInstr_cases hi
  · exact (h.memWriteOut_twin hw _).outcome
  · exact .next { s with phase := .blockDone } a h
  · rw [exec_lengthInstr hk hb he, exec_lengthInstr hk hb he]
    exact h.lengthSymbol_twin base extra
  · exact h.raise_twin _
  · exact h.raise_twin _

/-- The distance alphabet (44_block_decoder.md R113). -/
theorem Holds.distInstr_twin (hw : w.WritesOut) {d : Nat} {i : Instr} (hi : distInstr d = some i) :
    w.Outcomes (exec i s) (exec i (s.inAmbient w.more a)) := by
  obtain ⟨base, extra, hk, hb, he⟩ | rfl | rfl := distInstr_cases hi
  · rw [exec_distInstr hk hb he, exec_distInstr hk hb he]
    exact h.distanceSymbol_twin hw base extra
  · exact h.raise_twin _
  · exact h.raise_twin _

end

end Pairing
end Sys2Proof.Machine

namespace Sys2Proof.Machine

/-! ### Elements and steps side by side -/

/-- The places of the opcode map that an alphabet holds (30_encoding.md R66). -/
inductive Offers : Selector → OpcodeRow → Prop
  | header (h : Nat) : Offers .header (.header h)
  | storedBody : Offers .storedBody .storedBody
  | fixedTables : Offers .fixedTables .fixedTables
  | dynHeader : Offers .dynHeader .dynHeader
  | clSym (T : HuffmanTable) (c : Nat) : Offers (.clSym T) (.clSym c)
  | litLen (T : HuffmanTable) (s : Nat) : Offers (.litLen T) (.litLen s)
  | dist (T : HuffmanTable) (d : Nat) : Offers (.dist T) (.dist d)

theorem Read.andThen_eq_ok {α β : Type} {r : Read α} {k : α → Front → Read β} {v : β} {g : Front}
    (h : r.andThen k = .ok v g) : ∃ x f, r = .ok x f ∧ k x f = .ok v g := by
  cases r with
  | ok x f => exact ⟨x, f, rfl, h⟩
  | raised e f => cases h
  | fault x => cases h
  | refused x => cases h

theorem offers_of_decodeRow {sel : Selector} {row : OpcodeRow} {f g : Front}
    (h : decodeRow sel f = .ok row g) : Offers sel row := by
  cases sel with
  | header =>
    obtain ⟨b, k, -, h⟩ := Read.andThen_eq_ok h
    obtain ⟨t, k', -, h⟩ := Read.andThen_eq_ok h
    cases h
    exact .header _
  | storedBody => cases h; exact .storedBody
  | fixedTables => cases h; exact .fixedTables
  | dynHeader => cases h; exact .dynHeader
  | clSym T =>
    obtain ⟨c, k, -, h⟩ := Read.andThen_eq_ok h
    cases h
    exact .clSym T c
  | litLen T =>
    obtain ⟨c, k, -, h⟩ := Read.andThen_eq_ok h
    cases h
    exact .litLen T c
  | dist T =>
    obtain ⟨c, k, -, h⟩ := Read.andThen_eq_ok h
    cases h
    exact .dist T c

theorem liftRead_eq_done {α : Type} {s t : State} {r : Read α} {v : α} (h : liftRead s r = .done v t) :
    ∃ f, r = .ok v f ∧ t = s.withFront f := by
  cases r with
  | ok x f => cases h; exact ⟨f, rfl, rfl⟩
  | raised e f => cases h
  | fault x => cases h
  | refused x => cases h

/-- A fetched element is one of its alphabet. -/
theorem offers_of_fetch {sel : Selector} {s t : State} {i : Instr} (h : fetch sel s = .done i t) :
    ∃ row, Offers sel row ∧ row.instr = some i := by
  obtain ⟨g, hd, rfl⟩ := liftRead_eq_done h
  obtain ⟨row, hrow, hi⟩ := decodeAt_eq_ok hd
  exact ⟨row, offers_of_decodeRow hrow, hi⟩

/-- The alphabets whose elements can trace. -/
def Traces (sel : Selector) : Prop := sel = .header ∨ sel = .dynHeader

/-- The alphabets whose elements can write OUT. -/
def WritesBytes : Selector → Prop
  | .header | .fixedTables | .dynHeader | .clSym _ => False
  | .storedBody | .litLen _ | .dist _ => True

theorem step_bottom {s : State} {r : Reg} (h : s.action = .bottom r) :
    step s = .fault (.noValue r) := by
  simp [step, h]

theorem blockDone_bottom {s : State} (hf : s.bfinal = none) :
    blockDone s = .fault (.noValue .bfinal) := by
  simp only [blockDone, testFinal, hf]
  rfl

theorem blockDone_noOut {s : State} (hf : s.bfinal = some 1) (hm : s.out = none) :
    blockDone s = .fault (.noValue .out) := by
  rw [blockDone, testFinal_eq (s := { s with litTable := none, distTable := none }) hf,
    OpRes.andThen_done, if_pos (beq_self_eq_true 1), finish, outSize, hm]
  rfl

namespace Pairing
variable {w : Pairing}

/-- The relation is kept by what the elements of an alphabet write. -/
def Serves (w : Pairing) (sel : Selector) : Prop := 
  (Traces sel → w.Logs) ∧ (WritesBytes sel → w.WritesOut)

/-- STATUS is all that the dispatcher sees of what is carried along (45_decoder_top.md R180). -/
theorem action_inAmbient {s : State} {a : Ambient} (bs : List Byte) (hst : a.status = s.status) :
    (s.inAmbient bs a).action = s.action := by
  show (match a.status with | .idle | .done | .error => _ | .busy => _) = _
  rw [hst]
  rfl

/-- The relation gives the same BFINAL and OUT, and is kept by what the end of a block writes. -/
def Ends (w : Pairing) : Prop :=
  ∀ {a a' : Ambient}, w.rel a a' → a'.bfinal = a.bfinal ∧ a'.out = a.out ∧
    w.rel { a with blockIndex := a.blockIndex + 1 } { a' with blockIndex := a'.blockIndex + 1 } ∧
    ∀ n c, w.rel { a with outLen := n, consumed := c, status := .done }
      { a' with outLen := n, consumed := c, status := .done }

section
variable {s : State} {a : Ambient} (h : w.Holds s a)
include h

theorem Holds.exec_twin {sel : Selector} {row : OpcodeRow} {i : Instr} (hsel : w.Serves sel)
    (hrow : Offers sel row) (hi : row.instr = some i) :
    w.Outcomes (exec i s) (exec i (s.inAmbient w.more a)) := by
  obtain ⟨hlogs, hout⟩ := hsel
  cases hrow with
  | header v => exact h.header_twin (hlogs (.inl rfl)) hi
  | storedBody => cases hi; exact h.execStoredBody_twin (hout trivial)
  | fixedTables =>
    cases hi
    exact .next { s with
      litTable := some fixedLit, distTable := some fixedDist, phase := .decoding } a h
  | dynHeader => cases hi; exact h.execDynHeader_twin (hlogs (.inr rfl))
  | clSym T c => exact h.clInstr_twin hi
  | litLen T c => exact h.litLenInstr_twin (hout trivial) hi
  | dist T c => exact h.distInstr_twin (hout trivial) hi

theorem Holds.step_element_twin (hst : a.status = s.status) {sel : Selector} (hsel : w.Serves sel)
    (ha : s.action = .element sel) : w.Outcomes (step s) (step (s.inAmbient w.more a)) := by
  have ha' := (action_inAmbient w.more hst).trans ha
  have hfetch := h.fetch_twin sel
  generalize hr : fetch sel s = r at hfetch
  generalize hr' : fetch sel (s.inAmbient w.more a) = r' at hfetch
  cases hfetch with
  | done i t a' ht =>
    obtain ⟨row, hrow, hi⟩ := offers_of_fetch hr
    rw [step_element ha hr, step_element ha' hr']
    exact ht.exec_twin hsel hrow hi
  | stop o o' ho => rw [step_element_stop ha hr, step_element_stop ha' hr']; exact ho
  | short o r' ho => rw [step_element_stop ha hr]; exact .short o _ ho

theorem Holds.blockDone_twin (hw : w.Ends) :
    w.Outcomes (blockDone s) (blockDone (s.inAmbient w.more a)) := by
  obtain ⟨hrel, hlater⟩ := h
  obtain ⟨hfinal, hout, hnext, hdone⟩ := hw hrel
  have hfinal : (s.inAmbient w.more a).bfinal = s.bfinal := hfinal
  have hout : (s.inAmbient w.more a).out = s.out := hout
  cases hf : s.bfinal with
  | none =>
    rw [blockDone_bottom hf, blockDone_bottom (hfinal.trans hf)]
    exact .fault _
  | some f =>
    by_cases h1 : f = 1
    · subst h1
      cases hm : s.out with
      | none =>
        rw [blockDone_noOut hf hm, blockDone_noOut (hfinal.trans hf) (hout.trans hm)]
        exact .fault _
      | some m =>
        rw [blockDone_final hf hm, blockDone_final (hfinal.trans hf) (hout.trans hm)]
        exact .next (s.finished m) { a with
          outLen := some m.size, consumed := some (s.curByte + if s.curBit ≠ 0 then 1 else 0)
          status := .done } ⟨hdone _ _, hlater⟩
    · rw [blockDone_notFinal hf h1, blockDone_notFinal (hfinal.trans hf) h1]
      exact .next { s with
        litTable := none, distTable := none, blockIndex := s.blockIndex + 1, phase := .readHeader }
        { a with blockIndex := a.blockIndex + 1 } ⟨hnext, hlater⟩

/-- Two paired states have paired steps: the relation must be kept by what the step at hand
writes. -/
theorem Holds.step_twin (hst : a.status = s.status)
    (hsel : ∀ sel, s.action = .element sel → w.Serves sel)
    (hdone : s.action = .blockDone → w.Ends) :
    w.Outcomes (step s) (step (s.inAmbient w.more a)) := by
  have hact := action_inAmbient w.more hst
  cases ha : s.action with
  | element sel => exact h.step_element_twin hst (hsel sel ha) ha
  | dynEnd => rw [step_dynEnd ha, step_dynEnd (hact.trans ha)]; exact h.dynEnd_twin
  | blockDone =>
    rw [step_blockDone ha, step_blockDone (hact.trans ha)]
    exact h.blockDone_twin (hdone ha)
  | noStep => rw [step_noStep ha, step_noStep (hact.trans ha)]; exact .next s a h
  | bottom r =>
    rw [step_bottom ha, step_bottom (hact.trans ha)]
    exact .fault _

end

end Pairing
end Sys2Proof.Machine

namespace Sys2Proof.Machine

/-! ### The cursor, and bytes after the end of IN (O46, O50) -/

/-- A state paired with itself, with more bytes after the end of IN. -/
def Pairing.same (more : List Byte) (start : Front) : Pairing where
  more := more
  start := start
  rel a a' := a' = a
  raise_rel _ _ _ h := h ▸ rfl

theorem Pairing.holds_same (more : List Byte) (s : State) :
    (Pairing.same more s.toFront).Holds s s.ambient := ⟨rfl, .refl _⟩

section
variable (more : List Byte) (start : Front)

theorem Pairing.serves_same (sel : Selector) : (Pairing.same more start).Serves sel :=
  ⟨fun _ => ⟨fun _ _ h => h ▸ rfl, fun _ h => h ▸ rfl⟩,
    fun _ _ _ h => by cases h; exact ⟨rfl, rfl, fun _ => rfl⟩⟩

theorem Pairing.ends_same : (Pairing.same more start).Ends :=
  fun h => by cases h; exact ⟨rfl, rfl, rfl, fun _ _ => rfl⟩

end

/-- The next state of a step, in the second run. -/
theorem Pairing.Outcomes.of_next {w : Pairing} {t : State} {o : Host.Outcome State Fault Refusal}
    (h : w.Outcomes (.next t) o) :
    (∃ a, w.Holds t a ∧ o = .next (t.inAmbient w.more a)) ∨
      (w.more ≠ [] ∧ t.errCode = .unexpectedEof) := by
  cases h with
  | next s a hsa => exact .inl ⟨a, hsa, rfl⟩
  | short o' _ ho =>
    obtain ⟨hmore, heof⟩ := ho
    exact .inr ⟨hmore, heof t rfl⟩

theorem Pairing.Outcomes.of_next_nil {w : Pairing} (hnil : w.more = []) {t : State}
    {o : Host.Outcome State Fault Refusal} (h : w.Outcomes (.next t) o) :
    ∃ a, w.Holds t a ∧ o = .next (t.inAmbient [] a) := by
  obtain ⟨a, ha, e⟩ | ⟨hmore, -⟩ := h.of_next
  · exact ⟨a, ha, hnil ▸ e⟩
  · exact absurd hnil hmore

/-- A step with more bytes after the end of IN: the same, at a later cursor, unless IN ran out. -/
theorem step_withTrailing {s t : State} (more : List Byte) (hstep : step s = .next t) :
    (s.toFront.Later t.toFront ∧ step (s.withTrailing more) = .next (t.withTrailing more)) ∨
      (more ≠ [] ∧ t.errCode = .unexpectedEof) := by
  have htwin := (Pairing.holds_same more s).step_twin rfl
    (fun sel _ => Pairing.serves_same more _ sel) fun _ => Pairing.ends_same more _
  rw [hstep] at htwin
  obtain ⟨a, ⟨hrel, hlater⟩, e⟩ | hshort := htwin.of_next
  · obtain rfl : a = t.ambient := hrel
    exact .inl ⟨hlater, e⟩
  · exact .inr hshort

/-- Settles O46: with no bytes after it, IN does not run out in one run only. -/
theorem cursorNeverMovesBackward : Obligations.CursorNeverMovesBackward := by
  intro s t h hstep
  obtain ⟨⟨-, hpos⟩, -⟩ | ⟨hnil, -⟩ := step_withTrailing [] hstep
  · exact (hpos h).symm
  · exact absurd rfl hnil

/-- Settles O50: the one exception is the input ending. -/
theorem trailingBytesDoNotMatter : Obligations.TrailingBytesDoNotMatter := by
  intro s t bs _ hstep heof
  obtain ⟨-, e⟩ | ⟨-, heof'⟩ := step_withTrailing bs hstep
  · exact e
  · exact absurd heof' heof

/-! ### The trace (O49) -/

/-- What is carried along, without the trace (60_exceptions.md R204). -/
def Ambient.untraced (a : Ambient) : Ambient :=
  { a with cfg := { a.cfg with trace := false }, traceLog := [] }

/-- A state paired with itself without the trace. -/
def Pairing.untraced (start : Front) : Pairing where
  more := []
  start := start
  rel a a' := a' = a.untraced
  raise_rel _ _ _ h := h ▸ rfl

theorem Pairing.serves_untraced (start : Front) (sel : Selector) :
    (Pairing.untraced start).Serves sel :=
  ⟨fun _ => ⟨fun _ _ h => h ▸ rfl, fun _ h => h ▸ rfl⟩,
    fun _ _ _ h => by cases h; exact ⟨rfl, rfl, fun _ => rfl⟩⟩

theorem Pairing.ends_untraced (start : Front) : (Pairing.untraced start).Ends :=
  fun h => by cases h; exact ⟨rfl, rfl, rfl, fun _ _ => rfl⟩

theorem step_untraced (s : State) : mapNext State.untraced (step s) = step s.untraced := by
  have htwin := (show (Pairing.untraced s.toFront).Holds s s.ambient.untraced from
    ⟨rfl, .refl _⟩).step_twin rfl (fun sel _ => Pairing.serves_untraced _ sel)
      fun _ => Pairing.ends_untraced _
  generalize step s = o at htwin
  rw [show s.untraced =
    s.inAmbient (Pairing.untraced s.toFront).more s.ambient.untraced from rfl]
  generalize step (s.inAmbient (Pairing.untraced s.toFront).more s.ambient.untraced) = o' at htwin
  cases htwin with
  | next t a ht =>
    obtain ⟨rfl : a = t.ambient.untraced, -⟩ := ht
    rfl
  | fault r => rfl
  | refused r => rfl
  | short _ _ ho => exact absurd rfl ho.1

/-- A state paired with itself, with its trace as the log `l`. -/
def Pairing.sameLog (l : List TraceEvent) (start : Front) : Pairing where
  more := []
  start := start
  rel a a' := a' = a ∧ a.traceLog = l
  raise_rel _ _ _ h := ⟨h.1 ▸ rfl, h.2⟩

section
variable (l : List TraceEvent) (start : Front)

theorem Pairing.serves_sameLog {sel : Selector} (hsel : ¬ Traces sel) :
    (Pairing.sameLog l start).Serves sel :=
  ⟨fun h => absurd h hsel, fun _ _ _ ⟨h, hl⟩ =>
    ⟨congrArg Ambient.out h, congrArg (Config.outCap ∘ Ambient.cfg) h, fun _ => ⟨h ▸ rfl, hl⟩⟩⟩

theorem Pairing.ends_sameLog : (Pairing.sameLog l start).Ends :=
  fun ⟨h, hl⟩ => ⟨congrArg Ambient.bfinal h, congrArg Ambient.out h, ⟨h ▸ rfl, hl⟩,
    fun _ _ => ⟨h ▸ rfl, hl⟩⟩

end

/-- An outcome whose next state, if any, has the trace `l`. -/
def KeepsLog (l : List TraceEvent) (o : Host.Outcome State Fault Refusal) : Prop :=
  ∀ t, o = .next t → t.traceLog = l

theorem keepsLog_of_outcomes {l : List TraceEvent} {start : Front}
    {o o' : Host.Outcome State Fault Refusal} (h : (Pairing.sameLog l start).Outcomes o o') :
    KeepsLog l o := by
  rintro t rfl
  obtain ⟨a, ⟨⟨-, hl⟩, -⟩, -⟩ := h.of_next_nil rfl
  exact hl

theorem Pairing.holds_sameLog (s : State) :
    (Pairing.sameLog s.traceLog s.toFront).Holds s s.ambient := ⟨⟨rfl, rfl⟩, .refl _⟩

/-- Only the elements that can trace change the trace. -/
theorem step_keepsLog {s : State} (hsel : ∀ sel, s.action = .element sel → ¬ Traces sel) :
    KeepsLog s.traceLog (step s) :=
  keepsLog_of_outcomes ((Pairing.holds_sameLog s).step_twin rfl
    (fun sel ha => Pairing.serves_sameLog _ _ (hsel sel ha)) fun _ => Pairing.ends_sameLog _ _)

/-- What ReadBits(n) gives is a number of n bits, wherever the cursor is (41_bitreader.md R73). -/
theorem Front.readBitsLoop_lt {n i v r : Nat} {f g : Front} (hv : v < 2 ^ i)
    (h : Front.readBitsLoop n i v f = .ok r g) : r < 2 ^ (i + n) := by
  induction n generalizing f i v with
  | zero => cases h; exact hv
  | succ n ih =>
    obtain ⟨b, k, hb, h⟩ := Read.andThen_eq_ok h
    have hb1 : b < 2 := by
      unfold Front.readBit at hb
      split at hb
      · cases hb
      · split at hb
        · cases hb
        · cases hb
          exact Nat.lt_succ_of_le Nat.and_le_right
    rw [show i + (n + 1) = (i + 1) + n by omega]
    refine ih (Nat.or_lt_two_pow (Nat.lt_trans hv (Nat.pow_lt_pow_succ Nat.one_lt_two)) ?_) h
    rw [Nat.shiftLeft_eq, Nat.pow_succ, Nat.mul_comm]
    exact Nat.mul_lt_mul_of_pos_left hb1 (Nat.two_pow_pos i)

theorem Front.readBits_lt {n v : Nat} {f g : Front} (h : f.readBits n = .ok v g) : v < 2 ^ n := by
  unfold Front.readBits at h
  split at h
  · cases h
  split at h
  · cases h
  · exact Nat.zero_add n ▸ Front.readBitsLoop_lt Nat.one_pos h

section
variable (s : State)

/-- A read of the front end that ends the step leaves the trace. -/
theorem liftRead_keepsLog {α : Type} {r : Read α} {o : Host.Outcome State Fault Refusal}
    (h : liftRead s r = .stop o) : KeepsLog s.traceLog o := by
  cases r with
  | ok x f => cases h
  | raised e f => cases h; exact fun t ht => Host.Outcome.next.inj ht ▸ rfl
  | fault x => cases h; exact fun t ht => by cases ht
  | refused x => cases h; exact fun t ht => by cases ht

/-- A count either ends the step, with the trace as it was, or gives a value. -/
theorem readOffset_reads (base n : Nat) :
    (∃ o, readOffset base n s = .stop o ∧ KeepsLog s.traceLog o ∧
      ∀ x f, s.toFront.readBits n ≠ .ok x f) ∨
    ∃ x f, s.toFront.readBits n = .ok x f ∧
      readOffset base n s = .done (base + x) (s.withFront f) := by
  unfold readOffset
  cases hr : s.readBits n with
  | done x t =>
    obtain ⟨f, hf, rfl⟩ := liftRead_eq_done hr
    exact .inr ⟨x, f, hf, rfl⟩
  | stop o =>
    refine .inl ⟨o, rfl, liftRead_keepsLog s hr, fun x f hf => ?_⟩
    rw [State.readBits, hf] at hr
    cases hr

/-- The two reads of a block header (44_block_decoder.md R102). -/
def State.ReadsHeader (b t : Nat) : Prop :=
  ∃ f g, s.toFront.readBits 1 = .ok b f ∧ f.readBits 2 = .ok t g

/-- The three reads of a dynamic header (43_dynamic_header.md R90). -/
def State.ReadsCounts (a b c : Nat) : Prop :=
  ∃ f g h, s.toFront.readBits 5 = .ok a f ∧ f.readBits 5 = .ok b g ∧ g.readBits 4 = .ok c h

/-- The trace with one more event, when TRACE is true. -/
def State.logged (e : TraceEvent) : List TraceEvent :=
  if s.cfg.trace then s.traceLog ++ [e] else s.traceLog

/-- A block header is traced by its two fields, and not without them. -/
theorem execHeader_log {b t : Nat} (hb : b < 2) (ht : t < 4) {i : Instr}
    (hi : headerInstr (b + (t <<< 1)) = some i) :
    KeepsLog (s.logged (.hdr s.blockIndex b t)) (exec i s) := by
  rw [headerInstr_of_fields b (Nat.le_of_lt_succ hb) t (Nat.le_of_lt_succ ht)] at hi
  match t, ht, hi with
  | 0, _, hi => cases hi; rintro _ h; rw [exec_blockStored, startBody_eq] at h; cases h; rfl
  | 1, _, hi => cases hi; rintro _ h; rw [exec_blockFixed, startBody_eq] at h; cases h; rfl
  | 2, _, hi => cases hi; rintro _ h; rw [exec_blockDynamic, startBody_eq] at h; cases h; rfl
  | 3, _, hi =>
    cases hi
    rintro _ h
    rw [exec_blockReserved, State.setHeader_eq_withHeader] at h
    cases h
    rfl

theorem step_header_log (ha : s.action = .element .header) {b t : Nat} (hreads : s.ReadsHeader b t) :
    KeepsLog (s.logged (.hdr s.blockIndex b t)) (step s) := by
  obtain ⟨f, g, hb, ht⟩ := hreads
  have hb2 := Front.readBits_lt hb
  have ht4 := Front.readBits_lt ht
  have hrow : decodeRow .header s.toFront = .ok (.header (b + (t <<< 1))) g := by
    rw [decodeRow, hb, Read.andThen, ht]
    rfl
  have hinstr := headerInstr_of_fields b (Nat.le_of_lt_succ hb2) t (Nat.le_of_lt_succ ht4)
  rw [List.getElem?_eq_getElem (by exact ht4)] at hinstr
  rw [step_element ha (fetch_of_ok (decodeAt_of_row hrow hinstr))]
  exact execHeader_log (s.withFront g) hb2 ht4 hinstr

theorem step_header_keepsLog (ha : s.action = .element .header)
    (hreads : ∀ b t, ¬ s.ReadsHeader b t) : KeepsLog s.traceLog (step s) := by
  cases hf : fetch .header s with
  | done i u =>
    obtain ⟨g, hd, rfl⟩ := liftRead_eq_done hf
    obtain ⟨row, hrow, -⟩ := decodeAt_eq_ok hd
    obtain ⟨b, f, hb, hrow⟩ := Read.andThen_eq_ok hrow
    obtain ⟨t, k, ht, -⟩ := Read.andThen_eq_ok hrow
    exact absurd ⟨f, k, hb, ht⟩ (hreads b t)
  | stop o => rw [step_element_stop ha hf]; exact liftRead_keepsLog s hf

/-- The three counts are traced once all are read, and nothing before (43_dynamic_header.md R90). -/
theorem readCounts_log :
    (∃ o, readCounts s = .stop o ∧ KeepsLog s.traceLog o ∧ ∀ a b c, ¬ s.ReadsCounts a b c) ∨
    ∃ a b c t, s.ReadsCounts a b c ∧ readCounts s = .done (4 + c) t ∧
      t.traceLog = s.logged (.dyn s.blockIndex (a + 257) (b + 1) (c + 4)) := by
  unfold readCounts readHlit readHdist readHclen
  obtain ⟨o, e, ho, hno⟩ | ⟨a, f, hf, e⟩ := readOffset_reads s 257 5
  · exact .inl ⟨o, by rw [e]; rfl, ho, fun a b c ⟨f, g, k, hf, hg, hk⟩ => hno a f hf⟩
  rw [e, OpRes.andThen_done]
  obtain ⟨o, e, ho, hno⟩ | ⟨b, g, hg, e⟩ :=
    readOffset_reads { s.withFront f with hlit := some (257 + a) } 1 5
  · refine .inl ⟨o, by rw [e]; rfl, ho, fun a b c ⟨f, g, k, hf', hg, hk⟩ => ?_⟩
    cases hf.symm.trans hf'
    exact hno b g hg
  rw [e, OpRes.andThen_done]
  obtain ⟨o, e, ho, hno⟩ | ⟨c, k, hk, e⟩ := readOffset_reads
    { { s.withFront f with hlit := some (257 + a) }.withFront g with hdist := some (1 + b) } 4 4
  · refine .inl ⟨o, by rw [e]; rfl, ho, fun a b c ⟨f, g, k, hf', hg', hk⟩ => ?_⟩
    cases hf.symm.trans hf'
    cases hg.symm.trans hg'
    exact hno c k hk
  rw [e, OpRes.andThen_done]
  refine .inr ⟨a, b, c, _, ⟨f, g, k, hf, hg, hk⟩, rfl, ?_⟩
  rw [State.logged, Nat.add_comm a, Nat.add_comm b, Nat.add_comm c]
  unfold State.traced
  show (if s.cfg.trace then _ else _ : State).traceLog = _
  split <;> rfl

theorem exec_dynHeader : exec .dynHeader s = execDynHeader s := rfl

/-- A dynamic header is traced by its counts, and not without them: nothing after them traces. -/
theorem step_dynHeader_log (ha : s.action = .element .dynHeader) :
    (KeepsLog s.traceLog (step s) ∧ ∀ a b c, ¬ s.ReadsCounts a b c) ∨
    ∃ a b c, s.ReadsCounts a b c ∧
      KeepsLog (s.logged (.dyn s.blockIndex (a + 257) (b + 1) (c + 4))) (step s) := by
  rw [step_element ha (fetch_of_ok (i := .dynHeader) rfl), State.withFront_self, exec_dynHeader,
    execDynHeader_eq]
  obtain ⟨o, e, ho, hno⟩ | ⟨a, b, c, t, hreads, e, hlog⟩ := readCounts_log s
  · rw [e]
    exact .inl ⟨ho, hno⟩
  · rw [e, OpRes.andThen_done]
    refine .inr ⟨a, b, c, hreads, ?_⟩
    rw [← hlog]
    exact keepsLog_of_outcomes ((Pairing.holds_sameLog t).clTableAfterCounts_twin (4 + c)).outcome

end

/-- Settles O49: the two elements that trace, every other step, and the read of the log. -/
theorem traceRecordsHeadersAndChangesNothingElse :
    Obligations.TraceRecordsHeadersAndChangesNothingElse := by
  refine ⟨step_untraced, fun s t hstep => ⟨fun ha b ty f g hb hty => ?_,
    fun ha a b c f g k hf hg hk => ?_, ?_⟩, fun s htrace => if_pos htrace⟩
  · exact step_header_log s ha ⟨f, g, hb, hty⟩ t hstep
  · obtain ⟨-, hno⟩ | ⟨a', b', c', ⟨f', g', k', hf', hg', hk'⟩, hlog⟩ := step_dynHeader_log s ha
    · exact absurd ⟨f, g, k, hf, hg, hk⟩ (hno a b c)
    · cases hf.symm.trans hf'
      cases hg.symm.trans hg'
      cases hk.symm.trans hk'
      exact hlog t hstep
  · by_cases hheader : s.action = .element .header
    · by_cases hreads : ∃ b ty, s.ReadsHeader b ty
      · exact .inr (.inl ⟨hheader, hreads⟩)
      · exact .inl (step_header_keepsLog s hheader (fun b ty h => hreads ⟨b, ty, h⟩) t hstep)
    by_cases hdyn : s.action = .element .dynHeader
    · obtain ⟨hkeep, -⟩ | ⟨a, b, c, hreads, -⟩ := step_dynHeader_log s hdyn
      · exact .inl (hkeep t hstep)
      · exact .inr (.inr ⟨hdyn, a, b, c, hreads⟩)
    refine .inl (step_keepsLog (fun sel ha htraces => ?_) t hstep)
    obtain rfl | rfl := htraces
    · exact hheader ha
    · exact hdyn ha

end Sys2Proof.Machine

namespace Sys2Proof.Machine

/-! ### The entry points (O57, O60) -/

/-- An engine that a tester sets up beside a decode carries along the same STATUS and ERRCODE. -/
def Pairing.sameError (start : Front) : Pairing where
  more := []
  start := start
  rel a a' := a'.status = a.status ∧ a'.errCode = a.errCode
  raise_rel _ _ _ _ := ⟨rfl, rfl⟩

/-- The same with OUT and OUT_CAP, and with BFINAL once it is written. -/
def Pairing.sameBlock (start : Front) : Pairing where
  more := []
  start := start
  rel a a' := a'.status = a.status ∧ a'.errCode = a.errCode ∧ a'.out = a.out ∧
    a'.cfg.outCap = a.cfg.outCap ∧ (a'.bfinal = none ∨ a'.bfinal = a.bfinal)
  raise_rel _ _ _ := fun ⟨_, _, _, hcap, _⟩ => ⟨rfl, rfl, rfl, hcap, .inl rfl⟩

theorem Pairing.serves_sameBlock (start : Front) (sel : Selector) :
    (Pairing.sameBlock start).Serves sel :=
  ⟨fun _ => ⟨fun _ _ ⟨hstatus, herr, hout, hcap, _⟩ => ⟨hstatus, herr, hout, hcap, .inr rfl⟩,
      fun _ h => h⟩,
    fun _ _ _ ⟨hstatus, herr, hout, hcap, hfinal⟩ =>
      ⟨hout, hcap, fun _ => ⟨hstatus, herr, rfl, hcap, hfinal⟩⟩⟩

theorem Pairing.serves_sameError (start : Front) {sel : Selector} (hsel : ¬ WritesBytes sel) :
    (Pairing.sameError start).Serves sel :=
  ⟨fun _ => ⟨fun _ _ h => h, fun _ h => h⟩, fun h => absurd h hsel⟩

/-- In PHASE DYNAMIC no element writes OUT (43_dynamic_header.md R89). -/
theorem not_writesBytes_of_dynamic {s : State} (hb : s.status = .busy) (hp : s.phase = .dynamic)
    {sel : Selector} (ha : s.action = .element sel) : ¬ WritesBytes sel := by
  have ha : s.dynamicAction = .element sel := by simpa only [State.action, hb, hp] using ha
  unfold State.dynamicAction at ha
  split at ha
  · cases ha; exact id
  · split at ha
    · split at ha
      · cases ha; exact id
      · cases ha
    · cases ha
    · cases ha
    · cases ha

theorem inv_of_stepsToBoundary {k : Nat} {s t : State} (hs : s.Inv)
    (h : stepsToBoundary k s = .next t) : t.Inv := by
  induction k generalizing s with
  | zero => cases h; exact hs
  | succ k ih =>
    obtain ⟨u, hstep, ⟨-, hu⟩ | ⟨-, rfl⟩⟩ := stepsToBoundary_succ h
    · exact ih (stepKeepsTheInvariant s u hs hstep) hu
    · exact stepKeepsTheInvariant s u hs hstep

/-- The same steps of a dynamic header beside each other. -/
theorem stepsToBoundary_twin {k : Nat} {s t : State} {start : Front} {a : Ambient} (hs : s.InHeader)
    (h : (Pairing.sameError start).Holds s a) (ht : stepsToBoundary k s = .next t) :
    ∃ a', (Pairing.sameError start).Holds t a' ∧
      stepsToBoundary k (s.inAmbient [] a) = .next (t.inAmbient [] a') := by
  induction k generalizing s a with
  | zero => cases ht; exact ⟨a, h, rfl⟩
  | succ k ih =>
    obtain ⟨hinv, hb, hp⟩ := id hs
    obtain ⟨⟨hst, -⟩, -⟩ := id h
    have htwin := h.step_twin hst
      (fun sel ha => Pairing.serves_sameError start (not_writesBytes_of_dynamic hb hp ha))
      fun ha => nomatch hp.symm.trans (State.action_blockDone ha)
    obtain ⟨u, hstep, hu⟩ := stepsToBoundary_succ ht
    rw [hstep] at htwin
    obtain ⟨a', hua, hstep'⟩ := htwin.of_next_nil rfl
    rw [stepsToBoundary, show step (s.inAmbient [] a) = _ from hstep']
    obtain ⟨hmid, hu⟩ | ⟨hmid, rfl⟩ := hu
    · obtain ⟨a'', hta, hsteps⟩ := ih (inHeader_of_step hs hstep hmid) hua hu
      exact ⟨a'', hta, (if_pos hmid).trans hsteps⟩
    · exact ⟨a', hua, if_neg (by rw [show (u.inAmbient [] a').midElement = false from hmid]; nofun)⟩

/-- An engine set up beside a decode, at the start of a header, differs from it in the ambient only
(44_block_decoder.md R176, 43_dynamic_header.md R101). -/
theorem State.testBench_eq {s : State} (hs : s.Inv) (htables : s.tablesBottom) (hdyn : s.dynBottom)
    (hlen : s.length = none) (cfg : Config) (out : Memory) :
    State.testBench cfg s.toFront out s.phase =
      s.inAmbient [] (State.testBench cfg s.toFront out s.phase).ambient := by
  obtain ⟨hcode, hacc⟩ := hs.accBottom
  obtain ⟨hlit, hdist⟩ := htables
  obtain ⟨ha, hb, hc, hcl, hT, hL⟩ := hdyn
  simp [State.testBench, State.inAmbient, State.ambient, State.resetWith, hcode, hacc, hlit, hdist,
    ha, hb, hc, hcl, hT, hL, hlen, hs.distanceBottom, Memory.appendAll]

/-- Settles O57: the two runs have the same steps, and an error leaves no table. -/
theorem dynHeaderEntryPointAgrees : Obligations.DynHeaderEntryPointAgrees := by
  intro cfg s t hs hb hp hmid ht
  obtain ⟨htables, hdyn, hlen, -⟩ := (State.phaseInv_dynamic hp).mp hs.phase
  have hcl : s.clTable = none := by simpa [State.midElement, hlen] using hmid
  have hdyn : s.dynBottom := hdyn.resolve_right fun ⟨_, _, _, _, _, _, _, _, _, _, _, hT, _⟩ => by
    rw [hcl] at hT
    cases hT
  have hbench := hp ▸ State.testBench_eq hs htables hdyn hlen cfg []
  obtain ⟨-, herr, -⟩ := hs.busy hb
  obtain ⟨a, ⟨⟨-, hcode⟩, -⟩, hrun⟩ := stepsToBoundary_twin (start := s.toFront)
    (a := (State.testBench cfg s.toFront [] .dynamic).ambient) ⟨hs, hb, hp⟩
    ⟨⟨hb.symm, herr.symm⟩, .refl _⟩ ht
  rw [← hbench] at hrun
  have hdecode : decodeDynamicHeader cfg s.toFront =
      match t.litTable, t.distTable with
      | some lit, some dist => .ok (lit, dist) t.toFront
      | _, _ => .raised t.errCode t.toFront := by
    rw [decodeDynamicHeader, elementStep, hrun, show t.errCode = a.errCode from hcode.symm]
    rfl
  refine ⟨fun hstatus => ?_, fun lit dist hlit hdist => ?_⟩
  · obtain ⟨-, ⟨hlit, hdist⟩, -⟩ :=
      (inv_of_stepsToBoundary hs ht).of_not_busy (by rw [hstatus]; nofun)
    rw [hdecode, hlit, hdist]
  · rw [hdecode, hlit, hdist]

/-- Two blocks side by side: the same end, and the same stop at OUT_CAP. -/
theorem stepsToBlockEnd_twin {start : Front} (k : Nat) {s : State} {a : Ambient}
    (h : (Pairing.sameBlock start).Holds s a) :
    (Pairing.sameBlock start).Outcomes (stepsToBlockEnd k s)
      (stepsToBlockEnd k (s.inAmbient [] a)) := by
  induction k generalizing s a with
  | zero => exact .next s a h
  | succ k ih =>
    by_cases hend : s.phase = .blockDone ∨ s.phase = .halt
    · rw [stepsToBlockEnd_of_end hend, stepsToBlockEnd_of_end (s := s.inAmbient [] a) hend]
      exact .next s a h
    obtain ⟨hdone, hhalt⟩ := not_or.mp hend
    obtain ⟨⟨hst, -⟩, -⟩ := id h
    have htwin := h.step_twin hst (fun sel _ => Pairing.serves_sameBlock start sel)
      fun ha => absurd (State.action_blockDone ha) hdone
    rw [stepsToBlockEnd_succ hdone hhalt, stepsToBlockEnd_succ (s := s.inAmbient [] a) hdone hhalt]
    generalize step s = o at htwin
    generalize hstep' : step (s.inAmbient (Pairing.sameBlock start).more a) = o' at htwin
    rw [show step (s.inAmbient [] a) = o' from hstep']
    cases htwin with
    | next u a' hu => exact ih hu
    | fault r => exact .fault r
    | refused r => exact .refused r
    | short _ _ ho => exact absurd rfl ho.1

theorem inv_of_stepsToBlockEnd {k : Nat} {s t : State} (hs : s.Inv)
    (h : stepsToBlockEnd k s = .next t) : t.Inv := by
  induction k generalizing s with
  | zero => cases h; exact hs
  | succ k ih =>
    by_cases hend : s.phase = .blockDone ∨ s.phase = .halt
    · rw [stepsToBlockEnd_of_end hend] at h
      cases h
      exact hs
    obtain ⟨hdone, hhalt⟩ := not_or.mp hend
    rw [stepsToBlockEnd_succ hdone hhalt] at h
    cases hstep : step s with
    | next u => rw [hstep] at h; exact ih (stepKeepsTheInvariant s u hs hstep) h
    | fault r => rw [hstep] at h; cases h
    | refused r => rw [hstep] at h; cases h

/-- An error leaves OUT with no value (60_exceptions.md R198). -/
theorem State.Inv.out_of_error {t : State} (ht : t.Inv) (hst : t.status = .error) : t.out = none := by
  have hstatus := ht.status
  simp only [State.statusInv, hst] at hstatus
  obtain ⟨-, -, -, -, -, -, -, -, hout, -⟩ := hstatus
  exact hout

/-- An engine set up at a header over the front end and the OUT of a decode meets the invariant. -/
theorem State.Inv.testBench {s : State} (hs : s.Inv) (hb : s.status = .busy) {m : Memory}
    (hm : s.out = some m) : (State.testBench s.cfg s.toFront m .readHeader).Inv := by
  obtain ⟨m', hm', hout⟩ := hs.exists_out hb
  obtain rfl : m' = m := Option.some.inj (hm'.symm.trans hm)
  have hok := hs.ok hb
  exact ⟨hok.inputWf, hout, ⟨rfl, rfl⟩, rfl, trivial, trivial,
    ⟨⟨rfl, rfl⟩, ⟨rfl, rfl, rfl, rfl, rfl, rfl⟩, rfl, .inl ⟨rfl, rfl, rfl⟩⟩,
    ⟨nofun, rfl, rfl, rfl, rfl, rfl, rfl, nofun, hok, fun h => absurd rfl h⟩⟩

/-- The steps that the entry point runs are enough for a block: two for each bit that is left, and the
steps that read none. -/
theorem State.Inv.stepsLeft_le_decodeFuel {s : State} (hp : s.phase = .readHeader) :
    s.stepsLeft ≤ decodeFuel s.input.size := by
  rw [State.stepsLeft, hp, decodeFuel]
  have : s.toFront.bitsRemaining ≤ 8 * s.input.size := by
    rw [Front.bitsRemaining_eq]
    omega
  simp only [Phase.weight]
  omega

/-- Settles O60: the block ends within the steps that the entry point runs, and the two runs end alike;
at BLOCK_DONE both have BFINAL. -/
theorem blockEntryPointAgrees : Obligations.BlockEntryPointAgrees := by
  intro s m hs hb hp hm
  obtain ⟨htables, hdyn, hlen, -⟩ := (State.phaseInv_readHeader hp).mp hs.phase
  obtain ⟨-, herr, -⟩ := hs.busy hb
  have hbench := hp ▸ State.testBench_eq hs htables hdyn hlen s.cfg m
  have htwin := stepsToBlockEnd_twin (start := s.toFront) (decodeFuel s.input.size)
    (a := (State.testBench s.cfg s.toFront m .readHeader).ambient)
    ⟨⟨hb.symm, herr.symm, hm.symm, rfl, .inl rfl⟩, .refl _⟩
  rw [← hbench] at htwin
  have hinv := fun t => inv_of_stepsToBlockEnd (k := decodeFuel s.input.size) (t := t)
    (hs.testBench hb hm)
  obtain ⟨t, hrun, ht, hbt, hpt⟩ | ⟨t, hrun, hst⟩ | ⟨hrun, hcap⟩ :=
    stepsToBlockEnd_ends hs hb (State.Inv.stepsLeft_le_decodeFuel hp)
  · rw [hrun] at htwin
    obtain ⟨a, ⟨⟨hst, -, hout, -, hfinal⟩, -⟩, hrun'⟩ := htwin.of_next_nil rfl
    obtain ⟨n, hn, -⟩ := ht.exists_out hbt
    obtain ⟨b, hbf, -⟩ := ht.exists_bfinal hbt (by rw [hpt]; nofun)
    obtain ⟨b', hbf', -⟩ := (hinv _ hrun').exists_bfinal (hst.trans hbt) (by
      rw [show (t.inAmbient [] a).phase = .blockDone from hpt]; nofun)
    have hfinal : a.bfinal = t.bfinal := hfinal.resolve_left fun h => nomatch h.symm.trans hbf'
    refine .inl ⟨t, b, n, hrun, hpt, hbf, hn, ?_⟩
    have hfinal' : (t.inAmbient [] a).bfinal = some b := hfinal.trans hbf
    have hout' : (t.inAmbient [] a).out = some n := hout.trans hn
    rw [decodeBlock, hrun']
    dsimp only
    rw [hfinal', hout']
    rfl
  · rw [hrun] at htwin
    obtain ⟨a, ⟨⟨-, hcode, hout, -⟩, -⟩, hrun'⟩ := htwin.of_next_nil rfl
    have hnone := (inv_of_stepsToBlockEnd hs hrun).out_of_error hst
    refine .inr (.inl ⟨t, hrun, hst, ?_⟩)
    have hout' : (t.inAmbient [] a).out = none := hout.trans hnone
    rw [decodeBlock, hrun', show t.errCode = a.errCode from hcode.symm]
    dsimp only
    rw [hout']
    cases (t.inAmbient [] a).bfinal <;> rfl
  · rw [hrun] at htwin
    refine .inr (.inr ⟨hrun, hcap, ?_⟩)
    rw [decodeBlock]
    generalize stepsToBlockEnd _ (State.testBench s.cfg s.toFront m .readHeader) = o at htwin ⊢
    cases htwin with
    | fault => rfl
    | short _ _ ho => exact absurd rfl ho.1

end Sys2Proof.Machine

/-! ## Streams written out and decoded (O39, O58, O59)

What an element's bits do to a state that stands before them; then the elements of a whole
back-reference, of a stored block and of a block of fixed literals, one after the other. -/

namespace Sys2Proof.Machine

/-! ### The bits ahead -/

/-- The front end stands before `bits`, whatever follows them. -/
def Front.Before (f : Front) (bits : List Bool) : Prop := f.ok ∧ bits <+: f.unread

section
variable {f : Front}

theorem Front.Before.ok {bits : List Bool} (h : f.Before bits) : f.ok := h.1

theorem Front.Before.of_append {bits more : List Bool} (h : f.Before (bits ++ more)) :
    f.Before bits ∧ (f.advance bits.length).Before more := by
  obtain ⟨hok, rest, hrest⟩ := h
  have hpre : bits <+: f.unread := ⟨more ++ rest, by rw [← hrest, List.append_assoc]⟩
  refine ⟨⟨hok, hpre⟩, hok.advance (Front.length_le_of_prefix hpre), rest, ?_⟩
  rw [Front.unread_advance, ← hrest, List.append_assoc, List.drop_left]

/-- A field ahead is what ReadBits gives (41_bitreader.md R73). -/
theorem Front.Before.field {n v : Nat} (hv : v < 2 ^ n) (h : f.Before (fieldBits n v)) :
    n ≤ f.bitsRemaining ∧ f.peek n = v := by
  obtain ⟨hok, hpre⟩ := h
  exact ⟨length_fieldBits n v ▸ Front.length_le_of_prefix hpre, Front.peek_of_prefix hok hv hpre⟩

end

section
variable {s : State} (hacc : s.accCode = none ∧ s.accLen = none)
include hacc

/-- The step of an element whose bits are ahead is its meaning, past them (45_decoder_top.md R180). -/
theorem step_of_before {sel : Selector} (ha : s.action = .element sel) (hsel : sel.built)
    {row : OpcodeRow} {i : Instr} (hi : row.instr = some i) {bits : List Bool}
    (henc : encodeRow sel row = some bits) (h : s.toFront.Before bits) :
    step s = exec i (s.withFront (s.toFront.advance bits.length)) := by
  obtain ⟨hok, hpre⟩ := h
  obtain ⟨g, hd, hpast⟩ := decodeRow_of_bits hok hsel (by rw [hi]; nofun) henc hpre
  obtain rfl := hpast.eq_advance hacc
  exact step_element ha (fetch_of_ok (decodeAt_of_row hd hi))

variable (hb : s.status = .busy) (hp : s.phase = .decoding)
include hb hp

theorem step_of_litLen {T : HuffmanTable} (hlen : s.length = none) (hT : s.litTable = some T)
    (hbuilt : BuiltFor litLenSymbols T) {sym : Nat} {i : Instr} (hi : litLenInstr sym = some i)
    {bits : List Bool} (hsym : symbolBits T sym = some bits) (h : s.toFront.Before bits) :
    step s = exec i (s.withFront (s.toFront.advance bits.length)) :=
  step_of_before hacc (State.action_of_litLen hb hp hlen hT) hbuilt (row := .litLen sym) hi hsym h

/-- A length symbol with its extra bits (44_block_decoder.md R113). -/
theorem step_of_length {T : HuffmanTable} (hlen : s.length = none) (hT : s.litTable = some T)
    (hbuilt : BuiltFor litLenSymbols T) {k base extra x : Nat} (hbase : lenBase[k]? = some base)
    (hextra : lenExtra[k]? = some extra) (hx : x < 2 ^ extra) {bits : List Bool}
    (hsym : symbolBits T (257 + k) = some bits) (h : s.toFront.Before (bits ++ fieldBits extra x)) :
    step s = .next { s.withFront (s.toFront.advance (bits.length + extra)) with
      length := some (base + x) } := by
  obtain ⟨h, hfield⟩ := h.of_append
  obtain ⟨hle, hpeek⟩ := hfield.field hx
  obtain ⟨hk, -⟩ := List.getElem?_eq_some_iff.mp hbase
  have hk : k < 29 := hk
  have hi : lengthInstrs[k]? = some (lengthInstrs[k]'(show k < 31 by omega)) :=
    List.getElem?_eq_getElem _
  have hi' : litLenInstr (257 + k) = some (lengthInstrs[k]'(show k < 31 by omega)) := by
    rw [litLenInstr, if_neg (by omega), if_neg (by omega), Nat.add_sub_cancel_left, hi]
  obtain ⟨hx5, -⟩ := lenTable_row hbase hextra
  rw [step_of_litLen hacc hb hp hlen hT hbuilt hi' hsym h, exec_lengthInstr hi hbase hextra]
  obtain ⟨-, e⟩ | ⟨hlt, -⟩ := lengthSymbol_cases (s := s.withFront (s.toFront.advance bits.length))
    hfield.ok base (show extra ≤ 16 by omega)
  · rw [e, State.withFront_toFront, hpeek, Front.advance_advance]
    rfl
  · exact absurd hle (Nat.not_le.mpr hlt)

/-- A distance symbol with its extra bits: the copy (44_block_decoder.md R113, R115). -/
theorem step_of_distance {T : HuffmanTable} {n : Nat} (hlen : s.length = some n)
    (hT : s.distTable = some T) (hbuilt : BuiltFor distSymbols T) {j base extra y : Nat}
    (hbase : distBase[j]? = some base) (hextra : distExtra[j]? = some extra) (hy : y < 2 ^ extra)
    {bits : List Bool} (hsym : symbolBits T j = some bits)
    (h : s.toFront.Before (bits ++ fieldBits extra y)) {m : Memory} (hm : s.out = some m)
    (hw : m.wf = true) (hd : base + y ≤ m.size) (hc : withinCap s.cfg (m.size + n)) :
    step s = .next { s.withFront (s.toFront.advance (bits.length + extra)) with
      out := some (m.appendAll (copied m.bytes (base + y) n)), length := none, distance := none } := by
  obtain ⟨h, hfield⟩ := h.of_append
  obtain ⟨hle, hpeek⟩ := hfield.field hy
  obtain ⟨hj, -⟩ := List.getElem?_eq_some_iff.mp hbase
  have hj : j < 30 := hj
  have hi : distInstrs[j]? = some (distInstrs[j]'(show j < 32 by omega)) := List.getElem?_eq_getElem _
  obtain ⟨hx13, hbase1⟩ := distTable_row hbase hextra
  rw [step_of_before hacc (State.action_of_dist hb hp hlen hT) hbuilt (row := .dist j) hi hsym h,
    exec_distInstr hi hbase hextra]
  subst hpeek
  rw [distanceSymbol_copy (s := s.withFront (s.toFront.advance bits.length)) (by omega) hfield.ok hm hw
    hlen hbase1 hle hd hc, State.withFront_toFront, Front.advance_advance]
  rfl

end

/-! ### A back-reference (O39) -/

/-- An element of two steps. -/
theorem elementStep_of_two {s u t : State} (h : step s = .next u) (hmid : u.midElement = true)
    (h' : step u = .next t) (hend : t.midElement = false) : elementStep s = .next t := by
  rw [elementStep, maxElementSteps, stepsToBoundary, h]
  dsimp only
  rw [if_pos hmid, stepsToBoundary, h']
  dsimp only
  rw [if_neg (by rw [hend]; nofun)]

/-- Settles O39: the length symbol's step and the distance symbol's. -/
theorem backReferenceIsOneElementStep : Obligations.BackReferenceIsOneElementStep := by
  intro s m Tl Td k j lb le db de x y lbits dbits rest hs hb hp hlen hTl hTd hm hlb hle hdb hde hx hy
    hl hd hunread hdist hcap
  obtain ⟨⟨hlit, hdistT⟩, ⟨-, -, -, -, hcl, -⟩, -⟩ := (State.phaseInv_decoding hp).mp hs.phase
  rw [hTl] at hlit
  rw [hTd] at hdistT
  obtain ⟨m', hm', hw, -⟩ := hs.exists_out hb
  obtain rfl : m' = m := Option.some.inj (hm'.symm.trans hm)
  have hbefore : s.toFront.Before ((lbits ++ fieldBits le x) ++ (dbits ++ fieldBits de y)) :=
    ⟨hs.ok hb, rest, by rw [hunread]; simp only [List.append_assoc]⟩
  obtain ⟨hlength, hdistance⟩ := hbefore.of_append
  rw [List.length_append, length_fieldBits] at hdistance
  have h1 := step_of_length hs.accBottom hb hp hlen hTl hlit hlb hle hx hl hlength
  have h2 := step_of_distance (s := { s.withFront (s.toFront.advance (lbits.length + le)) with
    length := some (lb + x) }) hs.accBottom hb hp rfl hTd hdistT hdb hde hy hd hdistance hm hw hdist
    hcap
  rw [elementStep_of_two h1 rfl h2 (by show (false || s.clTable.isSome) = false; rw [hcl]; rfl)]
  simp only [State.withFront, Front.advance_advance, hlen, hs.distanceBottom, Nat.add_assoc]

end Sys2Proof.Machine

namespace Sys2Proof.Machine

/-! ### Runs of a whole decode -/

theorem runSteps_trans {j k : Nat} {s t u : State} (h : runSteps j s = .next t)
    (h' : runSteps k t = .next u) : runSteps (j + k) s = .next u := by
  induction j generalizing s with
  | zero => cases h; rwa [Nat.zero_add]
  | succ j ih =>
    rw [Nat.succ_add, runSteps]
    rw [runSteps] at h
    cases hstep : step s with
    | next v => rw [hstep] at h; exact ih h
    | fault r => rw [hstep] at h; cases h
    | refused r => rw [hstep] at h; cases h

theorem runSteps_cons {k : Nat} {s t u : State} (h : step s = .next t)
    (h' : runSteps k t = .next u) : runSteps (k + 1) s = .next u := by
  rw [runSteps, h]
  exact h'

/-- A run that has ended goes on as it is, however many steps more (45_decoder_top.md R183). -/
theorem runSteps_of_ended {j k : Nat} (hjk : j ≤ k) {s t : State} (h : runSteps j s = .next t)
    (ht : t.status ≠ .busy) : runSteps k s = .next t := by
  rw [← Nat.add_sub_cancel' hjk]
  exact runSteps_trans h (runSteps_of_not_busy ht _)

/-- A run of any length that ends in DONE is the decode's: both end, so the longer is the shorter. -/
theorem decodeMember_of_run {cfg : Config} (hcap : cfg.outCap = none) {bs : List Byte} {k : Nat}
    {t : State} (h : runSteps k (State.started cfg bs) = .next t) (ht : t.status = .done) :
    decodeMember cfg bs = t.result := by
  obtain ⟨u, hu, hend⟩ := everyDecodeEnds cfg bs hcap
  have hu' : u.status ≠ .busy := by obtain h | h := hend <;> rw [h] <;> nofun
  have ht' : t.status ≠ .busy := by rw [ht]; nofun
  have htu : u = t := by
    obtain hle | hle := Nat.le_total k (16 * bs.length + 4)
    · exact Host.Outcome.next.inj (hu.symm.trans (runSteps_of_ended hle h ht'))
    · exact Host.Outcome.next.inj ((runSteps_of_ended hle hu hu').symm.trans h)
  rw [decodeMember, decodeFuel, hu, htu]

theorem State.result_finished {s : State} {m : Memory} (hm : s.out = some m) :
    (s.finished m).result = .ok m.bytes (s.curByte + if s.curBit ≠ 0 then 1 else 0) := by
  simp only [State.result, State.finished, hm]

/-- The step of a header ahead that has a body (44_block_decoder.md R102). -/
theorem step_of_header {s : State} (hacc : s.accCode = none ∧ s.accLen = none)
    (hb : s.status = .busy) (hp : s.phase = .readHeader) {b ty : Nat} {body : Phase} {i : Instr}
    (hi : headerInstr (b + (ty <<< 1)) = some i) (hexec : exec i = startBody b ty body)
    (h : s.toFront.Before (fieldBits 3 (b + (ty <<< 1)))) :
    step s = .next { (s.withFront (s.toFront.advance 3)).withHeader b ty with phase := body } := by
  rw [step_of_before hacc (State.action_of_readHeader hb hp) trivial (row := .header _) hi rfl h, hexec,
    startBody_eq]
  rfl

/-- The step at the end of a final block (45_decoder_top.md R181, R182). -/
theorem step_of_finalBlockDone {s : State} (hb : s.status = .busy) (hp : s.phase = .blockDone)
    (hf : s.bfinal = some 1) {m : Memory} (hm : s.out = some m) : step s = .next (s.finished m) :=
  (step_blockDone (State.action_of_blockDone hb hp)).trans (blockDone_final hf hm)

/-! ### A stored block (O58) -/

/-- The one's complement of a 16-bit number (00_scope.md R14). -/
theorem xor_ffff {n : Nat} (hn : n ≤ 65535) : n ^^^ 0xFFFF = 65535 - n := by
  have h := BitVec.toNat_not (x := BitVec.ofNat 16 n)
  rw [BitVec.not_def, BitVec.toNat_xor, BitVec.toNat_allOnes, BitVec.toNat_ofNat,
    Nat.mod_eq_of_lt (by omega)] at h
  rw [Nat.xor_comm]
  exact h

/-- The stored block of `bs`, as the last one: the header byte, LEN and NLEN, and the bytes
(30_encoding.md R57). -/
def storedStream (bs : List Byte) : List Byte :=
  [0x01, BitVec.ofNat 8 (bs.length % 256), BitVec.ofNat 8 (bs.length / 256),
    BitVec.ofNat 8 (255 - bs.length % 256), BitVec.ofNat 8 (255 - bs.length / 256)] ++ bs

section
variable {bs stream : List Byte} (hpre : storedStream bs <+: stream)
include hpre

theorem read_of_storedStream {a : Nat} {b : Byte} (h : (storedStream bs)[a]? = some b) :
    (Memory.ofBytes stream).read a = some b := by
  rw [Memory.read_eq (Memory.wf_ofBytes stream), Memory.bytes_ofBytes]
  obtain ⟨ha, -⟩ := List.getElem?_eq_some_iff.mp h
  obtain ⟨tail, rfl⟩ := hpre
  rw [List.getElem?_append_left ha, h]

theorem ok_atByte_of_storedStream {p : Nat} (hp : p ≤ 5) : ((Front.atStart stream).atByte p).ok := by
  refine ⟨Memory.wf_ofBytes stream, ?_, Nat.zero_lt_succ 7, fun h => absurd rfl h⟩
  show p ≤ (Memory.ofBytes stream).size
  have hlen : bs.length + 5 ≤ stream.length := hpre.length_le
  rw [Memory.size_ofBytes]
  omega

/-- The first bits of a stored stream are its header (30_encoding.md R57). -/
theorem before_header_of_storedStream : (Front.atStart stream).Before (fieldBits 3 1) := by
  have hok := Front.ok_atStart stream
  have h8 : 3 ≤ (Front.atStart stream).bitsRemaining := by
    have hlen : bs.length + 5 ≤ stream.length := hpre.length_le
    show 3 ≤ 8 * ((Memory.ofBytes stream).size - 0) - 0
    rw [Memory.size_ofBytes]
    omega
  have hpeek : (Front.atStart stream).peek 3 = 1 := by
    obtain ⟨tail, rfl⟩ := hpre
    show (bytesToNat (Memory.ofBytes (storedStream bs ++ tail)).bytes >>> 0) % 2 ^ 3 = 1
    rw [Memory.bytes_ofBytes]
    show (1 + 256 * bytesToNat _) % 8 = 1
    omega
  have h := Front.fieldBits_peek_prefix hok h8
  rw [hpeek] at h
  exact ⟨hok, h⟩

/-- LEN and NLEN stand after the header byte (20_memory.md R44). -/
theorem lengths_of_storedStream (hlen : bs.length ≤ 65535) :
    ((Front.atStart stream).atByte 1).peek 16 = bs.length ∧
      ((Front.atStart stream).atByte 3).peek 16 = bs.length ^^^ 0xFFFF := by
  have hok1 := ok_atByte_of_storedStream hpre (p := 1) (by decide)
  have hok3 := ok_atByte_of_storedStream hpre (p := 3) (by decide)
  rw [Front.peek_two_bytes hok1 rfl (read_of_storedStream hpre rfl) (read_of_storedStream hpre rfl),
    Front.peek_two_bytes hok3 rfl (read_of_storedStream hpre rfl) (read_of_storedStream hpre rfl),
    xor_ffff hlen]
  simp only [BitVec.toNat_ofNat, Nat.shiftLeft_eq]
  omega

end

theorem step_of_stored {s : State} (hb : s.status = .busy) (hp : s.phase = .stored) :
    step s = exec .storedBody s :=
  step_element (State.action_of_stored hb hp) (fetch_of_ok (i := .storedBody) rfl)

/-- The state in the body of a final stored block (44_block_decoder.md R103). -/
def State.inStoredBlock (s : State) : State :=
  { (s.withFront (s.toFront.advance 3)).withHeader 1 0 with phase := .stored }

/-- Settles O58: the header's step, the body's, and BlockDone. -/
theorem storedBlockRoundTrip : Obligations.StoredBlockRoundTrip := by
  intro cfg bs tail hcap hlen
  have hpre : storedStream bs <+: storedStream bs ++ tail := List.prefix_append _ _
  have hdata : ((storedStream bs ++ tail).drop (1 + 4)).take bs.length = bs := List.take_left
  change decodeMember cfg (storedStream bs ++ tail) = _
  generalize storedStream bs ++ tail = stream at hpre hdata ⊢
  have hfit : 1 + 4 + bs.length ≤ (Memory.ofBytes stream).size := by
    have hle : bs.length + 5 ≤ stream.length := hpre.length_le
    rw [Memory.size_ofBytes]
    omega
  obtain ⟨hlenField, hnlenField⟩ := lengths_of_storedStream hpre hlen
  have hheader := before_header_of_storedStream hpre
  have h1 := step_of_header (s := State.started cfg stream) ⟨rfl, rfl⟩ rfl rfl (b := 1) (ty := 0)
    (body := .stored) (i := .blockStored 1) rfl rfl hheader
  have halign : (State.started cfg stream).inStoredBlock.toFront.alignToByte =
      (Front.atStart stream).atByte 1 := by
    show ((Front.atStart stream).advance 3).alignToByte = _
    simp [Front.alignToByte, Front.advance, Front.pos, Front.atStart, Front.atByte]
  have hpast : ((Front.atStart stream).atByte 1).advance 16 = (Front.atStart stream).atByte 3 :=
    Front.advance_bytes rfl 2
  have hbody := (step_of_stored (s := (State.started cfg stream).inStoredBlock) rfl rfl).trans
    (exec_storedBody_ok (s := (State.started cfg stream).inStoredBlock) (m := []) (p := 1) hfit
      (hheader.ok.advance (Front.length_le_of_prefix hheader.2)) (by rw [halign]; rfl)
      (by rw [halign, hlenField]) (by rw [halign, hpast, hnlenField]) rfl
      (withinCap_of_unbounded hcap _))
  have hdone := step_of_finalBlockDone (s := { (State.started cfg stream).inStoredBlock.withFront
      ((State.started cfg stream).inStoredBlock.toFront.atByte (1 + 4 + bs.length)) with
    out := some (Memory.appendAll []
      ((State.started cfg stream).inStoredBlock.storedBytes 1 bs.length))
    phase := .blockDone }) rfl rfl rfl rfl
  have hrun := runSteps_cons h1 (runSteps_cons hbody (runSteps_cons (k := 0) hdone rfl))
  rw [decodeMember_of_run hcap hrun rfl,
    State.result_finished rfl, Memory.bytes_appendAll, State.storedBytes]
  show MemberResult.ok ([] ++ ((Memory.ofBytes stream).bytes.drop (1 + 4)).take bs.length)
    (1 + 4 + bs.length + 0) = _
  rw [Memory.bytes_ofBytes, hdata, List.nil_append, Nat.add_zero, Nat.add_comm]

/-! ### Fixed literals (O59) -/

/-- The bits of a symbol under the fixed table (30_encoding.md R65). -/
def fixedBits (sym : Nat) : List Bool := (symbolBits fixedLit sym).getD []

theorem symbolBits_fixedLit_eq {sym : Nat} (h : sym < 288) :
    symbolBits fixedLit sym = some (fixedBits sym) := by
  obtain ⟨bits, hbits⟩ := exists_symbolBits_fixedLit h
  rw [fixedBits, hbits, Option.getD_some]

/-- The bits of literals under the fixed table, one after the other. -/
def literalBits (bs : List Byte) : List Bool := bs.flatMap fun b => fixedBits b.toNat

theorem literalBits_cons (b : Byte) (bs : List Byte) :
    literalBits (b :: bs) = fixedBits b.toNat ++ literalBits bs := List.flatMap_cons

theorem asmStmts_literals {a : AsmState} (ha : a.lit = some fixedLit) (bs : List Byte) :
    asmStmts a ((bs.map fun b => .lit b.toNat) ++ [.eob]) =
      some (a.emit (literalBits bs ++ fixedBits 256)) := by
  have hemit {a : AsmState} (ha : a.lit = some fixedLit) {sym : Nat} (hsym : sym < 288) :
      a.emitSymbol a.lit sym = some (a.emit (fixedBits sym)) := by
    rw [ha, AsmState.emitSymbol, symbolBits_fixedLit_eq hsym, Option.map_some]
  induction bs generalizing a with
  | nil =>
    rw [List.map_nil, List.nil_append, asmStmts, asmStmt, hemit ha (by decide)]
    rfl
  | cons b bs ih =>
    have hb : b.toNat < 288 := Nat.lt_of_lt_of_le b.isLt (by decide)
    rw [List.map_cons, List.cons_append, asmStmts, asmStmt, hemit ha hb, Option.bind_some,
      ih (a := a.emit (fixedBits b.toNat)) ha]
    simp only [AsmState.emit, literalBits_cons, List.append_assoc]

/-- The literals ahead are appended one by one (44_block_decoder.md R110). -/
theorem runSteps_literals (bs : List Byte) {s : State} (hacc : s.accCode = none ∧ s.accLen = none)
    (hb : s.status = .busy) (hp : s.phase = .decoding) (hlen : s.length = none)
    (hT : s.litTable = some fixedLit) {m : Memory} (hm : s.out = some m)
    (hcap : s.cfg.outCap = none) (h : s.toFront.Before (literalBits bs)) :
    runSteps bs.length s = .next { s.withFront (s.toFront.advance (literalBits bs).length) with
      out := some (m.appendAll bs) } := by
  induction bs generalizing s m with
  | nil =>
    rw [literalBits, List.flatMap_nil, List.length_nil, List.length_nil,
      Front.advance_zero h.ok.curBit_lt, runSteps, Memory.appendAll, ← hm]
    rfl
  | cons b bs ih =>
    have hb256 : b.toNat < 256 := b.isLt
    obtain ⟨hlit, hrest⟩ := Front.Before.of_append (literalBits_cons b bs ▸ h)
    have hi : litLenInstr b.toNat = some (.lit b.toNat) := if_pos (Nat.le_of_lt_succ hb256)
    have hstep := step_of_litLen hacc hb hp hlen hT builtFor_fixedLit hi
      (symbolBits_fixedLit_eq (by omega)) hlit
    rw [exec_lit_ok (s := s.withFront (s.toFront.advance (fixedBits b.toNat).length)) hm
      (withinCap_of_unbounded hcap _),
      show literalByte b.toNat = b from BitVec.ofNat_toNat 8 b |>.trans (BitVec.setWidth_eq b)] at hstep
    rw [List.length_cons, runSteps_cons hstep (ih (s := { s.withFront (s.toFront.advance
      (fixedBits b.toNat).length) with out := some (m.append b) }) hacc hb hp hlen hT rfl hcap hrest)]
    rw [literalBits_cons, List.length_append, ← Front.advance_advance]
    rfl

/-- The stream of `bs` as fixed literals. -/
def fixedStreamBits (bs : List Byte) : List Bool :=
  fieldBits 3 3 ++ (literalBits bs ++ fixedBits 256)

theorem assemble_literals (bs : List Byte) :
    assemble (.block 1 .fixed :: (bs.map fun b => .lit b.toNat) ++ [.eob]) =
      some (packBits (fixedStreamBits bs)) := by
  rw [assemble, List.cons_append, asmStmts, asmStmt, Option.bind_some, asmStmts_literals rfl]
  rfl

/-- The state in a final fixed block, with its tables in place (44_block_decoder.md R104, R108). -/
def State.inFixedBlock (s : State) : State :=
  { (s.withFront (s.toFront.advance 3)).withHeader 1 1 with
    litTable := some fixedLit, distTable := some fixedDist, phase := .decoding }

theorem step_of_fixed {s : State} (hb : s.status = .busy) (hp : s.phase = .fixed) :
    step s = .next { s with
      litTable := some fixedLit, distTable := some fixedDist, phase := .decoding } :=
  step_element (State.action_of_fixed hb hp) (fetch_of_ok (i := .fixedTables) rfl)

theorem runSteps_fixedHeader {s : State} (hacc : s.accCode = none ∧ s.accLen = none)
    (hb : s.status = .busy) (hp : s.phase = .readHeader) (h : s.toFront.Before (fieldBits 3 3)) :
    runSteps 2 s = .next s.inFixedBlock := by
  have h1 := step_of_header hacc hb hp (b := 1) (ty := 1) (body := .fixed) (i := .blockFixed 1) rfl
    rfl h
  exact runSteps_cons h1 (runSteps_cons (step_of_fixed (s := { (s.withFront (s.toFront.advance
    3)).withHeader 1 1 with phase := .fixed }) hb rfl) rfl)

/-- EOB ahead in a final block ends the decode (44_block_decoder.md R111, 45_decoder_top.md R181). -/
theorem runSteps_endOfFinalBlock {s : State} (hacc : s.accCode = none ∧ s.accLen = none)
    (hb : s.status = .busy) (hp : s.phase = .decoding) (hlen : s.length = none)
    (hT : s.litTable = some fixedLit) {m : Memory} (hm : s.out = some m) (hf : s.bfinal = some 1)
    (h : s.toFront.Before (fixedBits 256)) :
    runSteps 2 s = .next (State.finished { s.withFront (s.toFront.advance (fixedBits 256).length) with
      phase := .blockDone } m) := by
  have h1 := step_of_litLen hacc hb hp hlen hT builtFor_fixedLit (i := .eob) rfl
    (symbolBits_fixedLit_eq (by decide)) h
  exact runSteps_cons h1 (runSteps_cons (step_of_finalBlockDone (s := { s.withFront
    (s.toFront.advance (fixedBits 256).length) with phase := .blockDone }) hb rfl hf hm) rfl)

/-- The bytes that `n` bits from the start of IN reach into (45_decoder_top.md R182). -/
theorem Front.consumed_advance {f : Front} (h : f.pos = 0) (n : Nat) :
    (f.advance n).curByte + (if (f.advance n).curBit ≠ 0 then 1 else 0) = (n + 7) / 8 := by
  simp only [Front.advance, h, Nat.zero_add]
  split <;> omega

/-- Settles O59: the header and the tables, the literals, and the end of the block. -/
theorem fixedLiteralsRoundTrip : Obligations.FixedLiteralsRoundTrip := by
  intro cfg bs hcap
  refine ⟨_, assemble_literals bs, ?_⟩
  have hlength : (packBits (fixedStreamBits bs)).length = ((fixedStreamBits bs).length + 7) / 8 :=
    length_packBytes _ _
  have hprefix := Front.prefix_unread_packBits (fixedStreamBits bs) []
  rw [List.append_nil] at hprefix
  generalize packBits (fixedStreamBits bs) = stream at hlength hprefix ⊢
  have hbefore : (State.started cfg stream).toFront.Before (fixedStreamBits bs) :=
    ⟨Front.ok_atStart stream, hprefix⟩
  obtain ⟨hheader, hbody⟩ := hbefore.of_append
  obtain ⟨hliterals, heob⟩ := hbody.of_append
  have h1 := runSteps_fixedHeader (s := State.started cfg stream) ⟨rfl, rfl⟩ rfl rfl hheader
  have h2 := runSteps_literals bs (s := (State.started cfg stream).inFixedBlock) ⟨rfl, rfl⟩ rfl rfl rfl
    rfl rfl hcap hliterals
  have h3 := runSteps_endOfFinalBlock (s := { (State.started cfg stream).inFixedBlock.withFront
    ((State.started cfg stream).inFixedBlock.toFront.advance (literalBits bs).length) with
    out := some (Memory.appendAll [] bs) }) ⟨rfl, rfl⟩ rfl rfl rfl rfl rfl rfl heob
  rw [decodeMember_of_run hcap (runSteps_trans h1 (runSteps_trans h2 h3)) rfl,
    State.result_finished rfl, Memory.bytes_appendAll, hlength]
  have hconsumed := Front.consumed_advance (f := (State.started cfg stream).toFront) rfl
    (fixedStreamBits bs).length
  have hpast : (State.started cfg stream).toFront.advance (fixedStreamBits bs).length =
      (((State.started cfg stream).toFront.advance 3).advance (literalBits bs).length).advance
        (fixedBits 256).length := by
    rw [Front.advance_advance, Front.advance_advance, fixedStreamBits, List.length_append,
      List.length_append, length_fieldBits]
  rw [hpast] at hconsumed
  exact congr (congrArg MemberResult.ok (List.nil_append bs)) hconsumed

end Sys2Proof.Machine
